-- ==== Sys2Proof/Word.lean ====
section
/-! DEFINITION. The widths the block's registers have (10_state.md R20, R60). All quantities are unsigned (00_scope.md R6). -/

namespace Sys2Proof

/-- A register, a bus word, a command word: 32 bits (R20, R81). -/
abbrev Word := BitVec 32

/-- A symbol or a buffer byte (R5, R53). -/
abbrev Byte := BitVec 8

/-- A node index: 0x000 to 0x0FF the leaf of a symbol, 0x100 + k the internal node k, 0x1FF no node (30_encoding.md R121). -/
abbrev NodeIx := BitVec 9

end Sys2Proof
end

