-- ==== Sys2Proof/Syntax.lean ====
section
/-! DEFINITION. The commands of the block (30_encoding.md R111): one constructor per row of the opcode table.
Commands carry no operands (R114). -/

namespace Sys2Proof

/-- The five commands. -/
inductive Instr where
  /-- NOP, complete with no effect (40_commands.md R144). -/
  | nop
  /-- CLRW, clear every WEIGHT[s] (R145). -/
  | clrw
  /-- BUILD, build the Huffman tree and the code table from WEIGHT (41_tree_builder.md R160). -/
  | build
  /-- ENCODE, encode IN_BUF[0..LEN-1] into OUT_BUF (42_encoder.md R200). -/
  | encode
  /-- DECODE, decode the stream IN_BUF[0..LEN-1] into OUT_BUF (43_decoder.md R230). -/
  | decode
deriving DecidableEq, Repr

end Sys2Proof
end

