-- ==== Sys2Proof/WellFormed.lean ====
section
/-! DEFINITION. Which command words and commands are well formed (30_encoding.md R110 to R114). -/

namespace Sys2Proof

/-- The two fields of the one command format "CMD" (R110): RSVD must be 0, OPCODE selects the operation. -/
structure CmdFields where
  rsvd   : BitVec 24
  opcode : BitVec 8
deriving DecidableEq, Repr

/-- RSVD = 0 (R112). -/
def CmdFields.rsvdOk (f : CmdFields) : Bool := f.rsvd == 0#24

/-- OPCODE is one of 0x00 to 0x04; 0x05 to 0xFF are reserved (R113). -/
def CmdFields.opcodeOk (f : CmdFields) : Bool := decide (f.opcode.toNat ≤ 4)

/-- A command word is legal iff both hold (R111). -/
def CmdFields.wellFormed (f : CmdFields) : Bool := f.rsvdOk && f.opcodeOk

/-- The OPCODE of a command (R111). -/
def Instr.opcode : Instr → BitVec 8
  | .nop    => 0x00#8
  | .clrw   => 0x01#8
  | .build  => 0x02#8
  | .encode => 0x03#8
  | .decode => 0x04#8

/-- The fields of a command: no operand field exists (R114), so RSVD is 0. -/
def Instr.fields (i : Instr) : CmdFields := { rsvd := 0#24, opcode := i.opcode }

/-- A command is well formed when its fields are. -/
def Instr.wellFormed (i : Instr) : Bool := i.fields.wellFormed

end Sys2Proof
end

