-- ==== Sys2Proof/Decode.lean ====
section
/-! DEFINITION. The command decoder and encoder (30_encoding.md R110 to R113, 40_commands.md R143). A command is one
32-bit bus word; no smaller unit of it is ever fetched, so the decoder reads the word. -/

namespace Sys2Proof

/-- Bits [7:0] and [31:8] of a command word (R110). -/
def cmdFields (w : Word) : CmdFields := { rsvd := w.extractLsb' 8 24, opcode := w.extractLsb' 0 8 }

/-- The opcode map (R111); 0x05 to 0xFF are reserved (R113). -/
def opcodeMap (op : BitVec 8) : Option Instr :=
  match op.toNat with
  | 0 => some .nop
  | 1 => some .clrw
  | 2 => some .build
  | 3 => some .encode
  | 4 => some .decode
  | _ => none

/-- The dispatch of R143: `none` where it raises ILLEGAL_COMMAND. -/
def decode (w : Word) : Option Instr :=
  if (cmdFields w).rsvdOk then opcodeMap (cmdFields w).opcode else none

/-- The word of a command: RSVD in bits [31:8], OPCODE in bits [7:0] (R110, R111). -/
def encode (i : Instr) : Word := i.fields.rsvd ++ i.fields.opcode

/-- The instruction the decoder reads from a table word: `w` cut to `nbits`, and every bit above it 0. A command is exactly
one 32-bit word (R110), so a value that does not fit 32 bits is no command. -/
def decodeTableWord (nbits w : Nat) : Option Instr :=
  if w % 2 ^ nbits < 2 ^ 32 then decode (BitVec.ofNat 32 (w % 2 ^ nbits)) else none

end Sys2Proof
end

