-- ==== Sys2Proof/Config.lean ====
section
/-! DEFINITION. What one instance of the block fixes (00_scope.md R5) and the free values the spec leaves open
(93_implementation_defined.md I2, I3, I4, I10). -/

namespace Sys2Proof

/-- The OPEN parameters IN_AW and OUT_AW, the pointer widths: the depths are powers of two (R5, decision D6).
They stand in `State` as constants of the run (log entry 4). -/
structure Config where
  inAw  : Nat
  outAw : Nat
deriving DecidableEq, Repr

/-- IN_DEPTH, the bytes of IN_BUF (R5). -/
def Config.inDepth (c : Config) : Nat := 2 ^ c.inAw

/-- OUT_DEPTH, the bytes of OUT_BUF (R5). -/
def Config.outDepth (c : Config) : Nat := 2 ^ c.outAw

/-- Each depth is a power of two from 2^4 to 2^24 (R5). -/
def Config.wf (c : Config) : Bool :=
  decide (4 ≤ c.inAw ∧ c.inAw ≤ 24 ∧ 4 ≤ c.outAw ∧ c.outAw ≤ 24)

/-- The reference configuration, 65536 and 65536 (R5). -/
def Config.reference : Config := { inAw := 16, outAw := 16 }

/-- FREE VALUE. The word a host read returns where the spec says "any value" (R61, R300): draw number `n`.
It has no body, so nothing can be proved of its values (log entries 7, 8). -/
opaque Config.freeWord : Nat → BitVec 32

/-- FREE VALUE. The byte at index `i` of a buffer whose contents became unspecified at draw number `n`
(R301, R302, R208, R243). It has no body (log entries 5, 6). -/
opaque Config.freeByte : Nat → Nat → BitVec 8

end Sys2Proof
end

