-- ==== Sys2Proof/Machine/State.lean ====
section
/-! DEFINITION. The state of the block: the record of 10_state.md R60, the hidden state of R56 and R57, the reset pin, the
parameters, and four fields of the model's own (the events to come, the values read, the free draws). -/

namespace Sys2Proof.Machine

/-- Why the machine would stop. The spec gives no such reason: every transaction completes without a bus error (20_memory.md
R83), a command always completes (40_commands.md R149), and an error is a completion (60_exceptions.md R271). So the type has
no constructor: no one raises a fault (log entry 21). -/
inductive Fault where
deriving DecidableEq, Repr

/-- Why the model has no meaning for a command. -/
inductive Refusal where
  /-- Raised by `exec` alone, for a command that has no meaning yet. No arm raises it. Safe: the machine stops where the
  hardware goes on. -/
  | notModelled (mnemonic : String)
deriving DecidableEq, Repr

/-- The error codes of 60_exceptions.md R270. Codes 9 to 15 are never produced, so they have no constructor (I12). -/
inductive ErrCode where
  | none
  | illegalCommand
  | noTable
  | badLength
  | symbolNotInTable
  | outputOverflow
  | unknownCodeword
  | truncatedStream
  | markerCollision
deriving DecidableEq, Repr

/-- One byte buffer, an array of (Byte or Unspecified) (R60). A listed index holds a byte; an unlisted one is Unspecified and
reads as the free byte of draw `gen` at that index (log entry 5). -/
structure Memory where
  gen   : Nat
  cells : List Host.Cell
deriving DecidableEq, Repr

/-- The code table, one record written as a whole by BUILD (R52). `codeword s` is V(s) of R45. -/
structure CodeTable where
  valid    : Bool
  mcoll    : Bool
  nsym     : BitVec 9
  root     : NodeIx
  maxlen   : BitVec 9
  oneslen  : BitVec 9
  total    : BitVec 40
  wpl      : BitVec 48
  codelen  : Vector (BitVec 9) 256
  codeword : Vector (BitVec 256) 256
  left     : Vector NodeIx 255
  right    : Vector NodeIx 255
  nw       : Vector (BitVec 40) 255
deriving DecidableEq, Repr

/-- What can happen at the block's ports, and where an engine step falls between (00_scope.md R11, R12; log entry 1). -/
inductive BusEvent where
  /-- HostRead(a) (R81). -/
  | read (a : Word)
  /-- HostWrite(a, v) (R81). -/
  | write (a v : Word)
  /-- The engine step occurs here, if it is enabled (R12, R149). -/
  | engine
  /-- `rst` is sampled at this level at a rising edge of `clk` (70_reset_and_hazards.md R300). -/
  | rst (level : Bool)
deriving DecidableEq, Repr

/-- One line of a program's trace: HostRead(addr) returned value (R130). -/
structure ReadRecord where
  addr  : Word
  value : Word
deriving DecidableEq, Repr

/-- The whole state. -/
structure State where
  /-- The parameters; nothing writes them (R5). -/
  cfg             : Config
  /-- The level of the input `rst` (R300). -/
  rst             : Bool
  /-- CTRL.IRQ_EN (R23). -/
  irqEn           : Bool
  /-- CTRL.REJECT_COLLISION (R23). -/
  rejectCollision : Bool
  /-- STATUS.BUSY (R25). -/
  busy            : Bool
  /-- PENDING, meaningful iff `busy` (R56). -/
  pending         : Word
  /-- IRQ_STATUS.DONE (R26). -/
  irqDone         : Bool
  /-- IRQ_STATUS.ERROR (R26). -/
  irqError        : Bool
  /-- IRQ_STATUS.CMD_DROPPED (R26). -/
  irqDropped      : Bool
  /-- ERR_CODE (R27). -/
  errCode         : ErrCode
  /-- ERR_INFO (R28). -/
  errInfo         : Word
  /-- LEN (R29). -/
  len             : Word
  /-- OUT_LEN (R30). -/
  outLen          : Word
  /-- ENC_BITS (R32). -/
  encBits         : Word
  /-- SENTINEL.PAD (R31). -/
  pad             : BitVec 3
  /-- IN_PTR (R39). -/
  inPtr           : Nat
  /-- OUT_PTR (R41). -/
  outPtr          : Nat
  /-- IN_BUF (R53). -/
  inBuf           : Memory
  /-- OUT_BUF (R54). -/
  outBuf          : Memory
  /-- WEIGHT[0..255] (R43, R55). -/
  weight          : Vector Word 256
  /-- The code table (R52). -/
  table           : CodeTable
  /-- The live entries HEAP[0..HEAP_SIZE-1], used only inside BUILD (R57; log entry 16). -/
  heap            : List NodeIx
  /-- The model's own: how many free values have been drawn (log entry 7). -/
  draws           : Nat
  /-- The model's own: the events still to come, oldest first (log entry 1). -/
  bus             : List BusEvent
  /-- The model's own: what the host has read, newest first (log entry 18). -/
  trace           : List ReadRecord
deriving DecidableEq, Repr

/-- The table as reset stores it: every value 0 (R301). -/
def CodeTable.reset : CodeTable :=
  { valid := false, mcoll := false, nsym := 0, root := 0, maxlen := 0, oneslen := 0, total := 0, wpl := 0,
    codelen := Vector.replicate 256 0#9, codeword := Vector.replicate 256 0#256,
    left := Vector.replicate 255 0#9, right := Vector.replicate 255 0#9, nw := Vector.replicate 255 0#40 }

/-- The block right after reset (R301), in the reference configuration (R5, log entry 4), with `rst` released (log entry 10),
nothing written to the buffers (free draws 0 and 1, log entries 5, 7), PENDING 0 (log entry 11) and no event to come. -/
def State.reset : State :=
  { cfg := Config.reference, rst := false,
    irqEn := false, rejectCollision := false,
    busy := false, pending := 0,
    irqDone := false, irqError := false, irqDropped := false,
    errCode := .none, errInfo := 0, len := 0, outLen := 0, encBits := 0, pad := 0,
    inPtr := 0, outPtr := 0,
    inBuf := { gen := 0, cells := [] }, outBuf := { gen := 1, cells := [] },
    weight := Vector.replicate 256 0#32, table := CodeTable.reset, heap := [],
    draws := 2, bus := [], trace := [] }

end Sys2Proof.Machine
end

