-- ==== Sys2Proof/Machine/Ops.lean ====
section
/-! DEFINITION. The named operations over buffers, tables and registers: one byte of a buffer, free draws, the completion
of a command with and without error (40_commands.md R142, 60_exceptions.md R271), the acknowledgement (R285), the reset
(70_reset_and_hazards.md R301, R302), the acceptance of a command (40_commands.md R140, R141). -/

namespace Sys2Proof.Machine

/-! ## Register arrays -/

/-- `v[s]` for a symbol `s`. -/
def atSymbol {α : Type} (v : Vector α 256) (s : Byte) : α := v[s.toNat]'(by have := s.isLt; omega)

/-- `v[s] <- x` for a symbol `s`. -/
def setSymbol {α : Type} (v : Vector α 256) (s : Byte) (x : α) : Vector α 256 := v.set s.toNat x (by have := s.isLt; omega)

/-- The array whose entry `i` is `f i`. -/
def tabulate {α : Type} (n : Nat) (f : Nat → α) : Vector α n := ⟨⟨(List.range n).map f⟩, by simp⟩

/-! ## Buffers -/

/-- The listed byte at index `i`, `none` where it is Unspecified (R60). -/
def cellAt (i : Nat) : List Host.Cell → Option Byte
  | [] => none
  | (a, b) :: rest => if a = i then some b else cellAt i rest

/-- The cells with `b` at index `i`, rising indices kept. -/
def setCell (i : Nat) (b : Byte) : List Host.Cell → List Host.Cell
  | [] => [(i, b)]
  | (a, c) :: rest =>
    if i < a then (i, b) :: (a, c) :: rest
    else if a = i then (i, b) :: rest
    else (a, c) :: setCell i b rest

/-- The listed byte, or `none` (R60). -/
def Memory.get (m : Memory) (i : Nat) : Option Byte := cellAt i m.cells

/-- BUF[i]. A byte nothing has written is a free value, the same one at every read until it is written (R53, I2). -/
def Memory.read (m : Memory) (i : Nat) : Byte := (m.get i).getD (Config.freeByte m.gen i)

/-- BUF[i] <- b. -/
def Memory.write (m : Memory) (i : Nat) (b : Byte) : Memory := { m with cells := setCell i b m.cells }

/-- BUF[i], BUF[i+1], ... <- the bytes, in order. -/
def Memory.writeFrom (m : Memory) (i : Nat) : List Byte → Memory
  | [] => m
  | b :: bs => (m.write i b).writeFrom (i + 1) bs

/-- BUF[0 .. n-1]. -/
def Memory.readFirst (m : Memory) (n : Nat) : List Byte := (List.range n).map m.read

/-- A buffer all of whose bytes are unspecified: free draw `g` (R301, R302, R208, R243). -/
def Memory.unspecified (g : Nat) : Memory := { gen := g, cells := [] }

/-- Indices rise strictly. -/
def rising : List Host.Cell → Bool
  | [] => true
  | [_] => true
  | (a, _) :: (b, y) :: rest => decide (a < b) && rising ((b, y) :: rest)

/-- The canonical form of a buffer of `depth` bytes: listed indices rise strictly and lie in the buffer. An unlisted index is
Unspecified, which no listed byte is, so no entry says what an unlisted index says (log entry 5). -/
def Memory.wf (depth : Nat) (m : Memory) : Bool := rising m.cells && m.cells.all (fun c => decide (c.1 < depth))

/-! ## Free draws -/

/-- The free word of the present draw (R61, R300). -/
def State.freeWord (s : State) : Word := Config.freeWord s.draws

/-- One draw is used up. -/
def State.drawn (s : State) : State := { s with draws := s.draws + 1 }

/-- Every byte of OUT_BUF holds its old value or any value: a fresh free draw (R208, R243, I3; log entry 6). -/
def State.scrambleOut (s : State) : State :=
  { s with outBuf := Memory.unspecified s.draws, draws := s.draws + 1 }

/-! ## Error codes and completion -/

/-- The code of ERR_CODE bits [3:0] (R270). -/
def ErrCode.bits : ErrCode → BitVec 4
  | .none             => 0
  | .illegalCommand   => 1
  | .noTable          => 2
  | .badLength        => 3
  | .symbolNotInTable => 4
  | .outputOverflow   => 5
  | .unknownCodeword  => 6
  | .truncatedStream  => 7
  | .markerCollision  => 8

/-- Completion of the running command (R142, R271): the one place where a command ends. IRQ_STATUS bits are only set. -/
def State.completeWith (code : ErrCode) (info : Word) (s : State) : State :=
  { s with
    errCode  := code
    errInfo  := info
    irqDone  := true
    irqError := s.irqError || decide (code ≠ .none)
    busy     := false }

/-- `complete()`: ERR_CODE = 0 and ERR_INFO = 0 (R9, R142). -/
def State.complete (s : State) : State := s.completeWith .none 0

/-- `raise E(info)`, the block's trap entry (R9, R271). Nothing else is saved: there is no pc, mode or vector. -/
def State.raiseError (code : ErrCode) (info : Word) (s : State) : State := s.completeWith code info

/-- A failed ENCODE: OUT_LEN and ENC_BITS are 0 and OUT_BUF is any value (R208), then the completion. -/
def State.failEncode (code : ErrCode) (info : Word) (s : State) : State :=
  ({ s.scrambleOut with outLen := 0, encBits := 0 }).raiseError code info

/-- A failed DECODE: OUT_LEN is 0 and OUT_BUF is any value (R243), then the completion. -/
def State.failDecode (code : ErrCode) (info : Word) (s : State) : State :=
  ({ s.scrambleOut with outLen := 0 }).raiseError code info

/-- The acknowledgement, the block's only return: writing 1 to a bit of IRQ_STATUS clears it, 0 leaves it (R26, R285). -/
def State.ackIrq (v : Word) (s : State) : State :=
  { s with
    irqDone    := s.irqDone && !v.getLsbD 0
    irqError   := s.irqError && !v.getLsbD 1
    irqDropped := s.irqDropped && !v.getLsbD 2 }

/-- Acceptance of a command word (R140). -/
def State.accept (v : Word) (s : State) : State := { s with pending := v, busy := true }

/-- A CMD write while BUSY = 1 is dropped (R141). -/
def State.dropCommand (s : State) : State := { s with irqDropped := true }

/-! ## Reset -/

/-- The reset state of R301, entered while `rst` is high; a running command is abandoned (R302). The parameters, the events to
come and what the host has read are not the block's registers and stay; both buffers become unspecified, two fresh draws. -/
def State.enterReset (s : State) : State :=
  { State.reset with
    cfg := s.cfg, rst := true,
    inBuf := Memory.unspecified s.draws, outBuf := Memory.unspecified (s.draws + 1), draws := s.draws + 2,
    bus := s.bus, trace := s.trace }

end Sys2Proof.Machine
end

