-- ==== Sys2Proof/Machine/Flags.lean ====
section
/-! DEFINITION. The flags and the status words computed from the state: STATUS and its EMPTY bit, IRQ_STATUS, CTRL,
SENTINEL and its SLEN field, the interrupt output (10_state.md R23, R25, R26, R31; 60_exceptions.md R283). -/

namespace Sys2Proof.Machine

/-- A flag as a word with that bit in place 0. -/
def flagBit (b : Bool) : Word := BitVec.setWidth 32 (BitVec.ofBool b)

/-- STATUS.EMPTY: TABLE_VALID = 1 and NSYM = 0 (R25). -/
def CodeTable.empty (t : CodeTable) : Bool := t.valid && t.nsym == 0#9

/-- STATUS with BUSY = 0 (R25). -/
def State.statusWord (s : State) : Word :=
  flagBit s.busy ||| (flagBit s.table.valid <<< 1) ||| (flagBit s.table.mcoll <<< 2) ||| (flagBit s.table.empty <<< 3)

/-- STATUS as read while BUSY = 1: bit 0 is 1, bits [3:1] are any value, the rest is 0 (R25, R61; log entry 9). -/
def State.statusWordBusy (s : State) : Word := flagBit s.busy ||| (s.freeWord &&& 0x0000000E#32)

/-- CTRL (R23). -/
def State.ctrlWord (s : State) : Word := flagBit s.irqEn ||| (flagBit s.rejectCollision <<< 1)

/-- IRQ_STATUS (R26). -/
def State.irqStatusWord (s : State) : Word :=
  flagBit s.irqDone ||| (flagBit s.irqError <<< 1) ||| (flagBit s.irqDropped <<< 2)

/-- SENTINEL.SLEN, the sentinel length s = PAD + 8 (R31). -/
def State.sentinelLen (s : State) : Nat := s.pad.toNat + 8

/-- SENTINEL: PAD in bits [2:0], SLEN in bits [7:4] (R31). -/
def State.sentinelWord (s : State) : Word :=
  BitVec.setWidth 32 s.pad ||| (BitVec.ofNat 32 s.sentinelLen <<< 4)

/-- The interrupt output, a level (R283). -/
def State.irq (s : State) : Bool := s.irqEn && s.irqDone

/-- Marker collision: n >= 2 and ONESLEN is a length some sentinel may have (41_tree_builder.md R177). -/
def markerCollision (n oneslen : Nat) : Bool := decide (2 ≤ n ∧ 8 ≤ oneslen ∧ oneslen ≤ 15)

/-- Padding p = (8 - (B mod 8)) mod 8 (42_encoder.md R204). -/
def paddingOf (b : Nat) : Nat := (8 - b % 8) % 8

end Sys2Proof.Machine
end

