-- ==== Sys2Proof/Machine/Stream.lean ====
section
/-! DEFINITION. Bit strings, bytes and codewords (00_scope.md R7; 30_encoding.md R116, R117, R120). A bit string is a list,
first bit first. -/

namespace Sys2Proof.Machine

/-- A byte as a bit string, most significant bit first (R7). -/
def byteBits (b : Byte) : List Bool := (List.range 8).map (fun i => b.getLsbD (7 - i))

/-- A stream's bytes as one bit string: bit(j) = b_{j div 8}[7 - (j mod 8)] (R116). -/
def streamBits (bytes : List Byte) : List Bool := bytes.flatMap byteBits

/-- The number a bit string writes, first bit most significant. -/
def bitsValue (bits : List Bool) : Nat := bits.foldl (fun v b => 2 * v + b.toNat) 0

/-- A bit string whose length is a multiple of 8, packed into big-endian bytes (R117). -/
def packBytes : List Bool → List Byte
  | b0 :: b1 :: b2 :: b3 :: b4 :: b5 :: b6 :: b7 :: rest =>
    BitVec.ofNat 8 (bitsValue [b0, b1, b2, b3, b4, b5, b6, b7]) :: packBytes rest
  | _ => []

/-- `ones(n)` (R7). -/
def ones (n : Nat) : List Bool := List.replicate n true

/-- The codeword of length `l` and value `v`: c(i) = V[l - 1 - i] (R120). -/
def codewordBits (l v : Nat) : List Bool := (List.range l).map (fun i => v.testBit (l - 1 - i))

/-- The stored codeword of a symbol: the low CODELEN[s] bits of CODEWORD[s], most significant first (R45, R120). -/
def CodeTable.codewordOf (t : CodeTable) (s : Byte) : List Bool :=
  codewordBits (atSymbol t.codelen s).toNat (atSymbol t.codeword s).toNat

/-- The index of the first 0 bit, if there is one. -/
def firstZero : List Bool → Option Nat
  | [] => none
  | false :: _ => some 0
  | true :: rest => (firstZero rest).map (· + 1)

end Sys2Proof.Machine
end

