-- ==== Sys2Proof/Machine/Operands.lean ====
section
/-! DEFINITION. The operands of the commands: registers the host sets beforehand (30_encoding.md R114; 40_commands.md R148).
No operand is sign-extended, scaled or shifted. -/

namespace Sys2Proof.Machine

/-- LEN as a count (R29). -/
def State.length (s : State) : Nat := s.len.toNat

/-- LEN > IN_DEPTH, the cause of BAD_LENGTH (60_exceptions.md R275). -/
def State.lengthBad (s : State) : Bool := decide (s.cfg.inDepth < s.length)

/-- IN_BUF[0 .. LEN-1]: the symbols of ENCODE, the stream bytes of DECODE (R53). -/
def State.inputBytes (s : State) : List Byte := s.inBuf.readFirst s.length

/-- A weight table as the natural numbers w[0..255] (00_scope.md R10). -/
def weightsOf (v : Vector Word 256) : List Nat := v.toList.map BitVec.toNat

/-- The snapshot w[s] = WEIGHT[s] that BUILD takes (41_tree_builder.md R161). -/
def State.weights (s : State) : List Nat := weightsOf s.weight

/-- LEFT[node - 0x100] of the stored tree. Every internal node a BUILD stores has one (R236); elsewhere it is "no node" 0x1FF
(R121; log entry 17). -/
def CodeTable.leftOf (t : CodeTable) (x : NodeIx) : NodeIx := (t.left[x.toNat - 256]?).getD 0x1FF#9

/-- RIGHT[node - 0x100] of the stored tree, as `leftOf`. -/
def CodeTable.rightOf (t : CodeTable) (x : NodeIx) : NodeIx := (t.right[x.toNat - 256]?).getD 0x1FF#9

/-- The child a payload bit selects: 0 the left one, 1 the right one (43_decoder.md R236). -/
def CodeTable.childOf (t : CodeTable) (x : NodeIx) (b : Bool) : NodeIx := if b then t.rightOf x else t.leftOf x

/-- A node index below 0x100 is the leaf of that symbol (R121). -/
def isLeaf (x : NodeIx) : Bool := decide (x.toNat < 256)

/-- The symbol of a leaf. -/
def leafSymbol (x : NodeIx) : Byte := BitVec.setWidth 8 x

end Sys2Proof.Machine
end

