-- ==== Sys2Proof/Machine/RegMap.lean ====
section
/-! DEFINITION. The register map: which register a bus address selects, and each register's offset (10_state.md R20, R47;
20_memory.md R80 to R82, R91). -/

namespace Sys2Proof.Machine

/-- The registers of R20. `node` holds k = 0 to 254. -/
inductive Reg where
  | id | version | ctrl | cmd | status | irqStatus | errCode | errInfo
  | len | outLen | sentinel | encBits | nsym | root | maxlen | oneslen
  | totalLo | totalHi | wplLo | wplHi | inPtr | inData | outPtr | outData
  | weight (s : Byte)
  | codelen (s : Byte)
  | codeword (s : Byte) (w : BitVec 3)
  | node (k : Byte) (j : BitVec 2)
  | reserved
deriving DecidableEq, Repr

/-- The register of word `i` of the window, that is of offset 4i (R20). -/
def regOfWord (i : Nat) : Reg :=
  match i with
  | 0 => .id
  | 1 => .version
  | 2 => .ctrl
  | 3 => .cmd
  | 4 => .status
  | 5 => .irqStatus
  | 6 => .errCode
  | 7 => .errInfo
  | 8 => .len
  | 9 => .outLen
  | 10 => .sentinel
  | 11 => .encBits
  | 12 => .nsym
  | 13 => .root
  | 14 => .maxlen
  | 15 => .oneslen
  | 16 => .totalLo
  | 17 => .totalHi
  | 18 => .wplLo
  | 19 => .wplHi
  | 20 => .inPtr
  | 21 => .inData
  | 22 => .outPtr
  | 23 => .outData
  | i =>
    if 0x100 ≤ i ∧ i < 0x200 then .weight (BitVec.ofNat 8 (i - 0x100))
    else if 0x200 ≤ i ∧ i < 0x300 then .codelen (BitVec.ofNat 8 (i - 0x200))
    else if 0x400 ≤ i ∧ i < 0xC00 then .codeword (BitVec.ofNat 8 ((i - 0x400) / 8)) (BitVec.ofNat 3 ((i - 0x400) % 8))
    else if 0xC00 ≤ i ∧ i < 0xFFC then .node (BitVec.ofNat 8 ((i - 0xC00) / 4)) (BitVec.ofNat 2 ((i - 0xC00) % 4))
    else .reserved

/-- The register a bus address selects: offset bits [13:2]; bits [1:0] and the bits above 13 are not decoded (R80, R82). -/
def regOf (a : Word) : Reg := regOfWord (a.extractLsb' 2 12).toNat

/-- The byte offset of a register (R20); `none` for the reserved ranges, which have many. -/
def Reg.offset : Reg → Option Word
  | .id => some 0x000
  | .version => some 0x004
  | .ctrl => some 0x008
  | .cmd => some 0x00C
  | .status => some 0x010
  | .irqStatus => some 0x014
  | .errCode => some 0x018
  | .errInfo => some 0x01C
  | .len => some 0x020
  | .outLen => some 0x024
  | .sentinel => some 0x028
  | .encBits => some 0x02C
  | .nsym => some 0x030
  | .root => some 0x034
  | .maxlen => some 0x038
  | .oneslen => some 0x03C
  | .totalLo => some 0x040
  | .totalHi => some 0x044
  | .wplLo => some 0x048
  | .wplHi => some 0x04C
  | .inPtr => some 0x050
  | .inData => some 0x054
  | .outPtr => some 0x058
  | .outData => some 0x05C
  | .weight s => some (BitVec.ofNat 32 (0x400 + 4 * s.toNat))
  | .codelen s => some (BitVec.ofNat 32 (0x800 + 4 * s.toNat))
  | .codeword s w => some (BitVec.ofNat 32 (0x1000 + 32 * s.toNat + 4 * w.toNat))
  | .node k j => if k.toNat < 255 then some (BitVec.ofNat 32 (0x3000 + 16 * k.toNat + 4 * j.toNat)) else none
  | .reserved => none

/-- The registers that read 0 while TABLE_VALID = 0 (R20, R59). -/
def Reg.gated : Reg → Bool
  | .nsym | .root | .maxlen | .oneslen | .totalLo | .totalHi | .wplLo | .wplHi => true
  | .codelen _ | .codeword _ _ | .node _ _ => true
  | .id | .version | .ctrl | .cmd | .status | .irqStatus | .errCode | .errInfo | .len | .outLen | .sentinel | .encBits => false
  | .inPtr | .inData | .outPtr | .outData | .weight _ | .reserved => false

/-- The registers whose read returns any word while BUSY = 1: those of R61 but STATUS, of which only bits [3:1] are free.
`clearing` says that the pending command is CLRW. -/
def Reg.engineOwned (clearing : Bool) : Reg → Bool
  | .errCode | .errInfo | .outLen | .encBits | .sentinel | .outData => true
  | .nsym | .root | .maxlen | .oneslen | .totalLo | .totalHi | .wplLo | .wplHi => true
  | .codelen _ | .codeword _ _ | .node _ _ => true
  | .weight _ => clearing
  | .id | .version | .ctrl | .cmd | .status | .irqStatus | .len | .inPtr | .inData | .outPtr | .reserved => false

end Sys2Proof.Machine
end

