-- ==== Sys2Proof/Machine/Bus.lean ====
section
/-! DEFINITION. The two host transactions, HostRead and HostWrite (20_memory.md R81 to R86), register by register
(10_state.md R21 to R48, R59, R61). -/

namespace Sys2Proof.Machine

/-! ## Reads -/

/-- CODEWORD[s] word w: V(s)[32w + 31 : 32w] (R45). -/
def CodeTable.codewordWord (t : CodeTable) (s : Byte) (w : BitVec 3) : Word :=
  (atSymbol t.codeword s).extractLsb' (32 * w.toNat) 32

/-- NODE[k] word j; all four words read 0 for k >= max(n - 1, 0) (R46). -/
def CodeTable.nodeWord (t : CodeTable) (k : Byte) (j : BitVec 2) : Word :=
  if t.nsym.toNat ≤ k.toNat + 1 then 0
  else
    match j.toNat with
    | 0 =>
      BitVec.setWidth 32 ((t.left[k.toNat]?).getD 0) ||| (BitVec.setWidth 32 ((t.right[k.toNat]?).getD 0) <<< 16)
    | 1 => BitVec.setWidth 32 ((t.nw[k.toNat]?).getD 0)
    | 2 => (((t.nw[k.toNat]?).getD 0).extractLsb' 32 8).setWidth 32
    | _ => 0

/-- The value of a register while BUSY = 0, the gate of R59 not yet applied. CMD reads 0 (R24), and so does every reserved
offset (R47). -/
def State.rawRead (s : State) : Reg → Word
  | .id => 0x48554646#32
  | .version => 0x00010000#32
  | .ctrl => s.ctrlWord
  | .cmd => 0
  | .status => s.statusWord
  | .irqStatus => s.irqStatusWord
  | .errCode => BitVec.setWidth 32 s.errCode.bits
  | .errInfo => s.errInfo
  | .len => s.len
  | .outLen => s.outLen
  | .sentinel => s.sentinelWord
  | .encBits => s.encBits
  | .nsym => BitVec.setWidth 32 s.table.nsym
  | .root => BitVec.setWidth 32 s.table.root
  | .maxlen => BitVec.setWidth 32 s.table.maxlen
  | .oneslen => BitVec.setWidth 32 s.table.oneslen
  | .totalLo => s.table.total.setWidth 32
  | .totalHi => (s.table.total.extractLsb' 32 8).setWidth 32
  | .wplLo => s.table.wpl.setWidth 32
  | .wplHi => (s.table.wpl.extractLsb' 32 16).setWidth 32
  | .inPtr => BitVec.ofNat 32 s.inPtr
  | .inData => BitVec.setWidth 32 (s.inBuf.read s.inPtr)
  | .outPtr => BitVec.ofNat 32 s.outPtr
  | .outData => BitVec.setWidth 32 (s.outBuf.read s.outPtr)
  | .weight c => atSymbol s.weight c
  | .codelen c => BitVec.setWidth 32 (atSymbol s.table.codelen c)
  | .codeword c w => s.table.codewordWord c w
  | .node k j => s.table.nodeWord k j
  | .reserved => 0

/-- The exact value of a register: a gated one reads 0 while TABLE_VALID = 0 (R59). -/
def State.exactRead (s : State) (r : Reg) : Word := if r.gated && !s.table.valid then 0 else s.rawRead r

/-- The pending command is CLRW (R61). -/
def State.clearing (s : State) : Bool := decide (decode s.pending = some .clrw)

/-- The read of `r` is, wholly or in part, a free draw: BUSY = 1 and `r` is engine-owned or STATUS (R61). -/
def State.readIsFree (s : State) (r : Reg) : Bool := s.busy && (r.engineOwned s.clearing || decide (r = .status))

/-- The value HostRead returns (R61). -/
def State.readValue (s : State) (r : Reg) : Word :=
  if s.readIsFree r then (if r = .status then s.statusWordBusy else s.freeWord) else s.exactRead r

/-- IN_PTR <- (IN_PTR + 1) mod IN_DEPTH (R40). -/
def State.advanceIn (s : State) : State := { s with inPtr := (s.inPtr + 1) % s.cfg.inDepth }

/-- OUT_PTR <- (OUT_PTR + 1) mod OUT_DEPTH (R42). -/
def State.advanceOut (s : State) : State := { s with outPtr := (s.outPtr + 1) % s.cfg.outDepth }

/-- The side effect of a read: only the two data windows have one (R85), with BUSY = 1 as with BUSY = 0 (R40, R42). -/
def State.readEffect (s : State) (r : Reg) : State :=
  match r with
  | .inData => s.advanceIn
  | .outData => s.advanceOut
  | .id | .version | .ctrl | .cmd | .status | .irqStatus | .errCode | .errInfo | .len | .outLen | .sentinel | .encBits => s
  | .nsym | .root | .maxlen | .oneslen | .totalLo | .totalHi | .wplLo | .wplHi | .inPtr | .outPtr => s
  | .weight _ | .codelen _ | .codeword _ _ | .node _ _ | .reserved => s

/-- The host's record of a read (R130). -/
def State.record (a v : Word) (s : State) : State := { s with trace := { addr := a, value := v } :: s.trace }

/-- HostRead(a) (R81): the value goes to the trace, the side effect happens, a free draw is used up if one was made. -/
def hostRead (a : Word) (s : State) : State :=
  let value := s.readValue (regOf a)
  let s' := if s.readIsFree (regOf a) then s.drawn else s
  (s'.readEffect (regOf a)).record a value

/-- HostRead(a) while `rst` = 1: any value, no other effect (R300; log entry 10). -/
def hostReadInReset (a : Word) (s : State) : State := (s.drawn).record a s.freeWord

/-! ## Writes -/

/-- IN_BUF[IN_PTR] <- wdata[7:0], then the pointer moves (R40). -/
def State.writeInData (v : Word) (s : State) : State :=
  ({ s with inBuf := s.inBuf.write s.inPtr (v.setWidth 8) }).advanceIn

/-- OUT_BUF[OUT_PTR] <- wdata[7:0], then the pointer moves (R42). -/
def State.writeOutData (v : Word) (s : State) : State :=
  ({ s with outBuf := s.outBuf.write s.outPtr (v.setWidth 8) }).advanceOut

/-- HostWrite while BUSY = 0, register by register; a read-only register or field and a reserved offset ignore it (R48, R83). -/
def State.writeIdle (r : Reg) (v : Word) (s : State) : State :=
  match r with
  | .ctrl => { s with irqEn := v.getLsbD 0, rejectCollision := v.getLsbD 1 }
  | .cmd => s.accept v
  | .irqStatus => s.ackIrq v
  | .len => { s with len := v }
  | .sentinel => { s with pad := v.setWidth 3 }
  | .inPtr => { s with inPtr := v.toNat % s.cfg.inDepth }
  | .inData => s.writeInData v
  | .outPtr => { s with outPtr := v.toNat % s.cfg.outDepth }
  | .outData => s.writeOutData v
  | .weight c => { s with weight := setSymbol s.weight c v }
  | .id | .version | .status | .errCode | .errInfo | .outLen | .encBits => s
  | .nsym | .root | .maxlen | .oneslen | .totalLo | .totalHi | .wplLo | .wplHi => s
  | .codelen _ | .codeword _ _ | .node _ _ | .reserved => s

/-- HostWrite while BUSY = 1: a CMD write is dropped (R141), IRQ_STATUS is written (R26), every other write is ignored (R61). -/
def State.writeBusy (r : Reg) (v : Word) (s : State) : State :=
  match r with
  | .cmd => s.dropCommand
  | .irqStatus => s.ackIrq v
  | .id | .version | .ctrl | .status | .errCode | .errInfo | .len | .outLen | .sentinel | .encBits => s
  | .nsym | .root | .maxlen | .oneslen | .totalLo | .totalHi | .wplLo | .wplHi | .inPtr | .inData | .outPtr | .outData => s
  | .weight _ | .codelen _ | .codeword _ _ | .node _ _ | .reserved => s

/-- HostWrite(a, v) (R81). -/
def hostWrite (a v : Word) (s : State) : State :=
  if s.busy then s.writeBusy (regOf a) v else s.writeIdle (regOf a) v

end Sys2Proof.Machine
end

