-- ==== Sys2Proof/Machine/Heap.lean ====
section
/-! DEFINITION. The binary min-heap of 41_tree_builder.md R164 to R166, an array of node indices HEAP[0..HEAP_SIZE-1] held as
a list, and the plain priority queue R167 allows in its place. `lt x y` is the order x <_q y. Each loop has a fuel that
bounds its passes. -/

namespace Sys2Proof.Machine

/-- HEAP[i]. -/
def heapAt (h : List Nat) (i : Nat) : Nat := h.getD i 0

/-- swap HEAP[i], HEAP[j]. -/
def heapSwap (h : List Nat) (i j : Nat) : List Nat := (h.set i (heapAt h j)).set j (heapAt h i)

/-- The loop of push: while the entry goes before its parent, swap them (R164). -/
def siftUp (lt : Nat → Nat → Bool) : (fuel : Nat) → (h : List Nat) → (i : Nat) → List Nat
  | 0, h, _ => h
  | fuel + 1, h, i =>
    if i = 0 then h
    else if lt (heapAt h i) (heapAt h ((i - 1) / 2)) then
      siftUp lt fuel (heapSwap h i ((i - 1) / 2)) ((i - 1) / 2)
    else h

/-- push(x) (R164). Each pass lowers `i`, so HEAP_SIZE passes are enough. -/
def heapPush (lt : Nat → Nat → Bool) (h : List Nat) (x : Nat) : List Nat := siftUp lt h.length (h ++ [x]) h.length

/-- Of `m` and an entry `c`, the index to go on with: `c` if it is in the heap and goes before `m` (R165). -/
def lesserOf (lt : Nat → Nat → Bool) (h : List Nat) (m c : Nat) : Nat :=
  if c < h.length && lt (heapAt h c) (heapAt h m) then c else m

/-- The loop of pop: swap the entry with its lesser child until neither goes before it (R165). -/
def siftDown (lt : Nat → Nat → Bool) : (fuel : Nat) → (h : List Nat) → (i : Nat) → List Nat
  | 0, h, _ => h
  | fuel + 1, h, i =>
    let m := lesserOf lt h (lesserOf lt h i (2 * i + 1)) (2 * i + 2)
    if m = i then h else siftDown lt fuel (heapSwap h i m) m

/-- pop() (R165): the first entry, and the heap with the last entry moved to the front and sifted down. `none` on an empty
heap, which no command meets (R180). -/
def heapPop (lt : Nat → Nat → Bool) (h : List Nat) : Option (Nat × List Nat) :=
  match h with
  | [] => none
  | r :: _ =>
    match h.dropLast with
    | [] => some (r, [])
    | a :: rest =>
      let moved := h.getLastD 0 :: rest
      some (r, siftDown lt (a :: rest).length moved 0)

/-- Pushes in the order of the list (R166). -/
def heapFill (lt : Nat → Nat → Bool) (h : List Nat) : List Nat → List Nat
  | [] => h
  | x :: xs => heapFill lt (heapPush lt h x) xs

/-! ## The queue of R167: a finite set whose least element is removed -/

/-- The least element of `x :: xs`. -/
def leastOf (lt : Nat → Nat → Bool) (x : Nat) : List Nat → Nat
  | [] => x
  | y :: ys => leastOf lt (if lt y x then y else x) ys

/-- "remove the <_q-least element of a finite set" (R167). -/
def setPop (lt : Nat → Nat → Bool) : List Nat → Option (Nat × List Nat)
  | [] => none
  | x :: xs => some (leastOf lt x xs, (x :: xs).erase (leastOf lt x xs))

end Sys2Proof.Machine
end

