-- ==== Sys2Proof/Machine/Tree.lean ====
section
/-! DEFINITION. The Huffman tree and the code table derived from it (41_tree_builder.md R160 to R177, R179), over natural
numbers (00_scope.md R10); the values are cut to their register widths where the table is stored. -/

namespace Sys2Proof.Machine

/-- An internal node: LEFT[k], RIGHT[k], NW[k]. -/
structure TreeNode where
  left   : Nat
  right  : Nat
  weight : Nat
deriving DecidableEq, Repr

/-- The symbols of weight > 0 among `s`, `s + 1`, ..., whose weights the list gives, in ascending order. -/
def presentFrom (s : Nat) : List Nat → List Nat
  | [] => []
  | w :: ws => if 0 < w then s :: presentFrom (s + 1) ws else presentFrom (s + 1) ws

/-- S, the symbols of weight > 0 in ascending order (R161). -/
def alphabet (w : List Nat) : List Nat := presentFrom 0 w

/-- wt(x) (R162): w[x] for a leaf, NW[x - 256] for an internal node of the arena. -/
def nodeWeight (w : List Nat) (arena : List TreeNode) (x : Nat) : Nat :=
  if x < 256 then w.getD x 0 else ((arena[x - 256]?).map TreeNode.weight).getD 0

/-- x <_q y: the lesser weight, of equal weights the lesser node index (R163). -/
def before (w : List Nat) (arena : List TreeNode) (x y : Nat) : Bool :=
  decide (nodeWeight w arena x < nodeWeight w arena y) ||
    (decide (nodeWeight w arena x = nodeWeight w arena y) && decide (x < y))

/-- The heap after the initial fill (R166): leaves in ascending order, no merge. -/
def filledHeap (w : List Nat) : List Nat := heapFill (before w []) [] (alphabet w)

/-- The merge loop (R170): while the heap holds more than one node, pop a and b, create node K with them, push it. Every pass
shortens the heap by one, so HEAP_SIZE passes are enough. -/
def mergeLoop (w : List Nat) : (fuel : Nat) → (heap : List Nat) → (arena : List TreeNode) → List Nat × List TreeNode
  | 0, heap, arena => (heap, arena)
  | fuel + 1, heap, arena =>
    if heap.length ≤ 1 then (heap, arena)
    else
      match heapPop (before w arena) heap with
      | none => (heap, arena)
      | some (a, heap1) =>
        match heapPop (before w arena) heap1 with
        | none => (heap1, arena)
        | some (b, heap2) =>
          let arena' := arena ++ [{ left := a, right := b, weight := nodeWeight w arena a + nodeWeight w arena b }]
          mergeLoop w fuel (heapPush (before w arena') heap2 (256 + arena.length)) arena'

/-- A built tree: the root, the internal nodes in the order of their creation, the heap left over. -/
structure Tree where
  root  : Nat
  arena : List TreeNode
  heap  : List Nat
deriving DecidableEq, Repr

/-- The tree of a weight table (R160, R168 to R171): 0x1FF when nothing is in the alphabet, else the node the last pop
returns. -/
def buildTree (w : List Nat) : Tree :=
  let merged := mergeLoop w (filledHeap w).length (filledHeap w) []
  match heapPop (before w merged.2) merged.1 with
  | none => { root := 0x1FF, arena := merged.2, heap := merged.1 }
  | some (r, heap) => { root := r, arena := merged.2, heap := heap }

/-- One codeword: the symbol, its length and its value V. -/
structure CodeEntry where
  symbol : Nat
  len    : Nat
  val    : Nat
deriving DecidableEq, Repr

/-- codes(x, v, d) (R172): 0 on each left descent, 1 on each right descent. -/
def codes (arena : List TreeNode) : (fuel : Nat) → (x v d : Nat) → List CodeEntry
  | 0, _, _, _ => []
  | fuel + 1, x, v, d =>
    if x < 256 then [{ symbol := x, len := d, val := v }]
    else
      match arena[x - 256]? with
      | none => []
      | some nd => codes arena fuel nd.left (2 * v) (d + 1) ++ codes arena fuel nd.right (2 * v + 1) (d + 1)

/-- The codewords of the tree: none for n = 0 (R168), "0" for n = 1 (R169), else those of the walk from the root, which is at
most K internal nodes deep (R172). -/
def codeEntries (n : Nat) (t : Tree) : List CodeEntry :=
  if n = 0 then []
  else if n = 1 then [{ symbol := t.root, len := 1, val := 0 }]
  else codes t.arena (t.arena.length + 1) t.root 0 0

/-- len[s], 0 for a symbol that has no codeword (R173). -/
def codeLen (cs : List CodeEntry) (s : Nat) : Nat := ((cs.find? (fun c => c.symbol == s)).map CodeEntry.len).getD 0

/-- val[s], 0 for a symbol that has no codeword (R173). -/
def codeVal (cs : List CodeEntry) (s : Nat) : Nat := ((cs.find? (fun c => c.symbol == s)).map CodeEntry.val).getD 0

/-- The number of right steps from `x` to a leaf (R175). -/
def rightSteps (arena : List TreeNode) : (fuel : Nat) → (x : Nat) → Nat
  | 0, _ => 0
  | fuel + 1, x =>
    if x < 256 then 0
    else
      match arena[x - 256]? with
      | none => 0
      | some nd => rightSteps arena fuel nd.right + 1

/-- ONESLEN: 0 for n <= 1 (R175). -/
def onesLength (n : Nat) (t : Tree) : Nat := if n < 2 then 0 else rightSteps t.arena (t.arena.length + 1) t.root

/-- MAXLEN, the largest len[s] (R174). -/
def maxLength (cs : List CodeEntry) : Nat := ((List.range 256).map (codeLen cs)).foldl max 0

/-- TOTAL, the sum of all w[s] (R176). -/
def totalWeight (w : List Nat) : Nat := w.sum

/-- WPL, the sum of all w[s] x len[s] (R176). -/
def pathLength (w : List Nat) (cs : List CodeEntry) : Nat :=
  ((List.range 256).map (fun s => w.getD s 0 * codeLen cs s)).sum

/-- The code table of a weight table, the record R179 stores: TABLE_VALID = 1, LEFT, RIGHT, NW for k < K and 0 from K on. -/
def tableOf (w : List Nat) : CodeTable :=
  let n := (alphabet w).length
  let t := buildTree w
  let cs := codeEntries n t
  { valid    := true
    mcoll    := markerCollision n (onesLength n t)
    nsym     := BitVec.ofNat 9 n
    root     := BitVec.ofNat 9 t.root
    maxlen   := BitVec.ofNat 9 (maxLength cs)
    oneslen  := BitVec.ofNat 9 (onesLength n t)
    total    := BitVec.ofNat 40 (totalWeight w)
    wpl      := BitVec.ofNat 48 (pathLength w cs)
    codelen  := tabulate 256 (fun s => BitVec.ofNat 9 (codeLen cs s))
    codeword := tabulate 256 (fun s => BitVec.ofNat 256 (codeVal cs s))
    left     := tabulate 255 (fun k => BitVec.ofNat 9 ((t.arena[k]?).map TreeNode.left |>.getD 0))
    right    := tabulate 255 (fun k => BitVec.ofNat 9 ((t.arena[k]?).map TreeNode.right |>.getD 0))
    nw       := tabulate 255 (fun k => BitVec.ofNat 40 ((t.arena[k]?).map TreeNode.weight |>.getD 0)) }

/-! ## The same tree by the plain queue of R167 -/

/-- The merge loop over a set, its least element removed at each pop (R167, R170). -/
def setMergeLoop (w : List Nat) : (fuel : Nat) → (queue : List Nat) → (arena : List TreeNode) → List Nat × List TreeNode
  | 0, queue, arena => (queue, arena)
  | fuel + 1, queue, arena =>
    if queue.length ≤ 1 then (queue, arena)
    else
      match setPop (before w arena) queue with
      | none => (queue, arena)
      | some (a, queue1) =>
        match setPop (before w arena) queue1 with
        | none => (queue1, arena)
        | some (b, queue2) =>
          let arena' := arena ++ [{ left := a, right := b, weight := nodeWeight w arena a + nodeWeight w arena b }]
          setMergeLoop w fuel ((256 + arena.length) :: queue2) arena'

/-- The tree the plain queue gives (R167). -/
def setBuildTree (w : List Nat) : Tree :=
  let merged := setMergeLoop w (alphabet w).length (alphabet w) []
  match setPop (before w merged.2) merged.1 with
  | none => { root := 0x1FF, arena := merged.2, heap := merged.1 }
  | some (r, queue) => { root := r, arena := merged.2, heap := queue }

end Sys2Proof.Machine
end

