-- ==== Sys2Proof/Machine/Build.lean ====
section
/-! DEFINITION. BUILD (41_tree_builder.md R160). -/

namespace Sys2Proof.Machine

/-- The heap BUILD leaves, cut to its 9-bit entries (R57, R179). -/
def buildHeap (w : List Nat) : List NodeIx := (buildTree w).heap.map (BitVec.ofNat 9)

/-- A rejected BUILD (R178): MCOLL = 1, TABLE_VALID = 0, MARKER_COLLISION(ONESLEN). The record the table holds is not
written, and nothing can read it (log entry 13). -/
def State.rejectTable (t : CodeTable) (s : State) : State :=
  ({ s with table := { s.table with valid := false, mcoll := t.mcoll } }).raiseError .markerCollision
    (BitVec.setWidth 32 t.oneslen)

/-- A BUILD without error stores the whole record (R179). -/
def State.storeTable (t : CodeTable) (s : State) : State := ({ s with table := t }).complete

/-- BUILD (R160). -/
def execBuild (s : State) : Host.Outcome State Fault Refusal :=
  let t := tableOf s.weights
  let s' := { s with heap := buildHeap s.weights }
  .next (if t.mcoll && s.rejectCollision then s'.rejectTable t else s'.storeTable t)

end Sys2Proof.Machine
end

