-- ==== Sys2Proof/Machine/Command.lean ====
section
/-! DEFINITION. NOP and CLRW (40_commands.md R144, R145). -/

namespace Sys2Proof.Machine

/-- NOP completes with no other effect (R144). -/
def execNop (s : State) : Host.Outcome State Fault Refusal := .next s.complete

/-- CLRW: WEIGHT[s] <- 0 for every s, then completes; the code table is a snapshot and stays (R145). -/
def execClrw (s : State) : Host.Outcome State Fault Refusal :=
  .next ({ s with weight := Vector.replicate 256 0#32 }).complete

end Sys2Proof.Machine
end

