-- ==== Sys2Proof/Machine/DecodeStream.lean ====
section
/-! DEFINITION. DECODE, the tree walker (43_decoder.md R230). -/

namespace Sys2Proof.Machine

/-- What the payload walk answers: the symbols emitted and the node it stands at, or the error it raises. -/
inductive WalkResult where
  | done (symbols : List Byte) (node : NodeIx)
  | failed (code : ErrCode) (info : Nat)
deriving DecidableEq, Repr

/-- Puts a symbol emitted earlier before the walk's own. -/
def WalkResult.emit (sym : Byte) : WalkResult → WalkResult
  | .done symbols node => .done (sym :: symbols) node
  | .failed code info  => .failed code info

/-- The payload walk of a tree whose ROOT is an internal node (R236, R238): `j` is the index of the next bit, `m` the number of
symbols emitted, `node` where the walk stands. -/
def walkTree (t : CodeTable) (outDepth : Nat) : (bits : List Bool) → (j m : Nat) → (node : NodeIx) → WalkResult
  | [], _, _, node => .done [] node
  | b :: bits, j, m, node =>
    let next := t.childOf node b
    if isLeaf next then
      if m = outDepth then .failed .outputOverflow j
      else (walkTree t outDepth bits (j + 1) (m + 1) t.root).emit (leafSymbol next)
    else walkTree t outDepth bits (j + 1) m next

/-- The payload walk of a one-leaf tree, whose only codeword is "0" (R237, R238). -/
def walkLeaf (t : CodeTable) (outDepth : Nat) : (bits : List Bool) → (j m : Nat) → WalkResult
  | [], _, _ => .done [] t.root
  | b :: bits, j, m =>
    if b then .failed .unknownCodeword j
    else if m = outDepth then .failed .outputOverflow j
    else (walkLeaf t outDepth bits (j + 1) (m + 1)).emit (leafSymbol t.root)

/-- The walk over the payload, from ROOT and from OUT_BUF[0] (R230). -/
def walkPayload (t : CodeTable) (outDepth : Nat) (bits : List Bool) : WalkResult :=
  if isLeaf t.root then walkLeaf t outDepth bits 0 0 else walkTree t outDepth bits 0 0 t.root

/-- A success: the symbols from OUT_BUF[0] on, OUT_LEN <- M (R242). -/
def State.storeSymbols (symbols : List Byte) (s : State) : State :=
  ({ s with
      outBuf := s.outBuf.writeFrom 0 symbols
      outLen := BitVec.ofNat 32 symbols.length }).complete

/-- DECODE of a stream split into payload and terminator: the walk, then the end of the payload (R239), then the terminator
(R240), whose first bit has index `pb`. -/
def decodeSplit (bits terminator : List Bool) (s : State) : State :=
  match walkPayload s.table s.cfg.outDepth bits with
  | .failed code info => s.failDecode code (BitVec.ofNat 32 info)
  | .done symbols node =>
    if node ≠ s.table.root then s.failDecode .truncatedStream (BitVec.ofNat 32 bits.length)
    else
      match firstZero terminator with
      | some i => s.failDecode .unknownCodeword (BitVec.ofNat 32 (bits.length + i))
      | none   => s.storeSymbols symbols

/-- DECODE of a non-empty stream with a non-empty table: the last PAD + 8 bits are the terminator, the rest is the payload
(R234, R235). -/
def decodeStream (stream : List Bool) (s : State) : State :=
  if stream.length < s.sentinelLen then s.failDecode .truncatedStream (BitVec.ofNat 32 stream.length)
  else decodeSplit (stream.take (stream.length - s.sentinelLen)) (stream.drop (stream.length - s.sentinelLen)) s

/-- DECODE, its checks in the order of R230 and R272. -/
def execDecode (s : State) : Host.Outcome State Fault Refusal :=
  .next (
    if !s.table.valid then s.failDecode .noTable 0
    else if s.lengthBad then s.failDecode .badLength s.len
    else if s.len == 0#32 then s.storeSymbols []
    else if s.table.nsym == 0#9 then s.failDecode .unknownCodeword 0
    else decodeStream (streamBits s.inputBytes) s)

end Sys2Proof.Machine
end

