-- ==== Sys2Proof/Machine/Encode.lean ====
section
/-! DEFINITION. ENCODE (42_encoder.md R200). -/

namespace Sys2Proof.Machine

/-- The least index whose symbol has no codeword (R203). -/
def firstMissing (t : CodeTable) (symbols : List Byte) : Option Nat :=
  symbols.findIdx? (fun x => atSymbol t.codelen x == 0#9)

/-- P, the codewords in sequence order (R203). -/
def payload (t : CodeTable) (symbols : List Byte) : List Bool := symbols.flatMap t.codewordOf

/-- X = P || ones(p + 8) (R118, R204). -/
def streamOf (p : List Bool) : List Bool := p ++ ones (paddingOf p.length + 8)

/-- N = len(X) / 8 (R205). -/
def streamSize (p : List Bool) : Nat := (streamOf p).length / 8

/-- A success: the bytes from OUT_BUF[0] on, OUT_LEN <- N, ENC_BITS <- B, SENTINEL.PAD <- p (R207). -/
def State.storeStream (p : List Bool) (s : State) : State :=
  ({ s with
      outBuf  := s.outBuf.writeFrom 0 (packBytes (streamOf p))
      outLen  := BitVec.ofNat 32 (streamSize p)
      encBits := BitVec.ofNat 32 p.length
      pad     := BitVec.ofNat 3 (paddingOf p.length) }).complete

/-- The empty stream of the empty alphabet (R202). -/
def State.storeEmptyStream (s : State) : State := ({ s with outLen := 0, encBits := 0 }).complete

/-- ENCODE on symbols that are in IN_BUF (R203 to R206). -/
def encodeSymbols (symbols : List Byte) (s : State) : State :=
  match firstMissing s.table symbols with
  | some i => s.failEncode .symbolNotInTable (BitVec.ofNat 32 i)
  | none =>
    let p := payload s.table symbols
    if s.cfg.outDepth < streamSize p then s.failEncode .outputOverflow (BitVec.ofNat 32 (streamSize p))
    else s.storeStream p

/-- ENCODE, its checks in the order of R200 and R272. -/
def execEncode (s : State) : Host.Outcome State Fault Refusal :=
  .next (
    if !s.table.valid then s.failEncode .noTable 0
    else if s.lengthBad then s.failEncode .badLength s.len
    else if s.table.nsym == 0#9 && s.len == 0#32 then s.storeEmptyStream
    else encodeSymbols s.inputBytes s)

end Sys2Proof.Machine
end

