-- ==== Sys2Proof/Machine/Engine.lean ====
section
/-! DEFINITION. The engine step (40_commands.md R143, R149) and the events at the ports (00_scope.md R11, R12;
70_reset_and_hazards.md R300, R302). -/

namespace Sys2Proof.Machine

/-- A word that is no command completes with ILLEGAL_COMMAND and has no other effect (R146, R273). -/
def execIllegal (s : State) : Host.Outcome State Fault Refusal := .next (s.raiseError .illegalCommand s.pending)

/-- The engine step: it runs the pending command as a whole (R143). -/
def engineStep (s : State) : Host.Outcome State Fault Refusal :=
  match decode s.pending with
  | some i => exec i s
  | none   => execIllegal s

/-- The engine step is enabled exactly when BUSY = 1 (R149), and nothing runs while `rst` holds the block in reset (R300). -/
def State.engineEnabled (s : State) : Bool := s.busy && !s.rst

/-- The engine's turn: its step if enabled, else the block idles and keeps every register (R292; log entry 3). -/
def engineTurn (s : State) : Host.Outcome State Fault Refusal := if s.engineEnabled then engineStep s else .next s

/-- One event. While `rst` = 1 a read returns any value and a write has no effect (R300). -/
def takeEvent (e : BusEvent) (s : State) : Host.Outcome State Fault Refusal :=
  match e with
  | .read a => .next (if s.rst then hostReadInReset a s else hostRead a s)
  | .write a v => .next (if s.rst then s else hostWrite a v s)
  | .engine => engineTurn s
  | .rst true => .next s.enterReset
  | .rst false => .next { s with rst := false }

/-- The block's turn: the next event, or the engine when no event is to come, so that a pending command completes (R12). -/
def turn (s : State) : Host.Outcome State Fault Refusal :=
  match s.bus with
  | [] => engineTurn s
  | e :: rest => takeEvent e { s with bus := rest }

/-- The pending word in place, BUSY set and the engine's turn next (R140, R143; log entry 23). -/
def State.withPending (v : Word) (s : State) : State := { s.accept v with rst := false, bus := .engine :: s.bus }

end Sys2Proof.Machine
end

