-- ==== Sys2Proof/Machine/Step.lean ====
section
/-! DEFINITION. One step of the block, and the place where it finds its next command. -/

namespace Sys2Proof.Machine

/-- One step: one host transaction, one engine step, or one edge with `rst` (00_scope.md R11, R12). -/
def step (s : State) : Host.Outcome State Fault Refusal := turn s

/-- The command word where the engine finds it: PENDING, with BUSY set and the engine's turn next (log entry 23). -/
def State.withFetchWord (s : State) (nbits w : Nat) : State := s.withPending (BitVec.ofNat 32 (w % 2 ^ nbits))

end Sys2Proof.Machine
end

