-- ==== Sys2Proof/Machine/Program.lean ====
section
/-! DEFINITION. The host program notation of 30_encoding.md R130 to R133: its statements, the bus events each expands to, and
the check of a program's trace. It is the spec's notation for hosts, not part of the block. -/

namespace Sys2Proof.Machine

/-- A statement. A `name` is a number that stands for the program's name of a value. -/
inductive Stmt where
  /-- `WR reg, v`. -/
  | wr (r : Reg) (v : Word)
  /-- `RD reg`, and `RD reg -> name`. -/
  | rd (r : Reg) (name : Option Nat)
  /-- `EXPECT reg == v`: a read and its check. -/
  | expect (r : Reg) (v : Word)
  /-- `EXPECT name == v`: a check of a value read before, no transaction. -/
  | expectName (name : Nat) (v : Word)
  /-- `CMD mnemonic`. -/
  | cmd (i : Instr)
  /-- `WAIT` (R131), its STATUS reads with BUSY set made `busyReads` times: the rules fix no number (log entry 24). -/
  | wait (busyReads : Nat)
  /-- `LOADIN b_0, ..., b_{m-1}` (R132). -/
  | loadin (bytes : List Byte)
  /-- `READOUT m` (R132). -/
  | readout (m : Nat)
  /-- `RUN mnemonic` (R133). -/
  | run (i : Instr) (busyReads : Nat)
deriving DecidableEq, Repr

/-- The address a register name stands for; a reserved register is addressed at 0x060. -/
def Reg.address (r : Reg) : Word := r.offset.getD 0x060#32

/-- `WAIT`: reads of STATUS until BUSY reads 0 (R131). DESIGN CHOICE (log entry 24): the engine step stands just before the last
of these reads. R12 allows it anywhere while BUSY = 1, before other statements that follow the CMD write too. -/
def waitEvents (busyReads : Nat) : List BusEvent :=
  List.replicate busyReads (.read Reg.status.address) ++ [.engine, .read Reg.status.address]

/-- The bus events of a statement (R130 to R133). -/
def Stmt.events : Stmt → List BusEvent
  | .wr r v          => [.write r.address v]
  | .rd r _          => [.read r.address]
  | .expect r _      => [.read r.address]
  | .expectName _ _  => []
  | .cmd i           => [.write Reg.cmd.address (encode i)]
  | .wait k          => waitEvents k
  | .loadin bytes    =>
    .write Reg.inPtr.address 0 :: bytes.map (fun b => .write Reg.inData.address (b.setWidth 32))
  | .readout m       => .write Reg.outPtr.address 0 :: List.replicate m (.read Reg.outData.address)
  | .run i k         =>
    [.write Reg.irqStatus.address 0x7, .write Reg.cmd.address (encode i)] ++ waitEvents k

/-- The bus events of a program, in one of its runs: that with every engine step inside its WAIT (DESIGN CHOICE, log entry 24).
A program's other runs (R12) are the event lists with the same transactions and engine slots elsewhere. -/
def programEvents (p : List Stmt) : List BusEvent := p.flatMap Stmt.events

/-- The values a `WAIT` reads: BUSY set `busyReads` times, then clear (R131). -/
def waitReads (busyReads : Nat) (vs : List Word) : Bool :=
  decide (vs.length = busyReads + 1) && (vs.take busyReads).all (fun v => v.getLsbD 0) &&
    (vs.drop busyReads).all (fun v => !v.getLsbD 0)

/-- The checks of a program on the values it read, oldest first; `names` are the bindings made so far. -/
def checkReads (names : List (Nat × Word)) : List Stmt → List Word → Bool
  | [], vs => vs.isEmpty
  | .wr _ _ :: p, vs => checkReads names p vs
  | .cmd _ :: p, vs => checkReads names p vs
  | .loadin _ :: p, vs => checkReads names p vs
  | .rd _ _ :: _, [] => false
  | .rd _ none :: p, _ :: vs => checkReads names p vs
  | .rd _ (some n) :: p, v :: vs => checkReads ((n, v) :: names) p vs
  | .expect _ _ :: _, [] => false
  | .expect _ want :: p, v :: vs => decide (v = want) && checkReads names p vs
  | .expectName n want :: p, vs => decide (names.lookup n = some want) && checkReads names p vs
  | .readout m :: p, vs => decide (m ≤ vs.length) && checkReads names p (vs.drop m)
  | .wait k :: p, vs => waitReads k (vs.take (k + 1)) && checkReads names p (vs.drop (k + 1))
  | .run _ k :: p, vs => waitReads k (vs.take (k + 1)) && checkReads names p (vs.drop (k + 1))

/-- A program's trace meets its checks. -/
def State.meetsProgram (p : List Stmt) (s : State) : Bool := checkReads [] p (s.trace.reverse.map ReadRecord.value)

end Sys2Proof.Machine
end

