-- ==== Sys2Proof/Safety.lean ====
section
/-! DEFINITION. What counts as a safe run, and the words the claims use: the invariant of the state, a built table, what a
command leaves alone, how a command ends. -/

namespace Sys2Proof.Machine

/-- A code table some BUILD stores: that of a weight table (41_tree_builder.md R179). -/
def CodeTable.Built (t : CodeTable) : Prop := ∃ v : Vector Word 256, t = tableOf (weightsOf v)

/-- Symbol `c` has a codeword (R173). -/
def CodeTable.Has (t : CodeTable) (c : Byte) : Prop := atSymbol t.codelen c ≠ 0#9

/-- The invariant every step keeps. -/
structure State.Inv (s : State) : Prop where
  /-- The depths are legal (00_scope.md R5). -/
  depths    : s.cfg.wf = true
  /-- The pointers lie in their buffers (10_state.md R39, R41). -/
  inPtr     : s.inPtr < s.cfg.inDepth
  outPtr    : s.outPtr < s.cfg.outDepth
  /-- The buffers keep their canonical form. -/
  inBuf     : s.inBuf.wf s.cfg.inDepth = true
  outBuf    : s.outBuf.wf s.cfg.outDepth = true
  /-- The unwritten bytes of the two buffers are free draws already made, and not the same one. -/
  draws     : s.inBuf.gen < s.draws ∧ s.outBuf.gen < s.draws ∧ s.inBuf.gen ≠ s.outBuf.gen
  /-- OUT_LEN is never above OUT_DEPTH (R30). -/
  outLen    : s.outLen.toNat ≤ s.cfg.outDepth
  /-- ENC_BITS is at most 255 x IN_DEPTH (R32). -/
  encBits   : s.encBits.toNat ≤ 255 * s.cfg.inDepth
  /-- ERR_INFO is 0 when ERR_CODE is 0 (R28). -/
  errInfo   : s.errCode = .none → s.errInfo = 0
  /-- The heap is empty between commands (R57). -/
  heap      : s.heap = []
  /-- A valid table is one that BUILD stores (R52). -/
  table     : s.table.valid = true → s.table.Built
  /-- Nothing is pending while the block is held in reset (70_reset_and_hazards.md R300, R302). -/
  reset     : s.rst = true → s.busy = false

/-- What no command writes (92_eei_decisions.md D36; 30_encoding.md R114), and the model's own event list and trace. -/
structure CommandFrame (s t : State) : Prop where
  cfg             : t.cfg = s.cfg
  rst             : t.rst = s.rst
  irqEn           : t.irqEn = s.irqEn
  rejectCollision : t.rejectCollision = s.rejectCollision
  pending         : t.pending = s.pending
  irqDropped      : t.irqDropped = s.irqDropped
  len             : t.len = s.len
  inPtr           : t.inPtr = s.inPtr
  outPtr          : t.outPtr = s.outPtr
  inBuf           : t.inBuf = s.inBuf
  bus             : t.bus = s.bus
  trace           : t.trace = s.trace

/-- The completion writes of 40_commands.md R142 and 60_exceptions.md R271; IRQ_STATUS.ERROR is sticky (R26). -/
structure Completed (s t : State) (code : ErrCode) (info : Word) : Prop where
  errCode  : t.errCode = code
  errInfo  : t.errInfo = info
  busy     : t.busy = false
  irqDone  : t.irqDone = true
  irqError : t.irqError = (s.irqError || decide (code ≠ .none))

/-- What ENCODE never writes (42_encoder.md R200). -/
structure EncodeFrame (s t : State) : Prop extends CommandFrame s t where
  table  : t.table = s.table
  weight : t.weight = s.weight
  heap   : t.heap = s.heap

/-- What DECODE never writes (43_decoder.md R230). -/
structure DecodeFrame (s t : State) : Prop extends EncodeFrame s t where
  encBits : t.encBits = s.encBits
  pad     : t.pad = s.pad

/-- What BUILD never writes (41_tree_builder.md R160). -/
structure BuildFrame (s t : State) : Prop extends CommandFrame s t where
  weight  : t.weight = s.weight
  outLen  : t.outLen = s.outLen
  encBits : t.encBits = s.encBits
  pad     : t.pad = s.pad
  outBuf  : t.outBuf = s.outBuf

/-- A failed ENCODE (42_encoder.md R208). Nothing is said of OUT_BUF. -/
structure EncodeFailed (s t : State) (code : ErrCode) (info : Word) : Prop extends
    Completed s t code info, EncodeFrame s t where
  outLen  : t.outLen = 0
  encBits : t.encBits = 0
  pad     : t.pad = s.pad

/-- A failed DECODE (43_decoder.md R243). Nothing is said of OUT_BUF. -/
structure DecodeFailed (s t : State) (code : ErrCode) (info : Word) : Prop extends
    Completed s t code info, DecodeFrame s t where
  outLen : t.outLen = 0

/-- All that any command reads or writes, and CTRL, less what a host transaction may change while BUSY = 1: IRQ_STATUS, the
pointers, the event list, the trace and the draw counter (40_commands.md R148). -/
structure SameForEngine (s u : State) : Prop where
  cfg             : u.cfg = s.cfg
  rst             : u.rst = s.rst
  irqEn           : u.irqEn = s.irqEn
  rejectCollision : u.rejectCollision = s.rejectCollision
  busy            : u.busy = s.busy
  pending         : u.pending = s.pending
  errCode         : u.errCode = s.errCode
  errInfo         : u.errInfo = s.errInfo
  len             : u.len = s.len
  outLen          : u.outLen = s.outLen
  encBits         : u.encBits = s.encBits
  pad             : u.pad = s.pad
  inBuf           : u.inBuf = s.inBuf
  outBuf          : u.outBuf = s.outBuf
  weight          : u.weight = s.weight
  table           : u.table = s.table
  heap            : u.heap = s.heap

/-- The operands ENCODE and DECODE share: LEN, IN_BUF[0 .. LEN-1], the code table and the depths (30_encoding.md R114;
42_encoder.md R209 item 5). -/
structure SameStreamOperands (s u : State) : Prop where
  cfg   : u.cfg = s.cfg
  len   : u.len = s.len
  table : u.table = s.table
  bytes : ∀ i, i < s.len.toNat → u.inBuf.read i = s.inBuf.read i

/-- A host transaction: a read or a write (20_memory.md R81). -/
def BusEvent.isHost : BusEvent → Bool
  | .read _ | .write _ _ => true
  | .engine | .rst _ => false

/-- The value of a register after reset (70_reset_and_hazards.md R301), but for the two data windows. -/
def resetValue : Reg → Word
  | .id => 0x48554646#32
  | .version => 0x00010000#32
  | .sentinel => 0x00000080#32
  | _ => 0

/-- The symbols of a weight table's alphabet, counted (41_tree_builder.md R161). -/
def symbolCount (v : Vector Word 256) : Nat := (v.toList.filter (fun w => decide (w ≠ 0))).length

/-- A node that may be merged when K = k: a leaf of the alphabet or an internal node created already, not yet a child
(41_tree_builder.md R170). -/
def Mergeable (w : List Nat) (arena : List TreeNode) (k x : Nat) : Prop :=
  ((x < 256 ∧ 0 < w.getD x 0) ∨ (256 ≤ x ∧ x < 256 + k)) ∧
    ∀ j nd, j < k → arena[j]? = some nd → nd.left ≠ x ∧ nd.right ≠ x

/-- Every node that is some node's child, in the order LEFT[0], RIGHT[0], LEFT[1], ... -/
def childList (arena : List TreeNode) : List Nat := arena.flatMap (fun nd => [nd.left, nd.right])

/-- 2^255 times the Kraft sum of a table: the sum over its symbols of 2^(255 - CODELEN[s]) (41_tree_builder.md R180). -/
def CodeTable.kraft255 (t : CodeTable) : Nat :=
  ((t.codelen.toList.filter (fun l => decide (l ≠ 0#9))).map (fun l => 2 ^ (255 - l.toNat))).sum

end Sys2Proof.Machine
end

