-- ==== Sys2Proof/Certificates/Slice0/Obligations.lean ====
section
/-! DEFINITION. The statements for the provers. Each docstring names the rule of spec/ it formalises. -/

open Sys2Proof Sys2Proof.Machine

/-! ## Encodings (30_encoding.md) -/

/-- R111, R113: the five legal command words, written out, are exactly the words that decode, and each selects its command. -/
def Obligations.DecodeAcceptsExactlyTheFiveWords : Prop :=
  (encode .nop = 0x00000000#32 ∧ encode .clrw = 0x00000001#32 ∧ encode .build = 0x00000002#32 ∧
    encode .encode = 0x00000003#32 ∧ encode .decode = 0x00000004#32) ∧
  ∀ (w : Word) (i : Instr), decode w = some i ↔ w = encode i

/-- R116, R117: reading a packed bit string gives it back, packing a read stream gives its bytes back, and bit(j) of a stream
is bit 7 - (j mod 8) of byte j div 8. -/
def Obligations.PackingAndReadingAreInverse : Prop :=
  (∀ bits : List Bool, 8 ∣ bits.length → streamBits (packBytes bits) = bits) ∧
  (∀ bytes : List Byte, packBytes (streamBits bytes) = bytes) ∧
  (∀ (bytes : List Byte) (j : Nat),
    (streamBits bytes)[j]? = (bytes[j / 8]?).map (fun b => b.getLsbD (7 - j % 8)))

/-! ## Command sequencing (00_scope.md, 40_commands.md) -/

/-- What a step is, case by case. R143, R149: with BUSY = 1, `rst` low and the engine's turn, it is exec of the command the
pending word decodes to. R81, R84: with `rst` low and a host transaction next, it is that transaction alone. R149, R292: the
engine's turn with BUSY = 0 or `rst` = 1 changes no register. R300, R302: an edge with `rst` = 1 enters reset, one with
`rst` = 0 only ends it. The model's choice: the event list that says whose turn it is, taken off event by event (log entry 1),
the engine's turn on an empty list (log entry 2), the idle turn as a step (log entry 3) and `rst` as a level set by edges (log
entry 10). -/
def Obligations.StepRunsTheDecodedCommand : Prop :=
  ∀ s : State,
    (∀ i : Instr, s.busy = true → s.rst = false → decode s.pending = some i →
      (s.bus = [] → step s = exec i s) ∧
      (∀ rest, s.bus = .engine :: rest → step s = exec i { s with bus := rest })) ∧
    (∀ (rest : List BusEvent) (a v : Word), s.rst = false →
      (s.bus = .read a :: rest → step s = .next (hostRead a { s with bus := rest })) ∧
      (s.bus = .write a v :: rest → step s = .next (hostWrite a v { s with bus := rest }))) ∧
    ((s.busy = false ∨ s.rst = true) →
      (s.bus = [] → step s = .next s) ∧
      (∀ rest, s.bus = .engine :: rest → step s = .next { s with bus := rest })) ∧
    (∀ rest, s.bus = .rst true :: rest → step s = .next (State.enterReset { s with bus := rest })) ∧
    (∀ rest, s.bus = .rst false :: rest → step s = .next { s with bus := rest, rst := false })

/-- The model's convention of log entry 23: a word placed for fetching is the one the next step runs. -/
def Obligations.FetchedWordRunsNext : Prop :=
  ∀ (s : State) (i : Instr),
    step (s.withFetchWord 32 (encode i).toNat) = exec i { s with pending := encode i, busy := true, rst := false }

/-- R146, R273: a word with RSVD non-zero or OPCODE from 0x05 on completes with ILLEGAL_COMMAND and ERR_INFO = the word, and
nothing else changes. That the engine's turn is an engine slot of the event list, or an empty list, is the model's choice (log
entries 1, 2). -/
def Obligations.IllegalWordCompletesWithIllegalCommand : Prop :=
  ∀ s : State, s.busy = true → s.rst = false →
    (s.pending.extractLsb' 8 24 ≠ 0#24 ∨ 5 ≤ (s.pending.extractLsb' 0 8).toNat) →
    (s.bus = [] → step s = .next { s with
      errCode := .illegalCommand, errInfo := s.pending, irqDone := true, irqError := true, busy := false }) ∧
    (∀ rest, s.bus = .engine :: rest → step s = .next { s with
      bus := rest
      errCode := .illegalCommand, errInfo := s.pending, irqDone := true, irqError := true, busy := false })

/-- R83, R149: every step answers a next state. -/
def Obligations.EveryStepAnswersANextState : Prop := ∀ s : State, ∃ t, step s = .next t

/-- R12, R149: any number of host transactions may come between acceptance and the engine step, which then completes the
command. R12 promises no time bound: that the engine steps at once when the listed events are used up is the model's choice
(log entry 2), as the event list is (log entry 1). -/
def Obligations.PendingCommandCompletesAfterHostTransactions : Prop :=
  ∀ (s : State) (events : List BusEvent), s.busy = true → s.rst = false → (∀ e ∈ events, e.isHost = true) →
    ∃ t, Host.Core.run Sys2Proof.core (events.length + 1) { s with bus := events } = .next t ∧
      t.busy = false ∧ t.irqDone = true ∧ t.bus = []

/-- R148: while BUSY = 1 no host transaction changes anything a command reads or writes. -/
def Obligations.HostTransactionsKeepWhatACommandReads : Prop :=
  ∀ (s : State) (a v : Word), s.busy = true →
    SameForEngine s (hostWrite a v s) ∧ SameForEngine s (hostRead a s)

/-- R148: the results depend on nothing that a host can change while BUSY = 1 (the first clause: two states that agree on the
rest get the same results), and a command's own results are a function of its own operands, those R114 lists (the other
clauses: two states that agree on these alone, whatever else they hold). OUT_BUF is compared only after a completion without
error (R208, R243 leave it open otherwise), the whole table only after a BUILD without error. -/
def Obligations.CommandResultIsAFunctionOfItsInputs : Prop :=
  (∀ s u t v : State, SameForEngine s u → engineStep s = .next t → engineStep u = .next v →
    v.errCode = t.errCode ∧ v.errInfo = t.errInfo ∧ v.outLen = t.outLen ∧ v.encBits = t.encBits ∧ v.pad = t.pad ∧
    v.table = t.table ∧ v.weight = t.weight ∧ v.heap = t.heap ∧ (t.errCode = .none → v.outBuf = t.outBuf)) ∧
  (∀ s u t v : State, u.weight = s.weight → u.rejectCollision = s.rejectCollision →
    exec .build s = .next t → exec .build u = .next v →
    v.errCode = t.errCode ∧ v.errInfo = t.errInfo ∧ v.table.valid = t.table.valid ∧ v.table.mcoll = t.table.mcoll ∧
    v.heap = t.heap ∧ (t.errCode = .none → v.table = t.table)) ∧
  (∀ s u t v : State, SameStreamOperands s u → exec .encode s = .next t → exec .encode u = .next v →
    v.errCode = t.errCode ∧ v.errInfo = t.errInfo ∧ v.outLen = t.outLen ∧ v.encBits = t.encBits ∧
    (t.errCode = .none → (s.table.nsym ≠ 0#9 → v.pad = t.pad) ∧
      ∀ i, i < t.outLen.toNat → v.outBuf.read i = t.outBuf.read i)) ∧
  (∀ s u t v : State, SameStreamOperands s u → u.pad = s.pad → exec .decode s = .next t → exec .decode u = .next v →
    v.errCode = t.errCode ∧ v.errInfo = t.errInfo ∧ v.outLen = t.outLen ∧
    (t.errCode = .none → ∀ i, i < t.outLen.toNat → v.outBuf.read i = t.outBuf.read i))

/-- R144: NOP completes and changes no other state. -/
def Obligations.NopOnlyCompletes : Prop :=
  ∀ s : State, exec .nop s = .next { s with errCode := .none, errInfo := 0, irqDone := true, busy := false }

/-- R145: CLRW sets every WEIGHT[s] to 0 and completes; the code table and every other state is unchanged. -/
def Obligations.ClrwClearsEveryWeight : Prop :=
  ∀ s : State, ∃ t, exec .clrw s = .next t ∧ (∀ c : Byte, atSymbol t.weight c = 0) ∧
    t = { s with weight := t.weight, errCode := .none, errInfo := 0, irqDone := true, busy := false }

/-! ## BUILD (41_tree_builder.md) -/

/-- R160, R178, R179: where the table has no marker collision, or REJECT_COLLISION = 0, BUILD stores the table of the weights
with TABLE_VALID = 1, leaves the heap empty, completes without error and changes nothing else. -/
def Obligations.BuildStoresTheTable : Prop :=
  ∀ s : State, ((tableOf s.weights).mcoll = false ∨ s.rejectCollision = false) →
    ∃ t, exec .build s = .next t ∧ t.table = tableOf s.weights ∧ t.table.valid = true ∧ t.heap = [] ∧
      Completed s t .none 0 ∧ BuildFrame s t

/-- R178: with MCOLL = 1 and REJECT_COLLISION = 1, BUILD completes with MARKER_COLLISION, ERR_INFO = ONESLEN, TABLE_VALID = 0
and MCOLL = 1, every gated register then reads 0, and nothing else changes; with REJECT_COLLISION = 0 the table is accepted
with MCOLL = 1. -/
def Obligations.BuildRejectsACollision : Prop :=
  ∀ s : State, (tableOf s.weights).mcoll = true →
    (s.rejectCollision = true →
      ∃ t, exec .build s = .next t ∧ Completed s t .markerCollision ((tableOf s.weights).oneslen.setWidth 32) ∧
        t.table.valid = false ∧ t.table.mcoll = true ∧ (∀ r : Reg, r.gated = true → t.exactRead r = 0) ∧ BuildFrame s t) ∧
    (s.rejectCollision = false →
      ∃ t, exec .build s = .next t ∧ Completed s t .none 0 ∧ t.table = tableOf s.weights ∧
        t.table.valid = true ∧ t.table.mcoll = true)

/-- R161, R174: NSYM is the number of symbols with a non-zero weight; a symbol has a codeword exactly when its weight is not 0;
TOTAL is the sum of all weights (R176). -/
def Obligations.BuildCountsTheAlphabet : Prop :=
  ∀ v : Vector Word 256,
    (tableOf (weightsOf v)).nsym.toNat = symbolCount v ∧
    (∀ c : Byte, (tableOf (weightsOf v)).Has c ↔ atSymbol v c ≠ 0) ∧
    (tableOf (weightsOf v)).total.toNat = (weightsOf v).sum

/-- R168: with every WEIGHT 0, BUILD completes without error and leaves the valid empty table. -/
def Obligations.BuildOfTheEmptyAlphabet : Prop :=
  ∀ s : State, (∀ c : Byte, atSymbol s.weight c = 0) →
    ∃ t, exec .build s = .next t ∧ Completed s t .none 0 ∧ t.table.valid = true ∧ t.table.empty = true ∧
      t.table.root = 0x1FF#9 ∧ t.table.mcoll = false ∧
      (∀ c : Byte, atSymbol t.table.codelen c = 0#9) ∧ (∀ k : Fin 255, t.table.left[k] = 0#9 ∧ t.table.right[k] = 0#9)

/-- R169: with one symbol of non-zero weight, it is the root, its codeword is "0" and no internal node is created. -/
def Obligations.BuildOfOneSymbol : Prop :=
  ∀ (s : State) (c : Byte), atSymbol s.weight c ≠ 0 → (∀ d : Byte, d ≠ c → atSymbol s.weight d = 0) →
    ∃ t, exec .build s = .next t ∧ Completed s t .none 0 ∧ t.table.valid = true ∧ t.table.nsym = 1#9 ∧
      t.table.root = BitVec.setWidth 9 c ∧ t.table.mcoll = false ∧ t.table.codewordOf c = [false] ∧
      atSymbol t.table.codelen c = 1#9 ∧ atSymbol t.table.codeword c = 0#256 ∧
      (∀ d : Byte, d ≠ c → atSymbol t.table.codelen d = 0#9) ∧
      (∀ k : Fin 255, t.table.left[k] = 0#9 ∧ t.table.right[k] = 0#9)

/-- R170, R171, R180: for n >= 2 the tree has n - 1 internal nodes, its root is the last one created, every child was made
before its parent, and every node but the root is a child exactly once, as nothing else is. -/
def Obligations.BuiltTreeIsFull : Prop :=
  ∀ v : Vector Word 256, 2 ≤ symbolCount v →
    (buildTree (weightsOf v)).arena.length = symbolCount v - 1 ∧
    (buildTree (weightsOf v)).root = 256 + (symbolCount v - 2) ∧
    (∀ (k : Nat) (nd : TreeNode), (buildTree (weightsOf v)).arena[k]? = some nd →
      nd.left < 256 + k ∧ nd.right < 256 + k) ∧
    (∀ x : Nat, (childList (buildTree (weightsOf v)).arena).count x =
      if (x < 256 ∧ 0 < (weightsOf v).getD x 0) ∨ (256 ≤ x ∧ x < 256 + (symbolCount v - 2)) then 1 else 0)

/-- R163, R170: each merge takes the least mergeable node as left child and the next least as right child, in the order of
weight and then node index, and the new node weighs their sum. -/
def Obligations.EachMergeTakesTheTwoLeastNodes : Prop :=
  ∀ (v : Vector Word 256) (k : Nat) (nd : TreeNode),
    let w := weightsOf v
    let arena := (buildTree w).arena
    arena[k]? = some nd →
      Mergeable w arena k nd.left ∧ Mergeable w arena k nd.right ∧ nd.left ≠ nd.right ∧
      (∀ x, Mergeable w arena k x → x ≠ nd.left → before w arena nd.left x = true) ∧
      (∀ x, Mergeable w arena k x → x ≠ nd.left → x ≠ nd.right → before w arena nd.right x = true) ∧
      nd.weight = nodeWeight w arena nd.left + nodeWeight w arena nd.right

/-- R167: the binary heap and a queue that removes its least element give the same tree. -/
def Obligations.HeapBuildsTheTreeOfTheLeastElementQueue : Prop :=
  ∀ v : Vector Word 256, buildTree (weightsOf v) = setBuildTree (weightsOf v)

/-- R163, R179: no weight or index is cut where the table is stored: NODE[k] holds the k-th internal node created, and 0 from
K on. -/
def Obligations.StoredTreeIsTheBuiltTree : Prop :=
  ∀ (v : Vector Word 256) (k : Fin 255),
    let t := tableOf (weightsOf v)
    let nd := (buildTree (weightsOf v)).arena[k.val]?
    t.left[k].toNat = (nd.map TreeNode.left).getD 0 ∧ t.right[k].toNat = (nd.map TreeNode.right).getD 0 ∧
    t.nw[k].toNat = (nd.map TreeNode.weight).getD 0 ∧ t.root.toNat = (buildTree (weightsOf v)).root

/-- R180 item 3: the left child weighs at most what the right child does, and node weights rise with the order of creation. -/
def Obligations.MergeWeightsAscend : Prop :=
  ∀ v : Vector Word 256,
    let w := weightsOf v
    let arena := (buildTree w).arena
    (∀ (k : Nat) (nd : TreeNode), arena[k]? = some nd → nodeWeight w arena nd.left ≤ nodeWeight w arena nd.right) ∧
    (∀ (j k : Nat) (a b : TreeNode), j ≤ k → arena[j]? = some a → arena[k]? = some b → a.weight ≤ b.weight)

/-- R180 item 4: no codeword is a prefix of another. -/
def Obligations.CodewordsArePrefixFree : Prop :=
  ∀ (t : CodeTable) (a b : Byte), t.Built → a ≠ b → t.Has a → t.Has b → ¬ t.codewordOf a <+: t.codewordOf b

/-- R180 item 5: the Kraft sum is 1 for n >= 2 and 1/2 for n = 1 (both sides times 2^255). -/
def Obligations.KraftSumOfABuiltTable : Prop :=
  ∀ t : CodeTable, t.Built →
    (2 ≤ t.nsym.toNat → t.kraft255 = 2 ^ 255) ∧ (t.nsym.toNat = 1 → t.kraft255 = 2 ^ 254)

/-- R173, R174, R180 item 7: a symbol with no codeword has CODELEN 0 and CODEWORD 0; for n >= 2 a length is at most n - 1 and
the value fits it; MAXLEN is the largest CODELEN. -/
def Obligations.CodeLengthsOfABuiltTable : Prop :=
  ∀ t : CodeTable, t.Built →
    (∀ c : Byte, ¬ t.Has c → atSymbol t.codeword c = 0#256) ∧
    (2 ≤ t.nsym.toNat → ∀ c : Byte, t.Has c →
      (atSymbol t.codelen c).toNat ≤ t.nsym.toNat - 1 ∧ (atSymbol t.codeword c).toNat < 2 ^ (atSymbol t.codelen c).toNat) ∧
    (∀ c : Byte, (atSymbol t.codelen c).toNat ≤ t.maxlen.toNat) ∧
    (t.nsym.toNat ≠ 0 → ∃ c : Byte, t.Has c ∧ atSymbol t.codelen c = t.maxlen) ∧
    (t.nsym.toNat = 0 → t.maxlen = 0#9)

/-- R176, R180 item 6: WPL is the sum over the symbols of weight times length, and equals the sum of the internal nodes'
weights for n >= 2, TOTAL for n = 1, and 0 for n = 0. -/
def Obligations.PathLengthIsTheSumOfNodeWeights : Prop :=
  ∀ v : Vector Word 256,
    let t := tableOf (weightsOf v)
    t.wpl.toNat = ((List.range 256).map (fun s =>
      (weightsOf v).getD s 0 * (atSymbol t.codelen (BitVec.ofNat 8 s)).toNat)).sum ∧
    (2 ≤ symbolCount v → t.wpl.toNat = ((buildTree (weightsOf v)).arena.map TreeNode.weight).sum) ∧
    (symbolCount v = 1 → t.wpl.toNat = t.total.toNat) ∧ (symbolCount v = 0 → t.wpl.toNat = 0)

/-- R180 item 8: for n >= 2, WPL is the least weighted path length of any prefix code for these weights. -/
def Obligations.HuffmanCodeIsOptimal : Prop :=
  ∀ (v : Vector Word 256) (code : Byte → List Bool), 2 ≤ symbolCount v →
    (∀ a b : Byte, a ≠ b → atSymbol v a ≠ 0 → atSymbol v b ≠ 0 → ¬ code a <+: code b) →
    (tableOf (weightsOf v)).wpl.toNat ≤
      ((List.range 256).map (fun s => (weightsOf v).getD s 0 * (code (BitVec.ofNat 8 s)).length)).sum

/-- R175, R177: for n >= 2 exactly one symbol has an all-ones codeword and ONESLEN is its length; MCOLL is 1 exactly when
n >= 2 and ONESLEN is from 8 to 15, which is exactly when some sentinel ones(s), s from 8 to 15, is a codeword. -/
def Obligations.MarkerCollisionIsExact : Prop :=
  ∀ t : CodeTable, t.Built →
    (2 ≤ t.nsym.toNat → ∃ c : Byte, t.Has c ∧ t.codewordOf c = ones t.oneslen.toNat ∧
      ∀ d : Byte, t.Has d → (∃ n, t.codewordOf d = ones n) → d = c) ∧
    (t.nsym.toNat ≤ 1 → t.oneslen = 0#9) ∧
    (t.mcoll = true ↔ 2 ≤ t.nsym.toNat ∧ 8 ≤ t.oneslen.toNat ∧ t.oneslen.toNat ≤ 15) ∧
    (t.mcoll = true ↔ ∃ (c : Byte) (n : Nat), t.Has c ∧ 8 ≤ n ∧ n ≤ 15 ∧ t.codewordOf c = ones n)

/-! ## ENCODE (42_encoder.md) -/

/-- R203, R204, R205, R207: with a valid table, LEN <= IN_DEPTH, every symbol in the table and N <= OUT_DEPTH (and not both an
empty alphabet and LEN = 0), ENCODE completes: the N bytes of OUT_BUF, read as bits, are the codewords in order and then
ones(p + 8); the bytes from N on keep their values; OUT_LEN = N, ENC_BITS = B, PAD = p. -/
def Obligations.EncodeWritesTheStream : Prop :=
  ∀ s : State,
    let payloadBits := s.inputBytes.flatMap s.table.codewordOf
    let p := (8 - payloadBits.length % 8) % 8
    let n := (payloadBits.length + p + 8) / 8
    s.table.valid = true → s.len.toNat ≤ s.cfg.inDepth → (∀ c ∈ s.inputBytes, s.table.Has c) →
    ¬ (s.table.nsym = 0#9 ∧ s.len = 0#32) → n ≤ s.cfg.outDepth →
    ∃ t, exec .encode s = .next t ∧ Completed s t .none 0 ∧ EncodeFrame s t ∧
      t.outLen = BitVec.ofNat 32 n ∧ t.encBits = BitVec.ofNat 32 payloadBits.length ∧ t.pad = BitVec.ofNat 3 p ∧
      streamBits (t.outBuf.readFirst n) = payloadBits ++ List.replicate (p + 8) true ∧
      (∀ i, n ≤ i → t.outBuf.read i = s.outBuf.read i)

/-- R202: with a valid empty table and LEN = 0, ENCODE completes without error with OUT_LEN = 0 and ENC_BITS = 0, and SENTINEL
and every byte of OUT_BUF are unchanged; with LEN > 0 and a built empty table it completes with SYMBOL_NOT_IN_TABLE(0). -/
def Obligations.EncodeOfTheEmptyAlphabet : Prop :=
  ∀ s : State,
    (s.table.valid = true → s.table.nsym = 0#9 → s.len = 0#32 →
      exec .encode s = .next { s with
        outLen := 0, encBits := 0, errCode := .none, errInfo := 0, irqDone := true, busy := false }) ∧
    (s.table.Built → s.table.nsym = 0#9 → s.len ≠ 0#32 → s.len.toNat ≤ s.cfg.inDepth →
      ∃ t, exec .encode s = .next t ∧ EncodeFailed s t .symbolNotInTable 0)

/-- R201, R203, R206, R208, R272: the errors of ENCODE, in their order, each with its ERR_INFO and a failed command's results. -/
def Obligations.EncodeErrorsInOrder : Prop :=
  ∀ s : State,
    let payloadBits := s.inputBytes.flatMap s.table.codewordOf
    let n := (payloadBits.length + (8 - payloadBits.length % 8) % 8 + 8) / 8
    (s.table.valid = false → ∃ t, exec .encode s = .next t ∧ EncodeFailed s t .noTable 0) ∧
    (s.table.valid = true → s.cfg.inDepth < s.len.toNat →
      ∃ t, exec .encode s = .next t ∧ EncodeFailed s t .badLength s.len) ∧
    (∀ (i : Nat) (c : Byte), s.table.valid = true → s.len.toNat ≤ s.cfg.inDepth → s.inputBytes[i]? = some c →
      ¬ s.table.Has c → (∀ j d, j < i → s.inputBytes[j]? = some d → s.table.Has d) →
      ∃ t, exec .encode s = .next t ∧ EncodeFailed s t .symbolNotInTable (BitVec.ofNat 32 i)) ∧
    (s.table.valid = true → s.len.toNat ≤ s.cfg.inDepth → (∀ c ∈ s.inputBytes, s.table.Has c) →
      ¬ (s.table.nsym = 0#9 ∧ s.len = 0#32) → s.cfg.outDepth < n →
      ∃ t, exec .encode s = .next t ∧ EncodeFailed s t .outputOverflow (BitVec.ofNat 32 n))

/-- R209 items 1 and 2: a stream ENCODE makes with a non-empty table has at least one byte, its last byte is 0xFF, and its last
PAD + 8 bits are ones. -/
def Obligations.EncodedStreamEndsInOnes : Prop :=
  ∀ s t : State, s.cfg.wf = true → s.table.nsym ≠ 0#9 → exec .encode s = .next t → t.errCode = .none →
    1 ≤ t.outLen.toNat ∧ t.outBuf.read (t.outLen.toNat - 1) = 0xFF#8 ∧
    (streamBits (t.outBuf.readFirst t.outLen.toNat)).drop (8 * t.outLen.toNat - (t.pad.toNat + 8)) = ones (t.pad.toNat + 8)

/-- R200 "Not changed" (decision D36): whatever the outcome, ENCODE leaves the table, WEIGHT, LEN, IN_BUF, the pointers and
CTRL, and on an error also SENTINEL. -/
def Obligations.EncodeLeavesItsInputs : Prop :=
  ∀ s t : State, exec .encode s = .next t → EncodeFrame s t ∧ (t.errCode ≠ .none → t.pad = s.pad)

/-- R98, R210, R246: ENCODE and DECODE use the table of the last BUILD, never WEIGHT, and MCOLL does not change them. -/
def Obligations.CodecUsesTheTableNotTheWeights : Prop :=
  ∀ (s : State) (w : Vector Word 256) (m : Bool) (i : Instr), i = .encode ∨ i = .decode →
    ∃ t, exec i s = .next t ∧
      exec i { s with weight := w, table := { s.table with mcoll := m } } =
        .next { t with weight := w, table := { t.table with mcoll := m } }

/-! ## DECODE (43_decoder.md) -/

/-- R235, R236, R242: with a built table and a stream that is the codewords of `symbols`, which fit OUT_BUF, and then
PAD + 8 ones, DECODE completes with those symbols in OUT_BUF, OUT_LEN their number, and the bytes above unchanged. -/
def Obligations.DecodeRecoversTheSymbols : Prop :=
  ∀ (s : State) (symbols : List Byte), s.table.Built → s.table.nsym ≠ 0#9 → s.len.toNat ≤ s.cfg.inDepth →
    (∀ c ∈ symbols, s.table.Has c) → symbols.length ≤ s.cfg.outDepth →
    streamBits s.inputBytes = symbols.flatMap s.table.codewordOf ++ ones (s.pad.toNat + 8) →
    ∃ t, exec .decode s = .next t ∧ Completed s t .none 0 ∧ DecodeFrame s t ∧
      t.outLen = BitVec.ofNat 32 symbols.length ∧ t.outBuf.readFirst symbols.length = symbols ∧
      (∀ i, symbols.length ≤ i → t.outBuf.read i = s.outBuf.read i)

/-- R231 to R234, R272: what DECODE checks before the payload, in order: NO_TABLE; BAD_LENGTH; the empty stream, which completes
without error and leaves OUT_BUF; UNKNOWN_CODEWORD for the empty table; TRUNCATED_STREAM for a stream shorter than the
sentinel. -/
def Obligations.DecodeChecksBeforeThePayload : Prop :=
  ∀ s : State,
    (s.table.valid = false → ∃ t, exec .decode s = .next t ∧ DecodeFailed s t .noTable 0) ∧
    (s.table.valid = true → s.cfg.inDepth < s.len.toNat →
      ∃ t, exec .decode s = .next t ∧ DecodeFailed s t .badLength s.len) ∧
    (s.table.valid = true → s.len = 0#32 →
      exec .decode s = .next { s with outLen := 0, errCode := .none, errInfo := 0, irqDone := true, busy := false }) ∧
    (s.table.valid = true → s.len.toNat ≤ s.cfg.inDepth → s.len ≠ 0#32 → s.table.nsym = 0#9 →
      ∃ t, exec .decode s = .next t ∧ DecodeFailed s t .unknownCodeword 0) ∧
    (s.table.valid = true → s.len.toNat ≤ s.cfg.inDepth → s.len ≠ 0#32 → s.table.nsym ≠ 0#9 →
      8 * s.len.toNat < s.pad.toNat + 8 →
      ∃ t, exec .decode s = .next t ∧ DecodeFailed s t .truncatedStream (BitVec.ofNat 32 (8 * s.len.toNat)))

/-- R239: a payload that ends inside a codeword completes with TRUNCATED_STREAM and ERR_INFO = PB. -/
def Obligations.DecodeOfAnUnfinishedCodeword : Prop :=
  ∀ (s : State) (symbols : List Byte) (c : Byte) (part terminator : List Bool),
    s.table.Built → s.len.toNat ≤ s.cfg.inDepth → (∀ d ∈ symbols, s.table.Has d) → symbols.length ≤ s.cfg.outDepth →
    s.table.Has c → part <+: s.table.codewordOf c → part ≠ s.table.codewordOf c → part ≠ [] →
    terminator.length = s.pad.toNat + 8 →
    streamBits s.inputBytes = symbols.flatMap s.table.codewordOf ++ part ++ terminator →
    ∃ t, exec .decode s = .next t ∧
      DecodeFailed s t .truncatedStream (BitVec.ofNat 32 ((symbols.flatMap s.table.codewordOf).length + part.length))

/-- R240: when the payload has decoded, the first terminator bit that is 0 completes the command with UNKNOWN_CODEWORD and
ERR_INFO = its index. -/
def Obligations.DecodeChecksTheTerminator : Prop :=
  ∀ (s : State) (symbols : List Byte) (k : Nat) (rest : List Bool),
    s.table.Built → s.table.nsym ≠ 0#9 → s.len.toNat ≤ s.cfg.inDepth → (∀ d ∈ symbols, s.table.Has d) →
    symbols.length ≤ s.cfg.outDepth → k + 1 + rest.length = s.pad.toNat + 8 →
    streamBits s.inputBytes = symbols.flatMap s.table.codewordOf ++ (ones k ++ false :: rest) →
    ∃ t, exec .decode s = .next t ∧
      DecodeFailed s t .unknownCodeword (BitVec.ofNat 32 ((symbols.flatMap s.table.codewordOf).length + k))

/-- R238: a symbol to be emitted with OUT_DEPTH symbols already emitted completes the command with OUTPUT_OVERFLOW and
ERR_INFO = the index of the last bit of its codeword. -/
def Obligations.DecodeOverflowsAtTheSymbolThatDoesNotFit : Prop :=
  ∀ (s : State) (symbols : List Byte) (c : Byte) (rest : List Bool),
    s.table.Built → s.len.toNat ≤ s.cfg.inDepth → (∀ d ∈ symbols, s.table.Has d) → s.table.Has c →
    symbols.length = s.cfg.outDepth → s.pad.toNat + 8 ≤ rest.length →
    streamBits s.inputBytes = symbols.flatMap s.table.codewordOf ++ s.table.codewordOf c ++ rest →
    ∃ t, exec .decode s = .next t ∧ DecodeFailed s t .outputOverflow
      (BitVec.ofNat 32 ((symbols.flatMap s.table.codewordOf).length + (s.table.codewordOf c).length - 1))

/-- R237: with a one-leaf tree a payload bit 1 completes the command with UNKNOWN_CODEWORD and ERR_INFO = its index. -/
def Obligations.DecodeOfAOneBitInAOneLeafTree : Prop :=
  ∀ (s : State) (j : Nat) (rest : List Bool),
    s.table.Built → s.table.nsym = 1#9 → s.len.toNat ≤ s.cfg.inDepth → j ≤ s.cfg.outDepth →
    s.pad.toNat + 8 ≤ rest.length → streamBits s.inputBytes = List.replicate j false ++ true :: rest →
    ∃ t, exec .decode s = .next t ∧ DecodeFailed s t .unknownCodeword (BitVec.ofNat 32 j)

/-- R241, R247, R278: for NSYM >= 2 the payload never raises UNKNOWN_CODEWORD; if DECODE ends with it, ERR_INFO is the index of
the first 0 bit of the terminator. -/
def Obligations.UnknownCodewordOnlyInTheTerminator : Prop :=
  ∀ s t : State, s.table.Built → 2 ≤ s.table.nsym.toNat → exec .decode s = .next t → t.errCode = .unknownCodeword →
    ∃ j, 8 * s.len.toNat ≤ j + (s.pad.toNat + 8) ∧ (streamBits s.inputBytes)[j]? = some false ∧
      (∀ i, 8 * s.len.toNat ≤ i + (s.pad.toNat + 8) → i < j → (streamBits s.inputBytes)[i]? = some true) ∧
      t.errInfo = BitVec.ofNat 32 j

/-- R230 "Not changed" (decision D36): whatever the outcome, DECODE leaves the table, WEIGHT, LEN, IN_BUF, ENC_BITS, SENTINEL,
the pointers and CTRL. -/
def Obligations.DecodeLeavesItsInputs : Prop := ∀ s t : State, exec .decode s = .next t → DecodeFrame s t

/-- R244: a sequence encoded without error, its stream copied to IN_BUF with LEN = N and PAD left, decodes without error to the
sequence, for every built table, the empty one too. -/
def Obligations.EncodedSequencesDecodeBack : Prop :=
  ∀ s t u : State, s.cfg.wf = true → s.table.Built → exec .encode s = .next t → t.errCode = .none →
    s.len.toNat ≤ s.cfg.outDepth →
    u.cfg = s.cfg → u.table = t.table → u.pad = t.pad → u.len = t.outLen → t.outLen.toNat ≤ s.cfg.inDepth →
    (∀ i, i < t.outLen.toNat → u.inBuf.read i = t.outBuf.read i) →
    ∃ r, exec .decode u = .next r ∧ r.errCode = .none ∧ r.outLen = s.len ∧
      ∀ i, i < s.len.toNat → r.outBuf.read i = s.inBuf.read i

/-! ## Registers and bus (10_state.md, 20_memory.md) -/

/-- R20, R80, R82: a register's offset selects it; an address selects the register of offset bits [13:2], so bits [1:0] and
the bits above 13 do not matter; every address that is not in a reserved range is some register's offset. -/
def Obligations.RegisterMapIsAsListed : Prop :=
  (∀ (r : Reg) (a : Word), r.offset = some a → regOf a = r) ∧
  (∀ a : Word, regOf a ≠ .reserved → (regOf a).offset = some (a &&& 0x00003FFC#32)) ∧
  (∀ a b : Word, a.extractLsb' 2 12 = b.extractLsb' 2 12 → regOf a = regOf b) ∧
  (∀ a : Word, regOf a = .reserved ↔
    (0x060 ≤ (a &&& 0x00003FFC#32).toNat ∧ (a &&& 0x00003FFC#32).toNat ≤ 0x3FC) ∨
    (0xC00 ≤ (a &&& 0x00003FFC#32).toNat ∧ (a &&& 0x00003FFC#32).toNat ≤ 0xFFC) ∨
    (0x3FF0 ≤ (a &&& 0x00003FFC#32).toNat))

/-- R47, R83: a reserved offset reads 0, and a write to it or to a read-only register has no effect. -/
def Obligations.ReservedAndReadOnlyRegisters : Prop :=
  (∀ (s : State) (a : Word), regOf a = .reserved → hostRead a s = { s with trace := { addr := a, value := 0 } :: s.trace }) ∧
  (∀ (s : State) (a v : Word),
    (regOf a = .reserved ∨ (regOf a).gated = true ∨
      regOf a ∈ [Reg.id, Reg.version, Reg.status, Reg.errCode, Reg.errInfo, Reg.outLen, Reg.encBits]) →
    hostWrite a v s = s)

/-- R59 (and R61, which leaves the read open while BUSY = 1): with TABLE_VALID = 0 and BUSY = 0 a gated register reads 0. -/
def Obligations.GatedRegistersReadZero : Prop :=
  ∀ (s : State) (a : Word), s.busy = false → s.table.valid = false → (regOf a).gated = true →
    hostRead a s = { s with trace := { addr := a, value := 0 } :: s.trace }

/-- R306: while BUSY = 1 every write other than to IRQ_STATUS and CMD has no effect. -/
def Obligations.WritesWhileBusyAreLost : Prop :=
  ∀ (s : State) (a v : Word), s.busy = true → regOf a ≠ .irqStatus → regOf a ≠ .cmd → hostWrite a v s = s

/-- R140, R141: a CMD write with BUSY = 0 latches any word and sets BUSY and changes nothing else; with BUSY = 1 it only sets
CMD_DROPPED. -/
def Obligations.CommandWritesAreAcceptedOrDropped : Prop :=
  ∀ (s : State) (a v : Word), regOf a = .cmd →
    (s.busy = false → hostWrite a v s = { s with pending := v, busy := true }) ∧
    (s.busy = true → hostWrite a v s = { s with irqDropped := true })

/-- R284: DONE is set by every completion, whatever IRQ_EN is, and drives `irq` iff IRQ_EN = 1; writing 1 to IRQ_STATUS bit 0
clears it, with BUSY = 1 too; setting IRQ_EN while DONE = 1 raises `irq` at once, and clearing IRQ_EN lowers it and keeps DONE;
reset clears it. -/
def Obligations.InterruptFollowsDoneAndEnable : Prop :=
  (∀ s t : State, engineStep s = .next t → t.irqDone = true ∧ t.irq = s.irqEn) ∧
  (∀ (s : State) (a v : Word), regOf a = .irqStatus →
    (v.getLsbD 0 = true → (hostWrite a v s).irqDone = false ∧ (hostWrite a v s).irq = false) ∧
    (v.getLsbD 0 = false → (hostWrite a v s).irqDone = s.irqDone)) ∧
  (∀ (s : State) (a v : Word), regOf a = .ctrl → s.busy = false →
    (hostWrite a v s).irqDone = s.irqDone ∧ (hostWrite a v s).irq = (v.getLsbD 0 && s.irqDone)) ∧
  (∀ s : State, s.enterReset.irqDone = false ∧ s.enterReset.irq = false)

/-- R40: the window on IN_BUF. -/
def Obligations.InputWindow : Prop :=
  ∀ (s : State) (a v : Word), regOf a = .inData →
    (hostRead a s = { s with
      inPtr := (s.inPtr + 1) % s.cfg.inDepth
      trace := { addr := a, value := (s.inBuf.read s.inPtr).setWidth 32 } :: s.trace }) ∧
    (s.busy = true → hostWrite a v s = s) ∧
    (s.busy = false → ∃ m : Memory,
      hostWrite a v s = { s with inBuf := m, inPtr := (s.inPtr + 1) % s.cfg.inDepth } ∧
      m.read s.inPtr = v.setWidth 8 ∧ ∀ i, i ≠ s.inPtr → m.read i = s.inBuf.read i)

/-- R42: the window on OUT_BUF; with BUSY = 1 the value read is any value (the free word of the present draw) and the pointer
still advances. -/
def Obligations.OutputWindow : Prop :=
  ∀ (s : State) (a v : Word), regOf a = .outData →
    (s.busy = false → hostRead a s = { s with
      outPtr := (s.outPtr + 1) % s.cfg.outDepth
      trace := { addr := a, value := (s.outBuf.read s.outPtr).setWidth 32 } :: s.trace }) ∧
    (s.busy = true → ∃ x : Word, hostRead a s = { s with
      outPtr := (s.outPtr + 1) % s.cfg.outDepth
      draws := s.draws + 1
      trace := { addr := a, value := x } :: s.trace }) ∧
    (s.busy = true → hostWrite a v s = s) ∧
    (s.busy = false → ∃ m : Memory,
      hostWrite a v s = { s with outBuf := m, outPtr := (s.outPtr + 1) % s.cfg.outDepth } ∧
      m.read s.outPtr = v.setWidth 8 ∧ ∀ i, i ≠ s.outPtr → m.read i = s.outBuf.read i)

/-- R85: every read but those of the two windows leaves all state (the model's own trace and draw counter apart). The value it
returns is readValue of the register: with BUSY = 0 the exact one. -/
def Obligations.OtherReadsHaveNoSideEffect : Prop :=
  ∀ (s : State) (a : Word), regOf a ≠ .inData → regOf a ≠ .outData →
    (∃ d : Nat, hostRead a s = { s with
      draws := d, trace := { addr := a, value := s.readValue (regOf a) } :: s.trace }) ∧
    (s.busy = false → hostRead a s = { s with
      trace := { addr := a, value := s.exactRead (regOf a) } :: s.trace })

/-- R61: while BUSY = 1 a read of a register the engine does not own is exact, WEIGHT too unless CLRW is pending, and STATUS
reads BUSY = 1 and its reserved bits 0. -/
def Obligations.HostOwnedReadsStayExact : Prop :=
  ∀ (s : State) (r : Reg), s.busy = true →
    ((r ∈ [Reg.id, Reg.version, Reg.ctrl, Reg.cmd, Reg.irqStatus, Reg.len, Reg.inPtr, Reg.inData, Reg.outPtr, Reg.reserved] ∨
      ((∃ c, r = .weight c) ∧ s.pending ≠ 0x00000001#32)) →
      s.readValue r = State.readValue { s with busy := false } r) ∧
    ((s.readValue .status).getLsbD 0 = true ∧ ∀ i, 4 ≤ i → (s.readValue .status).getLsbD i = false)

/-- R23, R25, R26, R31: the bits of CTRL, STATUS, IRQ_STATUS and SENTINEL. R21, R22, R24, R27 to R30, R32, R39, R41, R43: the
words of ID, VERSION, CMD, ERR_CODE (its numbers those of R270), ERR_INFO, LEN, OUT_LEN, ENC_BITS, IN_PTR, OUT_PTR and WEIGHT.
R33 to R36, R44: with a valid table those of NSYM, ROOT, MAXLEN, ONESLEN and CODELEN. With BUSY = 0 a read returns these words. -/
def Obligations.StatusWordsHaveTheirBits : Prop :=
  ∀ s : State,
    (∀ i, i < 32 → (s.exactRead .ctrl).getLsbD i = ([s.irqEn, s.rejectCollision][i]?).getD false) ∧
    (∀ i, i < 32 → (s.exactRead .status).getLsbD i =
      ([s.busy, s.table.valid, s.table.mcoll, s.table.valid && s.table.nsym == 0#9][i]?).getD false) ∧
    (∀ i, i < 32 → (s.exactRead .irqStatus).getLsbD i = ([s.irqDone, s.irqError, s.irqDropped][i]?).getD false) ∧
    (s.exactRead .sentinel).toNat = s.pad.toNat + 16 * (s.pad.toNat + 8) ∧
    (s.exactRead .id = 0x48554646#32 ∧ s.exactRead .version = 0x00010000#32 ∧ s.exactRead .cmd = 0#32) ∧
    ([ErrCode.none, .illegalCommand, .noTable, .badLength, .symbolNotInTable, .outputOverflow, .unknownCodeword,
      .truncatedStream, .markerCollision][(s.exactRead .errCode).toNat]? = some s.errCode) ∧
    (s.exactRead .errInfo = s.errInfo ∧ s.exactRead .len = s.len ∧ s.exactRead .outLen = s.outLen ∧
      s.exactRead .encBits = s.encBits) ∧
    (∀ c : Byte, s.exactRead (.weight c) = atSymbol s.weight c) ∧
    (s.inPtr < 2 ^ 32 → (s.exactRead .inPtr).toNat = s.inPtr) ∧
    (s.outPtr < 2 ^ 32 → (s.exactRead .outPtr).toNat = s.outPtr) ∧
    (s.table.valid = true →
      (s.exactRead .nsym).toNat = s.table.nsym.toNat ∧ (s.exactRead .root).toNat = s.table.root.toNat ∧
      (s.exactRead .maxlen).toNat = s.table.maxlen.toNat ∧ (s.exactRead .oneslen).toNat = s.table.oneslen.toNat ∧
      ∀ c : Byte, (s.exactRead (.codelen c)).toNat = (atSymbol s.table.codelen c).toNat) ∧
    (s.busy = false → ∀ r : Reg, s.readValue r = s.exactRead r)

/-- R23, R29, R31, R39, R41, R43: what a write with BUSY = 0 stores in the plain read-write registers. R26: with BUSY = 0 and
1 a write to IRQ_STATUS clears the bits written as 1, leaves the others and changes nothing else. -/
def Obligations.PlainWritesStoreTheirField : Prop :=
  ∀ (s : State) (a v : Word),
    (s.busy = false →
      (regOf a = .ctrl → hostWrite a v s = { s with irqEn := v.getLsbD 0, rejectCollision := v.getLsbD 1 }) ∧
      (regOf a = .len → hostWrite a v s = { s with len := v }) ∧
      (regOf a = .sentinel → hostWrite a v s = { s with pad := v.extractLsb' 0 3 }) ∧
      (regOf a = .inPtr → hostWrite a v s = { s with inPtr := v.toNat % s.cfg.inDepth }) ∧
      (regOf a = .outPtr → hostWrite a v s = { s with outPtr := v.toNat % s.cfg.outDepth }) ∧
      (∀ c : Byte, regOf a = .weight c → ∃ w : Vector Word 256, hostWrite a v s = { s with weight := w } ∧
        atSymbol w c = v ∧ ∀ d : Byte, d ≠ c → atSymbol w d = atSymbol s.weight d)) ∧
    (regOf a = .irqStatus → hostWrite a v s = { s with
      irqDone := if v.getLsbD 0 then false else s.irqDone
      irqError := if v.getLsbD 1 then false else s.irqError
      irqDropped := if v.getLsbD 2 then false else s.irqDropped })

/-- R37, R38, R45, R46: with a valid table the words of a wide value make it up, the lower offset the less significant part. -/
def Obligations.TableWordsMakeUpTheirValues : Prop :=
  ∀ s : State, s.table.valid = true →
    (s.table.total.toNat = (s.exactRead .totalLo).toNat + 2 ^ 32 * (s.exactRead .totalHi).toNat) ∧
    (s.table.wpl.toNat = (s.exactRead .wplLo).toNat + 2 ^ 32 * (s.exactRead .wplHi).toNat) ∧
    (∀ c : Byte, (atSymbol s.table.codeword c).toNat =
      ((List.range 8).map (fun w => (s.exactRead (.codeword c (BitVec.ofNat 3 w))).toNat * 2 ^ (32 * w))).sum) ∧
    (∀ k : Fin 255, k.val + 1 < s.table.nsym.toNat →
      (s.exactRead (.node (BitVec.ofNat 8 k.val) 0)).toNat = s.table.left[k].toNat + 2 ^ 16 * s.table.right[k].toNat ∧
      s.table.nw[k].toNat = (s.exactRead (.node (BitVec.ofNat 8 k.val) 1)).toNat +
        2 ^ 32 * (s.exactRead (.node (BitVec.ofNat 8 k.val) 2)).toNat ∧
      s.exactRead (.node (BitVec.ofNat 8 k.val) 3) = 0) ∧
    (∀ (k : Byte) (j : BitVec 2), s.table.nsym.toNat ≤ k.toNat + 1 → s.exactRead (.node k j) = 0)

/-! ## Reset (70_reset_and_hazards.md) -/

/-- R301, R302: right after reset, and at an edge with `rst` = 1 in any state, a running command is abandoned and every register
but the two data windows (whose bytes are unspecified) reads its reset value, the stored table is 0 and the heap empty.
That an edge with `rst` is an event of the event list, taken by one step, is the model's choice (log entries 1, 10). -/
def Obligations.ResetGivesEveryRegisterItsValue : Prop :=
  (∀ r : Reg, r ≠ .inData → r ≠ .outData → State.reset.readValue r = resetValue r) ∧
  State.reset.irq = false ∧ State.reset.heap = [] ∧ State.reset.table = CodeTable.reset ∧
  (∀ (s : State) (rest : List BusEvent), s.bus = .rst true :: rest →
    ∃ t, step s = .next t ∧ t.rst = true ∧ t.busy = false ∧ t.table.valid = false ∧ t.irq = false ∧ t.heap = [] ∧
      t.table = CodeTable.reset ∧ t.cfg = s.cfg ∧ t.bus = rest ∧
      ∀ r : Reg, r ≠ .inData → r ≠ .outData → t.readValue r = resetValue r)

/-- R300: while `rst` = 1 a host write has no effect and a host read changes nothing (the model's own trace and draw counter
apart). The event list and the level of `rst` are the model's choice (log entries 1, 10). -/
def Obligations.TransactionsInResetHaveNoEffect : Prop :=
  ∀ (s : State) (rest : List BusEvent) (a v : Word), s.rst = true →
    (s.bus = .write a v :: rest → step s = .next { s with bus := rest }) ∧
    (s.bus = .read a :: rest → ∃ x : Word,
      step s = .next { s with bus := rest, draws := s.draws + 1, trace := { addr := a, value := x } :: s.trace })

/-! ## Invariant -/

/-- The state right after reset meets the invariant. -/
def Obligations.ResetMeetsTheInvariant : Prop := State.reset.Inv

/-- Every step keeps the invariant: the depths legal, the pointers in their buffers, the buffers in canonical form, OUT_LEN and
ENC_BITS in their bounds, ERR_INFO 0 without error, the heap empty, a valid table one that BUILD stores. -/
def Obligations.StepKeepsTheInvariant : Prop := ∀ s t : State, s.Inv → step s = .next t → t.Inv

/-- R10, R206, R248: in a state that meets the invariant no number that ENCODE or DECODE records is cut to 32 bits. The
lengths they come from are below 2^32, and OUT_LEN, ENC_BITS and ERR_INFO, read as numbers, are the stream length, the payload
length, the symbol index and the stream bit index the rules name (log entry 25). -/
def Obligations.RecordedNumbersFitTheirRegister : Prop :=
  ∀ s : State, s.Inv → s.table.valid = true → s.len.toNat ≤ s.cfg.inDepth →
    let p := payload s.table s.inputBytes
    let stream := streamBits s.inputBytes
    let pb := stream.length - (s.pad.toNat + 8)
    (p.length ≤ 255 * s.cfg.inDepth ∧ streamSize p < 2 ^ 30 ∧ stream.length ≤ 2 ^ 27) ∧
    (∀ t, exec .encode s = .next t →
      (t.errCode = .none → ¬ (s.table.nsym = 0#9 ∧ s.len = 0#32) →
        t.outLen.toNat = streamSize p ∧ t.encBits.toNat = p.length) ∧
      (t.errCode = .symbolNotInTable → firstMissing s.table s.inputBytes = some t.errInfo.toNat) ∧
      (t.errCode = .outputOverflow → t.errInfo.toNat = streamSize p)) ∧
    (∀ t, exec .decode s = .next t → s.len ≠ 0#32 → s.table.nsym ≠ 0#9 →
      (t.errCode = .none → ∃ (symbols : List Byte) (node : NodeIx),
        walkPayload s.table s.cfg.outDepth (stream.take pb) = .done symbols node ∧ t.outLen.toNat = symbols.length) ∧
      (t.errCode = .outputOverflow →
        walkPayload s.table s.cfg.outDepth (stream.take pb) = .failed .outputOverflow t.errInfo.toNat) ∧
      (t.errCode = .unknownCodeword →
        walkPayload s.table s.cfg.outDepth (stream.take pb) = .failed .unknownCodeword t.errInfo.toNat ∨
        (pb ≤ t.errInfo.toNat ∧ stream[t.errInfo.toNat]? = some false)) ∧
      (t.errCode = .truncatedStream →
        t.errInfo.toNat = if stream.length < s.pad.toNat + 8 then stream.length else pb))
end

