-- ==== Sys2Proof/Laws/Memory.lean ====
section
/-! SUPPORT. The buffers: what a write leaves at each index, and that every operation keeps the canonical form. -/

namespace Sys2Proof.Machine

/-! ## Reading after writing -/

theorem cellAt_setCell_same (i : Nat) (b : Byte) (cells : List Host.Cell) : cellAt i (setCell i b cells) = some b := by
  induction cells with
  | nil => simp [setCell, cellAt]
  | cons c rest ih =>
    obtain ⟨a, x⟩ := c
    simp only [setCell]
    split
    · simp [cellAt]
    · split
      · simp [cellAt]
      · simp [cellAt, *]

theorem cellAt_setCell_other {i j : Nat} (h : j ≠ i) (b : Byte) (cells : List Host.Cell) :
    cellAt j (setCell i b cells) = cellAt j cells := by
  induction cells with
  | nil => simp [setCell, cellAt, h.symm]
  | cons c rest ih =>
    obtain ⟨a, x⟩ := c
    simp only [setCell]
    split
    · simp [cellAt, h.symm]
    · split
      · rename_i ha
        subst ha
        simp [cellAt, h.symm]
      · simp [cellAt, ih]

@[simp] theorem Memory.write_gen (m : Memory) (i : Nat) (b : Byte) : (m.write i b).gen = m.gen := rfl

@[simp] theorem Memory.unspecified_gen (g : Nat) : (Memory.unspecified g).gen = g := rfl

@[simp] theorem Memory.read_write_same (m : Memory) (i : Nat) (b : Byte) : (m.write i b).read i = b := by
  simp [Memory.read, Memory.get, Memory.write, cellAt_setCell_same]

theorem Memory.read_write_other (m : Memory) {i j : Nat} (h : j ≠ i) (b : Byte) : (m.write i b).read j = m.read j := by
  simp [Memory.read, Memory.get, Memory.write, cellAt_setCell_other h]

/-- What a run of bytes written from `i` on leaves at index `j`. -/
theorem Memory.read_writeFrom (bytes : List Byte) (m : Memory) (i j : Nat) :
    (m.writeFrom i bytes).read j = if i ≤ j then (bytes[j - i]?).getD (m.read j) else m.read j := by
  induction bytes generalizing m i with
  | nil => simp [Memory.writeFrom]
  | cons b rest ih =>
    rw [Memory.writeFrom, ih]
    obtain hlt | heq | hgt := Nat.lt_trichotomy j i
    · have h1 : ¬ i + 1 ≤ j := by omega
      have h2 : ¬ i ≤ j := by omega
      simp only [h1, h2, if_false]
      exact Memory.read_write_other m (by omega) b
    · subst heq
      have h1 : ¬ j + 1 ≤ j := by omega
      simp [h1]
    · have h1 : i + 1 ≤ j := by omega
      have h2 : i ≤ j := by omega
      obtain ⟨k, rfl⟩ : ∃ k, j = i + 1 + k := ⟨j - (i + 1), by omega⟩
      have h3 : i + 1 + k - i = k + 1 := by omega
      have h4 : i + 1 + k - (i + 1) = k := by omega
      simp only [h1, h2, if_true, h3, h4, List.getElem?_cons_succ]
      rw [Memory.read_write_other m (by omega) b]

/-- The bytes written from index 0 on are read back. -/
theorem Memory.readFirst_writeFrom_zero (m : Memory) (bytes : List Byte) :
    (m.writeFrom 0 bytes).readFirst bytes.length = bytes := by
  apply List.ext_getElem
  · simp [Memory.readFirst]
  · intro k h1 h2
    simp [Memory.readFirst, Memory.read_writeFrom, h2]

/-- A byte written is read back, whatever the buffer held. -/
theorem Memory.read_writeFrom_zero_below (m : Memory) (bytes : List Byte) {j : Nat} (h : j < bytes.length) :
    (m.writeFrom 0 bytes).read j = bytes[j] := by
  simp [Memory.read_writeFrom, h]

/-- The bytes above those written keep their values. -/
theorem Memory.read_writeFrom_zero_above (m : Memory) (bytes : List Byte) {j : Nat} (h : bytes.length ≤ j) :
    (m.writeFrom 0 bytes).read j = m.read j := by
  simp [Memory.read_writeFrom, h]

@[simp] theorem Memory.writeFrom_gen (m : Memory) (i : Nat) (bytes : List Byte) : (m.writeFrom i bytes).gen = m.gen := by
  induction bytes generalizing m i with
  | nil => rfl
  | cons b rest ih => simp [Memory.writeFrom, ih]

@[simp] theorem Memory.length_readFirst (m : Memory) (n : Nat) : (m.readFirst n).length = n := by simp [Memory.readFirst]

/-! ## The canonical form -/

theorem rising_cons {a : Nat} {x : Byte} {rest : List Host.Cell} :
    rising ((a, x) :: rest) = true ↔ (∀ c ∈ rest, a < c.1) ∧ rising rest = true := by
  induction rest generalizing a x with
  | nil => simp [rising]
  | cons c rest ih =>
    obtain ⟨b, y⟩ := c
    simp only [rising, Bool.and_eq_true, decide_eq_true_eq, List.mem_cons, forall_eq_or_imp]
    constructor
    · rintro ⟨hab, h⟩
      have hb := (ih.mp h).1
      exact ⟨⟨hab, fun c hc => Nat.lt_trans hab (hb c hc)⟩, h⟩
    · rintro ⟨⟨hab, -⟩, h⟩
      exact ⟨hab, h⟩

theorem mem_setCell {i : Nat} {b : Byte} {cells : List Host.Cell} {c : Host.Cell} (h : c ∈ setCell i b cells) :
    c = (i, b) ∨ c ∈ cells := by
  induction cells with
  | nil => simpa [setCell] using h
  | cons d rest ih =>
    obtain ⟨a, x⟩ := d
    simp only [setCell] at h
    split at h
    · simpa using h
    · split at h
      · rcases List.mem_cons.mp h with h | h
        · exact .inl h
        · exact .inr (List.mem_cons_of_mem _ h)
      · rcases List.mem_cons.mp h with h | h
        · exact .inr (by simp [h])
        · exact (ih h).imp id (List.mem_cons_of_mem _)

theorem rising_setCell {i : Nat} {b : Byte} {cells : List Host.Cell} (h : rising cells = true) :
    rising (setCell i b cells) = true := by
  induction cells with
  | nil => rfl
  | cons d rest ih =>
    obtain ⟨a, x⟩ := d
    obtain ⟨hall, hrest⟩ := rising_cons.mp h
    simp only [setCell]
    split
    · rename_i hia
      refine rising_cons.mpr ⟨fun c hc => ?_, h⟩
      rcases List.mem_cons.mp hc with rfl | hc
      · exact hia
      · exact Nat.lt_trans hia (hall c hc)
    · split
      · rename_i hai
        subst hai
        exact rising_cons.mpr ⟨hall, hrest⟩
      · refine rising_cons.mpr ⟨fun c hc => ?_, ih hrest⟩
        rcases mem_setCell hc with rfl | hc
        · show a < i
          omega
        · exact hall c hc

theorem Memory.wf_iff {depth : Nat} {m : Memory} :
    m.wf depth = true ↔ rising m.cells = true ∧ ∀ c ∈ m.cells, c.1 < depth := by
  simp [Memory.wf]

/-- A write into the buffer keeps the canonical form. -/
theorem Memory.wf_write {depth : Nat} {m : Memory} {i : Nat} (b : Byte) (h : m.wf depth = true) (hi : i < depth) :
    (m.write i b).wf depth = true := by
  obtain ⟨hr, hd⟩ := Memory.wf_iff.mp h
  refine Memory.wf_iff.mpr ⟨rising_setCell hr, fun c hc => ?_⟩
  rcases mem_setCell hc with rfl | hc
  · exact hi
  · exact hd c hc

/-- A run of bytes written into the buffer keeps the canonical form. -/
theorem Memory.wf_writeFrom {depth : Nat} (bytes : List Byte) {m : Memory} {i : Nat} (h : m.wf depth = true)
    (hi : i + bytes.length ≤ depth) : (m.writeFrom i bytes).wf depth = true := by
  induction bytes generalizing m i with
  | nil => exact h
  | cons b rest ih =>
    simp only [List.length_cons] at hi
    exact ih (Memory.wf_write b h (by omega)) (by omega)

@[simp] theorem Memory.wf_unspecified (depth g : Nat) : (Memory.unspecified g).wf depth = true := rfl

theorem reset_inBuf_wf : State.reset.inBuf.wf State.reset.cfg.inDepth = true := rfl

theorem reset_outBuf_wf : State.reset.outBuf.wf State.reset.cfg.outDepth = true := rfl

/-- In canonical form, buffers of one draw that read alike at every index as (Byte or Unspecified) are equal data. -/
theorem cells_ext {a b : List Host.Cell} (ha : rising a = true) (hb : rising b = true)
    (h : ∀ i, cellAt i a = cellAt i b) : a = b := by
  induction a generalizing b with
  | nil =>
    cases b with
    | nil => rfl
    | cons c _ => simpa [cellAt] using h c.1
  | cons c rest ih =>
    obtain ⟨i, x⟩ := c
    obtain ⟨hi, hr⟩ := rising_cons.mp ha
    cases b with
    | nil => simpa [cellAt] using h i
    | cons d rest' =>
      obtain ⟨j, y⟩ := d
      obtain ⟨hj, hr'⟩ := rising_cons.mp hb
      have none_of_lt : ∀ (k : Nat) (l : List Host.Cell), (∀ c ∈ l, k < c.1) → cellAt k l = none := by
        intro k l hl
        induction l with
        | nil => rfl
        | cons c l ihl =>
          obtain ⟨p, q⟩ := c
          have hp : k < p := hl (p, q) (by simp)
          have hne : p ≠ k := by omega
          simp only [cellAt, hne, if_false]
          exact ihl fun c hc => hl c (List.mem_cons_of_mem _ hc)
      have hij : i = j := by
        by_contra hne
        have h1 := h i
        have h2 := h j
        simp only [cellAt, if_true, hne, Ne.symm hne, if_false] at h1 h2
        have hle : ¬ i < j := fun hlt =>
          absurd h1 (by rw [none_of_lt i rest' (fun c hc => Nat.lt_trans hlt (hj c hc))]; simp)
        have hle' : ¬ j < i := fun hlt =>
          absurd h2 (by rw [none_of_lt j rest (fun c hc => Nat.lt_trans hlt (hi c hc))]; simp)
        omega
      subst hij
      have hxy : x = y := by simpa [cellAt] using h i
      subst hxy
      congr 1
      refine ih hr hr' fun k => ?_
      have hk := h k
      simp only [cellAt] at hk
      split at hk
      · rename_i heq
        subst heq
        rw [none_of_lt i rest hi, none_of_lt i rest' hj]
      · exact hk

end Sys2Proof.Machine
end

