-- ==== Sys2Proof/Laws/State.lean ====
section
/-! SUPPORT. What each named update of the state does to each field: one lemma per field and update. -/

namespace Sys2Proof.Machine

variable (s : State)

/-! ### `completeWith` -/

@[simp] theorem completeWith_cfg (code : ErrCode) (info : Word) : (s.completeWith code info).cfg = s.cfg := rfl
@[simp] theorem completeWith_rst (code : ErrCode) (info : Word) : (s.completeWith code info).rst = s.rst := rfl
@[simp] theorem completeWith_irqEn (code : ErrCode) (info : Word) : (s.completeWith code info).irqEn = s.irqEn := rfl
@[simp] theorem completeWith_rejectCollision (code : ErrCode) (info : Word) : (s.completeWith code info).rejectCollision = s.rejectCollision := rfl
@[simp] theorem completeWith_busy (code : ErrCode) (info : Word) : (s.completeWith code info).busy = false := rfl
@[simp] theorem completeWith_pending (code : ErrCode) (info : Word) : (s.completeWith code info).pending = s.pending := rfl
@[simp] theorem completeWith_irqDone (code : ErrCode) (info : Word) : (s.completeWith code info).irqDone = true := rfl
@[simp] theorem completeWith_irqError (code : ErrCode) (info : Word) : (s.completeWith code info).irqError = (s.irqError || decide (code ≠ .none)) := rfl
@[simp] theorem completeWith_irqDropped (code : ErrCode) (info : Word) : (s.completeWith code info).irqDropped = s.irqDropped := rfl
@[simp] theorem completeWith_errCode (code : ErrCode) (info : Word) : (s.completeWith code info).errCode = code := rfl
@[simp] theorem completeWith_errInfo (code : ErrCode) (info : Word) : (s.completeWith code info).errInfo = info := rfl
@[simp] theorem completeWith_len (code : ErrCode) (info : Word) : (s.completeWith code info).len = s.len := rfl
@[simp] theorem completeWith_outLen (code : ErrCode) (info : Word) : (s.completeWith code info).outLen = s.outLen := rfl
@[simp] theorem completeWith_encBits (code : ErrCode) (info : Word) : (s.completeWith code info).encBits = s.encBits := rfl
@[simp] theorem completeWith_pad (code : ErrCode) (info : Word) : (s.completeWith code info).pad = s.pad := rfl
@[simp] theorem completeWith_inPtr (code : ErrCode) (info : Word) : (s.completeWith code info).inPtr = s.inPtr := rfl
@[simp] theorem completeWith_outPtr (code : ErrCode) (info : Word) : (s.completeWith code info).outPtr = s.outPtr := rfl
@[simp] theorem completeWith_inBuf (code : ErrCode) (info : Word) : (s.completeWith code info).inBuf = s.inBuf := rfl
@[simp] theorem completeWith_outBuf (code : ErrCode) (info : Word) : (s.completeWith code info).outBuf = s.outBuf := rfl
@[simp] theorem completeWith_weight (code : ErrCode) (info : Word) : (s.completeWith code info).weight = s.weight := rfl
@[simp] theorem completeWith_table (code : ErrCode) (info : Word) : (s.completeWith code info).table = s.table := rfl
@[simp] theorem completeWith_heap (code : ErrCode) (info : Word) : (s.completeWith code info).heap = s.heap := rfl
@[simp] theorem completeWith_draws (code : ErrCode) (info : Word) : (s.completeWith code info).draws = s.draws := rfl
@[simp] theorem completeWith_bus (code : ErrCode) (info : Word) : (s.completeWith code info).bus = s.bus := rfl
@[simp] theorem completeWith_trace (code : ErrCode) (info : Word) : (s.completeWith code info).trace = s.trace := rfl

/-! ### `scrambleOut` -/

@[simp] theorem scrambleOut_cfg : (s.scrambleOut).cfg = s.cfg := rfl
@[simp] theorem scrambleOut_rst : (s.scrambleOut).rst = s.rst := rfl
@[simp] theorem scrambleOut_irqEn : (s.scrambleOut).irqEn = s.irqEn := rfl
@[simp] theorem scrambleOut_rejectCollision : (s.scrambleOut).rejectCollision = s.rejectCollision := rfl
@[simp] theorem scrambleOut_busy : (s.scrambleOut).busy = s.busy := rfl
@[simp] theorem scrambleOut_pending : (s.scrambleOut).pending = s.pending := rfl
@[simp] theorem scrambleOut_irqDone : (s.scrambleOut).irqDone = s.irqDone := rfl
@[simp] theorem scrambleOut_irqError : (s.scrambleOut).irqError = s.irqError := rfl
@[simp] theorem scrambleOut_irqDropped : (s.scrambleOut).irqDropped = s.irqDropped := rfl
@[simp] theorem scrambleOut_errCode : (s.scrambleOut).errCode = s.errCode := rfl
@[simp] theorem scrambleOut_errInfo : (s.scrambleOut).errInfo = s.errInfo := rfl
@[simp] theorem scrambleOut_len : (s.scrambleOut).len = s.len := rfl
@[simp] theorem scrambleOut_outLen : (s.scrambleOut).outLen = s.outLen := rfl
@[simp] theorem scrambleOut_encBits : (s.scrambleOut).encBits = s.encBits := rfl
@[simp] theorem scrambleOut_pad : (s.scrambleOut).pad = s.pad := rfl
@[simp] theorem scrambleOut_inPtr : (s.scrambleOut).inPtr = s.inPtr := rfl
@[simp] theorem scrambleOut_outPtr : (s.scrambleOut).outPtr = s.outPtr := rfl
@[simp] theorem scrambleOut_inBuf : (s.scrambleOut).inBuf = s.inBuf := rfl
@[simp] theorem scrambleOut_outBuf : (s.scrambleOut).outBuf = Memory.unspecified s.draws := rfl
@[simp] theorem scrambleOut_weight : (s.scrambleOut).weight = s.weight := rfl
@[simp] theorem scrambleOut_table : (s.scrambleOut).table = s.table := rfl
@[simp] theorem scrambleOut_heap : (s.scrambleOut).heap = s.heap := rfl
@[simp] theorem scrambleOut_draws : (s.scrambleOut).draws = s.draws + 1 := rfl
@[simp] theorem scrambleOut_bus : (s.scrambleOut).bus = s.bus := rfl
@[simp] theorem scrambleOut_trace : (s.scrambleOut).trace = s.trace := rfl

/-! ### `drawn` -/

@[simp] theorem drawn_cfg : (s.drawn).cfg = s.cfg := rfl
@[simp] theorem drawn_rst : (s.drawn).rst = s.rst := rfl
@[simp] theorem drawn_irqEn : (s.drawn).irqEn = s.irqEn := rfl
@[simp] theorem drawn_rejectCollision : (s.drawn).rejectCollision = s.rejectCollision := rfl
@[simp] theorem drawn_busy : (s.drawn).busy = s.busy := rfl
@[simp] theorem drawn_pending : (s.drawn).pending = s.pending := rfl
@[simp] theorem drawn_irqDone : (s.drawn).irqDone = s.irqDone := rfl
@[simp] theorem drawn_irqError : (s.drawn).irqError = s.irqError := rfl
@[simp] theorem drawn_irqDropped : (s.drawn).irqDropped = s.irqDropped := rfl
@[simp] theorem drawn_errCode : (s.drawn).errCode = s.errCode := rfl
@[simp] theorem drawn_errInfo : (s.drawn).errInfo = s.errInfo := rfl
@[simp] theorem drawn_len : (s.drawn).len = s.len := rfl
@[simp] theorem drawn_outLen : (s.drawn).outLen = s.outLen := rfl
@[simp] theorem drawn_encBits : (s.drawn).encBits = s.encBits := rfl
@[simp] theorem drawn_pad : (s.drawn).pad = s.pad := rfl
@[simp] theorem drawn_inPtr : (s.drawn).inPtr = s.inPtr := rfl
@[simp] theorem drawn_outPtr : (s.drawn).outPtr = s.outPtr := rfl
@[simp] theorem drawn_inBuf : (s.drawn).inBuf = s.inBuf := rfl
@[simp] theorem drawn_outBuf : (s.drawn).outBuf = s.outBuf := rfl
@[simp] theorem drawn_weight : (s.drawn).weight = s.weight := rfl
@[simp] theorem drawn_table : (s.drawn).table = s.table := rfl
@[simp] theorem drawn_heap : (s.drawn).heap = s.heap := rfl
@[simp] theorem drawn_draws : (s.drawn).draws = s.draws + 1 := rfl
@[simp] theorem drawn_bus : (s.drawn).bus = s.bus := rfl
@[simp] theorem drawn_trace : (s.drawn).trace = s.trace := rfl

/-! ### `ackIrq` -/

@[simp] theorem ackIrq_cfg (v : Word) : (s.ackIrq v).cfg = s.cfg := rfl
@[simp] theorem ackIrq_rst (v : Word) : (s.ackIrq v).rst = s.rst := rfl
@[simp] theorem ackIrq_irqEn (v : Word) : (s.ackIrq v).irqEn = s.irqEn := rfl
@[simp] theorem ackIrq_rejectCollision (v : Word) : (s.ackIrq v).rejectCollision = s.rejectCollision := rfl
@[simp] theorem ackIrq_busy (v : Word) : (s.ackIrq v).busy = s.busy := rfl
@[simp] theorem ackIrq_pending (v : Word) : (s.ackIrq v).pending = s.pending := rfl
@[simp] theorem ackIrq_irqDone (v : Word) : (s.ackIrq v).irqDone = (s.irqDone && !v.getLsbD 0) := rfl
@[simp] theorem ackIrq_irqError (v : Word) : (s.ackIrq v).irqError = (s.irqError && !v.getLsbD 1) := rfl
@[simp] theorem ackIrq_irqDropped (v : Word) : (s.ackIrq v).irqDropped = (s.irqDropped && !v.getLsbD 2) := rfl
@[simp] theorem ackIrq_errCode (v : Word) : (s.ackIrq v).errCode = s.errCode := rfl
@[simp] theorem ackIrq_errInfo (v : Word) : (s.ackIrq v).errInfo = s.errInfo := rfl
@[simp] theorem ackIrq_len (v : Word) : (s.ackIrq v).len = s.len := rfl
@[simp] theorem ackIrq_outLen (v : Word) : (s.ackIrq v).outLen = s.outLen := rfl
@[simp] theorem ackIrq_encBits (v : Word) : (s.ackIrq v).encBits = s.encBits := rfl
@[simp] theorem ackIrq_pad (v : Word) : (s.ackIrq v).pad = s.pad := rfl
@[simp] theorem ackIrq_inPtr (v : Word) : (s.ackIrq v).inPtr = s.inPtr := rfl
@[simp] theorem ackIrq_outPtr (v : Word) : (s.ackIrq v).outPtr = s.outPtr := rfl
@[simp] theorem ackIrq_inBuf (v : Word) : (s.ackIrq v).inBuf = s.inBuf := rfl
@[simp] theorem ackIrq_outBuf (v : Word) : (s.ackIrq v).outBuf = s.outBuf := rfl
@[simp] theorem ackIrq_weight (v : Word) : (s.ackIrq v).weight = s.weight := rfl
@[simp] theorem ackIrq_table (v : Word) : (s.ackIrq v).table = s.table := rfl
@[simp] theorem ackIrq_heap (v : Word) : (s.ackIrq v).heap = s.heap := rfl
@[simp] theorem ackIrq_draws (v : Word) : (s.ackIrq v).draws = s.draws := rfl
@[simp] theorem ackIrq_bus (v : Word) : (s.ackIrq v).bus = s.bus := rfl
@[simp] theorem ackIrq_trace (v : Word) : (s.ackIrq v).trace = s.trace := rfl

/-! ### `accept` -/

@[simp] theorem accept_cfg (v : Word) : (s.accept v).cfg = s.cfg := rfl
@[simp] theorem accept_rst (v : Word) : (s.accept v).rst = s.rst := rfl
@[simp] theorem accept_irqEn (v : Word) : (s.accept v).irqEn = s.irqEn := rfl
@[simp] theorem accept_rejectCollision (v : Word) : (s.accept v).rejectCollision = s.rejectCollision := rfl
@[simp] theorem accept_busy (v : Word) : (s.accept v).busy = true := rfl
@[simp] theorem accept_pending (v : Word) : (s.accept v).pending = v := rfl
@[simp] theorem accept_irqDone (v : Word) : (s.accept v).irqDone = s.irqDone := rfl
@[simp] theorem accept_irqError (v : Word) : (s.accept v).irqError = s.irqError := rfl
@[simp] theorem accept_irqDropped (v : Word) : (s.accept v).irqDropped = s.irqDropped := rfl
@[simp] theorem accept_errCode (v : Word) : (s.accept v).errCode = s.errCode := rfl
@[simp] theorem accept_errInfo (v : Word) : (s.accept v).errInfo = s.errInfo := rfl
@[simp] theorem accept_len (v : Word) : (s.accept v).len = s.len := rfl
@[simp] theorem accept_outLen (v : Word) : (s.accept v).outLen = s.outLen := rfl
@[simp] theorem accept_encBits (v : Word) : (s.accept v).encBits = s.encBits := rfl
@[simp] theorem accept_pad (v : Word) : (s.accept v).pad = s.pad := rfl
@[simp] theorem accept_inPtr (v : Word) : (s.accept v).inPtr = s.inPtr := rfl
@[simp] theorem accept_outPtr (v : Word) : (s.accept v).outPtr = s.outPtr := rfl
@[simp] theorem accept_inBuf (v : Word) : (s.accept v).inBuf = s.inBuf := rfl
@[simp] theorem accept_outBuf (v : Word) : (s.accept v).outBuf = s.outBuf := rfl
@[simp] theorem accept_weight (v : Word) : (s.accept v).weight = s.weight := rfl
@[simp] theorem accept_table (v : Word) : (s.accept v).table = s.table := rfl
@[simp] theorem accept_heap (v : Word) : (s.accept v).heap = s.heap := rfl
@[simp] theorem accept_draws (v : Word) : (s.accept v).draws = s.draws := rfl
@[simp] theorem accept_bus (v : Word) : (s.accept v).bus = s.bus := rfl
@[simp] theorem accept_trace (v : Word) : (s.accept v).trace = s.trace := rfl

/-! ### `dropCommand` -/

@[simp] theorem dropCommand_cfg : (s.dropCommand).cfg = s.cfg := rfl
@[simp] theorem dropCommand_rst : (s.dropCommand).rst = s.rst := rfl
@[simp] theorem dropCommand_irqEn : (s.dropCommand).irqEn = s.irqEn := rfl
@[simp] theorem dropCommand_rejectCollision : (s.dropCommand).rejectCollision = s.rejectCollision := rfl
@[simp] theorem dropCommand_busy : (s.dropCommand).busy = s.busy := rfl
@[simp] theorem dropCommand_pending : (s.dropCommand).pending = s.pending := rfl
@[simp] theorem dropCommand_irqDone : (s.dropCommand).irqDone = s.irqDone := rfl
@[simp] theorem dropCommand_irqError : (s.dropCommand).irqError = s.irqError := rfl
@[simp] theorem dropCommand_irqDropped : (s.dropCommand).irqDropped = true := rfl
@[simp] theorem dropCommand_errCode : (s.dropCommand).errCode = s.errCode := rfl
@[simp] theorem dropCommand_errInfo : (s.dropCommand).errInfo = s.errInfo := rfl
@[simp] theorem dropCommand_len : (s.dropCommand).len = s.len := rfl
@[simp] theorem dropCommand_outLen : (s.dropCommand).outLen = s.outLen := rfl
@[simp] theorem dropCommand_encBits : (s.dropCommand).encBits = s.encBits := rfl
@[simp] theorem dropCommand_pad : (s.dropCommand).pad = s.pad := rfl
@[simp] theorem dropCommand_inPtr : (s.dropCommand).inPtr = s.inPtr := rfl
@[simp] theorem dropCommand_outPtr : (s.dropCommand).outPtr = s.outPtr := rfl
@[simp] theorem dropCommand_inBuf : (s.dropCommand).inBuf = s.inBuf := rfl
@[simp] theorem dropCommand_outBuf : (s.dropCommand).outBuf = s.outBuf := rfl
@[simp] theorem dropCommand_weight : (s.dropCommand).weight = s.weight := rfl
@[simp] theorem dropCommand_table : (s.dropCommand).table = s.table := rfl
@[simp] theorem dropCommand_heap : (s.dropCommand).heap = s.heap := rfl
@[simp] theorem dropCommand_draws : (s.dropCommand).draws = s.draws := rfl
@[simp] theorem dropCommand_bus : (s.dropCommand).bus = s.bus := rfl
@[simp] theorem dropCommand_trace : (s.dropCommand).trace = s.trace := rfl

/-! ### `advanceIn` -/

@[simp] theorem advanceIn_cfg : (s.advanceIn).cfg = s.cfg := rfl
@[simp] theorem advanceIn_rst : (s.advanceIn).rst = s.rst := rfl
@[simp] theorem advanceIn_irqEn : (s.advanceIn).irqEn = s.irqEn := rfl
@[simp] theorem advanceIn_rejectCollision : (s.advanceIn).rejectCollision = s.rejectCollision := rfl
@[simp] theorem advanceIn_busy : (s.advanceIn).busy = s.busy := rfl
@[simp] theorem advanceIn_pending : (s.advanceIn).pending = s.pending := rfl
@[simp] theorem advanceIn_irqDone : (s.advanceIn).irqDone = s.irqDone := rfl
@[simp] theorem advanceIn_irqError : (s.advanceIn).irqError = s.irqError := rfl
@[simp] theorem advanceIn_irqDropped : (s.advanceIn).irqDropped = s.irqDropped := rfl
@[simp] theorem advanceIn_errCode : (s.advanceIn).errCode = s.errCode := rfl
@[simp] theorem advanceIn_errInfo : (s.advanceIn).errInfo = s.errInfo := rfl
@[simp] theorem advanceIn_len : (s.advanceIn).len = s.len := rfl
@[simp] theorem advanceIn_outLen : (s.advanceIn).outLen = s.outLen := rfl
@[simp] theorem advanceIn_encBits : (s.advanceIn).encBits = s.encBits := rfl
@[simp] theorem advanceIn_pad : (s.advanceIn).pad = s.pad := rfl
@[simp] theorem advanceIn_inPtr : (s.advanceIn).inPtr = (s.inPtr + 1) % s.cfg.inDepth := rfl
@[simp] theorem advanceIn_outPtr : (s.advanceIn).outPtr = s.outPtr := rfl
@[simp] theorem advanceIn_inBuf : (s.advanceIn).inBuf = s.inBuf := rfl
@[simp] theorem advanceIn_outBuf : (s.advanceIn).outBuf = s.outBuf := rfl
@[simp] theorem advanceIn_weight : (s.advanceIn).weight = s.weight := rfl
@[simp] theorem advanceIn_table : (s.advanceIn).table = s.table := rfl
@[simp] theorem advanceIn_heap : (s.advanceIn).heap = s.heap := rfl
@[simp] theorem advanceIn_draws : (s.advanceIn).draws = s.draws := rfl
@[simp] theorem advanceIn_bus : (s.advanceIn).bus = s.bus := rfl
@[simp] theorem advanceIn_trace : (s.advanceIn).trace = s.trace := rfl

/-! ### `advanceOut` -/

@[simp] theorem advanceOut_cfg : (s.advanceOut).cfg = s.cfg := rfl
@[simp] theorem advanceOut_rst : (s.advanceOut).rst = s.rst := rfl
@[simp] theorem advanceOut_irqEn : (s.advanceOut).irqEn = s.irqEn := rfl
@[simp] theorem advanceOut_rejectCollision : (s.advanceOut).rejectCollision = s.rejectCollision := rfl
@[simp] theorem advanceOut_busy : (s.advanceOut).busy = s.busy := rfl
@[simp] theorem advanceOut_pending : (s.advanceOut).pending = s.pending := rfl
@[simp] theorem advanceOut_irqDone : (s.advanceOut).irqDone = s.irqDone := rfl
@[simp] theorem advanceOut_irqError : (s.advanceOut).irqError = s.irqError := rfl
@[simp] theorem advanceOut_irqDropped : (s.advanceOut).irqDropped = s.irqDropped := rfl
@[simp] theorem advanceOut_errCode : (s.advanceOut).errCode = s.errCode := rfl
@[simp] theorem advanceOut_errInfo : (s.advanceOut).errInfo = s.errInfo := rfl
@[simp] theorem advanceOut_len : (s.advanceOut).len = s.len := rfl
@[simp] theorem advanceOut_outLen : (s.advanceOut).outLen = s.outLen := rfl
@[simp] theorem advanceOut_encBits : (s.advanceOut).encBits = s.encBits := rfl
@[simp] theorem advanceOut_pad : (s.advanceOut).pad = s.pad := rfl
@[simp] theorem advanceOut_inPtr : (s.advanceOut).inPtr = s.inPtr := rfl
@[simp] theorem advanceOut_outPtr : (s.advanceOut).outPtr = (s.outPtr + 1) % s.cfg.outDepth := rfl
@[simp] theorem advanceOut_inBuf : (s.advanceOut).inBuf = s.inBuf := rfl
@[simp] theorem advanceOut_outBuf : (s.advanceOut).outBuf = s.outBuf := rfl
@[simp] theorem advanceOut_weight : (s.advanceOut).weight = s.weight := rfl
@[simp] theorem advanceOut_table : (s.advanceOut).table = s.table := rfl
@[simp] theorem advanceOut_heap : (s.advanceOut).heap = s.heap := rfl
@[simp] theorem advanceOut_draws : (s.advanceOut).draws = s.draws := rfl
@[simp] theorem advanceOut_bus : (s.advanceOut).bus = s.bus := rfl
@[simp] theorem advanceOut_trace : (s.advanceOut).trace = s.trace := rfl

/-! ### `record` -/

@[simp] theorem record_cfg (a v : Word) : (s.record a v).cfg = s.cfg := rfl
@[simp] theorem record_rst (a v : Word) : (s.record a v).rst = s.rst := rfl
@[simp] theorem record_irqEn (a v : Word) : (s.record a v).irqEn = s.irqEn := rfl
@[simp] theorem record_rejectCollision (a v : Word) : (s.record a v).rejectCollision = s.rejectCollision := rfl
@[simp] theorem record_busy (a v : Word) : (s.record a v).busy = s.busy := rfl
@[simp] theorem record_pending (a v : Word) : (s.record a v).pending = s.pending := rfl
@[simp] theorem record_irqDone (a v : Word) : (s.record a v).irqDone = s.irqDone := rfl
@[simp] theorem record_irqError (a v : Word) : (s.record a v).irqError = s.irqError := rfl
@[simp] theorem record_irqDropped (a v : Word) : (s.record a v).irqDropped = s.irqDropped := rfl
@[simp] theorem record_errCode (a v : Word) : (s.record a v).errCode = s.errCode := rfl
@[simp] theorem record_errInfo (a v : Word) : (s.record a v).errInfo = s.errInfo := rfl
@[simp] theorem record_len (a v : Word) : (s.record a v).len = s.len := rfl
@[simp] theorem record_outLen (a v : Word) : (s.record a v).outLen = s.outLen := rfl
@[simp] theorem record_encBits (a v : Word) : (s.record a v).encBits = s.encBits := rfl
@[simp] theorem record_pad (a v : Word) : (s.record a v).pad = s.pad := rfl
@[simp] theorem record_inPtr (a v : Word) : (s.record a v).inPtr = s.inPtr := rfl
@[simp] theorem record_outPtr (a v : Word) : (s.record a v).outPtr = s.outPtr := rfl
@[simp] theorem record_inBuf (a v : Word) : (s.record a v).inBuf = s.inBuf := rfl
@[simp] theorem record_outBuf (a v : Word) : (s.record a v).outBuf = s.outBuf := rfl
@[simp] theorem record_weight (a v : Word) : (s.record a v).weight = s.weight := rfl
@[simp] theorem record_table (a v : Word) : (s.record a v).table = s.table := rfl
@[simp] theorem record_heap (a v : Word) : (s.record a v).heap = s.heap := rfl
@[simp] theorem record_draws (a v : Word) : (s.record a v).draws = s.draws := rfl
@[simp] theorem record_bus (a v : Word) : (s.record a v).bus = s.bus := rfl
@[simp] theorem record_trace (a v : Word) : (s.record a v).trace = { addr := a, value := v } :: s.trace := rfl

/-! ### `enterReset` -/

@[simp] theorem enterReset_cfg : s.enterReset.cfg = s.cfg := rfl
@[simp] theorem enterReset_rst : s.enterReset.rst = true := rfl
@[simp] theorem enterReset_irqEn : s.enterReset.irqEn = State.reset.irqEn := rfl
@[simp] theorem enterReset_rejectCollision : s.enterReset.rejectCollision = State.reset.rejectCollision := rfl
@[simp] theorem enterReset_busy : s.enterReset.busy = State.reset.busy := rfl
@[simp] theorem enterReset_pending : s.enterReset.pending = State.reset.pending := rfl
@[simp] theorem enterReset_irqDone : s.enterReset.irqDone = State.reset.irqDone := rfl
@[simp] theorem enterReset_irqError : s.enterReset.irqError = State.reset.irqError := rfl
@[simp] theorem enterReset_irqDropped : s.enterReset.irqDropped = State.reset.irqDropped := rfl
@[simp] theorem enterReset_errCode : s.enterReset.errCode = State.reset.errCode := rfl
@[simp] theorem enterReset_errInfo : s.enterReset.errInfo = State.reset.errInfo := rfl
@[simp] theorem enterReset_len : s.enterReset.len = State.reset.len := rfl
@[simp] theorem enterReset_outLen : s.enterReset.outLen = State.reset.outLen := rfl
@[simp] theorem enterReset_encBits : s.enterReset.encBits = State.reset.encBits := rfl
@[simp] theorem enterReset_pad : s.enterReset.pad = State.reset.pad := rfl
@[simp] theorem enterReset_inPtr : s.enterReset.inPtr = State.reset.inPtr := rfl
@[simp] theorem enterReset_outPtr : s.enterReset.outPtr = State.reset.outPtr := rfl
@[simp] theorem enterReset_inBuf : s.enterReset.inBuf = Memory.unspecified s.draws := rfl
@[simp] theorem enterReset_outBuf : s.enterReset.outBuf = Memory.unspecified (s.draws + 1) := rfl
@[simp] theorem enterReset_weight : s.enterReset.weight = State.reset.weight := rfl
@[simp] theorem enterReset_table : s.enterReset.table = State.reset.table := rfl
@[simp] theorem enterReset_heap : s.enterReset.heap = State.reset.heap := rfl
@[simp] theorem enterReset_draws : s.enterReset.draws = s.draws + 2 := rfl
@[simp] theorem enterReset_bus : s.enterReset.bus = s.bus := rfl
@[simp] theorem enterReset_trace : s.enterReset.trace = s.trace := rfl

/-! ### The two ways a command ends -/

@[simp] theorem complete_eq : s.complete = s.completeWith .none 0 := rfl
@[simp] theorem raiseError_eq (code : ErrCode) (info : Word) : s.raiseError code info = s.completeWith code info := rfl

end Sys2Proof.Machine
end

