-- ==== Sys2Proof/Laws/Stream.lean ====
section
/-! SUPPORT. Lengths of bit strings and streams (00_scope.md R7; 30_encoding.md R116 to R120). -/

namespace Sys2Proof.Machine

@[simp] theorem length_byteBits (b : Byte) : (byteBits b).length = 8 := by simp [byteBits]

@[simp] theorem length_streamBits (bytes : List Byte) : (streamBits bytes).length = 8 * bytes.length := by
  induction bytes with
  | nil => rfl
  | cons b rest ih =>
    have h : streamBits (b :: rest) = byteBits b ++ streamBits rest := rfl
    rw [h, List.length_append, ih]
    simp
    omega

@[simp] theorem length_ones (n : Nat) : (ones n).length = n := by simp [ones]

@[simp] theorem length_codewordBits (l v : Nat) : (codewordBits l v).length = l := by simp [codewordBits]

theorem length_packBytes (n : Nat) {bits : List Bool} (h : bits.length = 8 * n) : (packBytes bits).length = n := by
  induction n generalizing bits with
  | zero =>
    have : bits = [] := List.length_eq_zero_iff.mp (by omega)
    subst this
    rfl
  | succ n ih =>
    match bits, h with
    | b0 :: b1 :: b2 :: b3 :: b4 :: b5 :: b6 :: b7 :: rest, h =>
      simp only [packBytes, List.length_cons]
      rw [ih (by simp only [List.length_cons] at h; omega)]
    | [], h | [_], h | [_, _], h | [_, _, _], h | [_, _, _, _], h | [_, _, _, _, _], h | [_, _, _, _, _, _], h
    | [_, _, _, _, _, _, _], h => simp at h <;> omega

/-- B + p is a multiple of 8 (R204). -/
theorem dvd_add_paddingOf (b : Nat) : 8 ∣ b + paddingOf b := by simp only [paddingOf]; omega

theorem paddingOf_lt (b : Nat) : paddingOf b < 8 := by simp only [paddingOf]; omega

@[simp] theorem length_streamOf (p : List Bool) : (streamOf p).length = p.length + (paddingOf p.length + 8) := by
  simp [streamOf]

/-- N = (B + p + 8) / 8 exactly (R119, R205). -/
theorem eight_mul_streamSize (p : List Bool) : 8 * streamSize p = p.length + paddingOf p.length + 8 := by
  have h := dvd_add_paddingOf p.length
  simp only [streamSize, length_streamOf]
  omega

theorem length_inputBytes (s : State) : s.inputBytes.length = s.len.toNat := by
  simp [State.inputBytes, Memory.readFirst, State.length]

/-- States that agree on LEN and IN_BUF[0 .. LEN-1] have the same input bytes. -/
theorem SameStreamOperands.inputBytes {s u : State} (h : SameStreamOperands s u) : u.inputBytes = s.inputBytes := by
  simp only [State.inputBytes, Memory.readFirst, State.length, h.len]
  exact List.map_congr_left fun i hi => h.bytes i (by simpa using hi)

theorem SameStreamOperands.lengthBad {s u : State} (h : SameStreamOperands s u) : u.lengthBad = s.lengthBad :=
  decide_eq_decide.mpr (by simp only [State.length, h.cfg, h.len])

/-- The index of the first 0 bit is that of a 0 bit. -/
theorem getElem?_of_firstZero {bits : List Bool} {i : Nat} (h : firstZero bits = some i) : bits[i]? = some false := by
  induction bits generalizing i with
  | nil => simp [firstZero] at h
  | cons b rest ih =>
    cases b
    · simp only [firstZero, Option.some.injEq] at h
      subst h
      rfl
    · simp only [firstZero, Option.map_eq_some_iff] at h
      obtain ⟨k, hk, rfl⟩ := h
      simpa using ih hk

/-- The walk emits a symbol before its own. -/
@[simp] theorem emit_done (sym : Byte) (symbols : List Byte) (node : NodeIx) :
    (WalkResult.done symbols node).emit sym = .done (sym :: symbols) node := rfl

@[simp] theorem emit_failed (sym : Byte) (code : ErrCode) (info : Nat) :
    (WalkResult.failed code info).emit sym = .failed code info := rfl

end Sys2Proof.Machine
end

