-- ==== Sys2Proof/Laws/Commands.lean ====
section
/-! SUPPORT. What each command can answer: one case lemma per command, which later proofs cite in place of unfolding it. -/

namespace Sys2Proof.Machine

variable {s t : State}

theorem execNop_cases (h : exec .nop s = .next t) : t = s.completeWith .none 0 := by
  simpa [exec, execNop] using h.symm

theorem execClrw_cases (h : exec .clrw s = .next t) :
    t = ({ s with weight := Vector.replicate 256 0#32 }).completeWith .none 0 := by
  simpa [exec, execClrw] using h.symm

/-- BUILD stores its table, or rejects it (R160). -/
theorem execBuild_cases (h : exec .build s = .next t) :
    (¬ ((tableOf s.weights).mcoll = true ∧ s.rejectCollision = true) ∧
      t = ({ s with heap := buildHeap s.weights }).storeTable (tableOf s.weights)) ∨
    ((tableOf s.weights).mcoll = true ∧ s.rejectCollision = true ∧
      t = ({ s with heap := buildHeap s.weights }).rejectTable (tableOf s.weights)) := by
  simp only [exec, execBuild, Host.Outcome.next.injEq] at h
  split at h
  · rename_i hc
    exact .inr ⟨by simpa using (Bool.and_eq_true_iff.mp hc).1, by simpa using (Bool.and_eq_true_iff.mp hc).2, h.symm⟩
  · rename_i hc
    exact .inl ⟨by simpa using hc, h.symm⟩

theorem not_lengthBad (h : s.lengthBad = false) : s.len.toNat ≤ s.cfg.inDepth := by
  have hn : ¬ s.cfg.inDepth < s.length := of_decide_eq_false h
  simp only [State.length] at hn
  omega

/-- ENCODE of symbols: a data error, or the stream (R203 to R207). -/
theorem encodeSymbols_cases (symbols : List Byte) (s : State) :
    (∃ i, firstMissing s.table symbols = some i ∧
      encodeSymbols symbols s = s.failEncode .symbolNotInTable (BitVec.ofNat 32 i)) ∨
    (firstMissing s.table symbols = none ∧ s.cfg.outDepth < streamSize (payload s.table symbols) ∧
      encodeSymbols symbols s = s.failEncode .outputOverflow (BitVec.ofNat 32 (streamSize (payload s.table symbols)))) ∨
    (firstMissing s.table symbols = none ∧ streamSize (payload s.table symbols) ≤ s.cfg.outDepth ∧
      encodeSymbols symbols s = s.storeStream (payload s.table symbols)) := by
  simp only [encodeSymbols]
  cases hm : firstMissing s.table symbols with
  | some i => exact .inl ⟨i, rfl, rfl⟩
  | none =>
    by_cases hd : s.cfg.outDepth < streamSize (payload s.table symbols)
    · exact .inr (.inl ⟨rfl, hd, by simp [hd]⟩)
    · exact .inr (.inr ⟨rfl, by omega, by simp [hd]⟩)

/-- ENCODE fails with some error, stores the empty stream, or stores the stream of its input (R200). -/
theorem execEncode_cases (h : exec .encode s = .next t) :
    (∃ code info, code ≠ .none ∧ t = s.failEncode code info) ∨
    (s.table.valid = true ∧ s.table.nsym = 0#9 ∧ s.len = 0#32 ∧ t = s.storeEmptyStream) ∨
    (s.table.valid = true ∧ s.len.toNat ≤ s.cfg.inDepth ∧ firstMissing s.table s.inputBytes = none ∧
      streamSize (payload s.table s.inputBytes) ≤ s.cfg.outDepth ∧ t = s.storeStream (payload s.table s.inputBytes)) := by
  simp only [exec, execEncode, Host.Outcome.next.injEq] at h
  split at h
  · exact .inl ⟨_, _, by decide, h.symm⟩
  · rename_i hv
    split at h
    · exact .inl ⟨_, _, by decide, h.symm⟩
    · rename_i hl
      split at h
      · rename_i he
        simp only [Bool.and_eq_true, beq_iff_eq] at he
        exact .inr (.inl ⟨by simpa using hv, he.1, he.2, h.symm⟩)
      · have hlen : s.len.toNat ≤ s.cfg.inDepth := not_lengthBad (by simpa using hl)
        rcases encodeSymbols_cases s.inputBytes s with ⟨i, -, he⟩ | ⟨-, -, he⟩ | ⟨hm, hn, he⟩
        · exact .inl ⟨_, _, by decide, (he.symm.trans h).symm⟩
        · exact .inl ⟨_, _, by decide, (he.symm.trans h).symm⟩
        · exact .inr (.inr ⟨by simpa using hv, hlen, hm, hn, (he.symm.trans h).symm⟩)

/-! ## The payload walk -/

/-- A walk ends with at most as many symbols as OUT_BUF still takes, or with one of its two errors. -/
def WalkResult.Bounded (room : Nat) : WalkResult → Prop
  | .done symbols _ => symbols.length ≤ room
  | .failed code _  => code ≠ .none

theorem Bounded.emit {room : Nat} {r : WalkResult} (sym : Byte) (h : r.Bounded room) : (r.emit sym).Bounded (room + 1) := by
  cases r with
  | done symbols node =>
    simp only [WalkResult.Bounded] at h
    simp only [emit_done, WalkResult.Bounded, List.length_cons]
    omega
  | failed code info => exact h

theorem walkTree_bounded (t : CodeTable) (outDepth : Nat) (bits : List Bool) (j m : Nat) (node : NodeIx)
    (hm : m ≤ outDepth) : (walkTree t outDepth bits j m node).Bounded (outDepth - m) := by
  induction bits generalizing j m node with
  | nil => exact Nat.zero_le _
  | cons b rest ih =>
    simp only [walkTree]
    split
    · split
      · exact fun h => by cases h
      · have hroom : outDepth - m = outDepth - (m + 1) + 1 := by omega
        rw [hroom]
        exact Bounded.emit _ (ih _ _ _ (by omega))
    · exact ih _ _ _ hm

theorem walkLeaf_bounded (t : CodeTable) (outDepth : Nat) (bits : List Bool) (j m : Nat) (hm : m ≤ outDepth) :
    (walkLeaf t outDepth bits j m).Bounded (outDepth - m) := by
  induction bits generalizing j m with
  | nil => exact Nat.zero_le _
  | cons b rest ih =>
    simp only [walkLeaf]
    split
    · exact fun h => by cases h
    · split
      · exact fun h => by cases h
      · have hroom : outDepth - m = outDepth - (m + 1) + 1 := by omega
        rw [hroom]
        exact Bounded.emit _ (ih _ _ (by omega))

theorem walkPayload_bounded (t : CodeTable) (outDepth : Nat) (bits : List Bool) :
    (walkPayload t outDepth bits).Bounded outDepth := by
  simp only [walkPayload]
  split
  · exact walkLeaf_bounded t outDepth bits 0 0 (Nat.zero_le _)
  · exact walkTree_bounded t outDepth bits 0 0 _ (Nat.zero_le _)

/-- A walk over `n` bits from index `j` on raises its error at one of these bits, and emits at most one symbol a bit. -/
def WalkResult.Within (j n : Nat) : WalkResult → Prop
  | .done symbols _    => symbols.length ≤ n
  | .failed code index => (code = .outputOverflow ∨ code = .unknownCodeword) ∧ j ≤ index ∧ index < j + n

theorem WalkResult.Within.emit {j n : Nat} {r : WalkResult} (sym : Byte) (h : r.Within (j + 1) n) :
    (r.emit sym).Within j (n + 1) := by
  cases r with
  | done symbols node => exact Nat.succ_le_succ h
  | failed code index => exact ⟨h.1, by have := h.2.1; omega, by have := h.2.2; omega⟩

/-- A walk that emits nothing at its first bit goes on one bit later. -/
theorem WalkResult.Within.later {j n : Nat} {r : WalkResult} (h : r.Within (j + 1) n) : r.Within j (n + 1) := by
  cases r with
  | done symbols node => exact Nat.le_succ_of_le h
  | failed code index => exact ⟨h.1, by have := h.2.1; omega, by have := h.2.2; omega⟩

theorem walkTree_within (t : CodeTable) (outDepth : Nat) (bits : List Bool) (j m : Nat) (node : NodeIx) :
    (walkTree t outDepth bits j m node).Within j bits.length := by
  induction bits generalizing j m node with
  | nil => simp [walkTree, WalkResult.Within]
  | cons b bits ih =>
    simp only [walkTree]
    split
    · split
      · exact ⟨.inl rfl, Nat.le_refl _, by simp⟩
      · exact (ih (j + 1) (m + 1) t.root).emit _
    · exact (ih (j + 1) m (t.childOf node b)).later

theorem walkLeaf_within (t : CodeTable) (outDepth : Nat) (bits : List Bool) (j m : Nat) :
    (walkLeaf t outDepth bits j m).Within j bits.length := by
  induction bits generalizing j m with
  | nil => simp [walkLeaf, WalkResult.Within]
  | cons b bits ih =>
    simp only [walkLeaf]
    split
    · exact ⟨.inr rfl, Nat.le_refl _, by simp⟩
    · split
      · exact ⟨.inl rfl, Nat.le_refl _, by simp⟩
      · exact (ih (j + 1) (m + 1)).emit _

/-- The payload walk raises its error at a payload bit, and emits at most one symbol a bit (R242, R248). -/
theorem walkPayload_within (t : CodeTable) (outDepth : Nat) (bits : List Bool) :
    (walkPayload t outDepth bits).Within 0 bits.length := by
  simp only [walkPayload]
  split
  · exact walkLeaf_within t outDepth bits 0 0
  · exact walkTree_within t outDepth bits 0 0 _

/-- DECODE of a split stream fails with some error or stores at most OUT_DEPTH symbols (R238 to R242). -/
theorem decodeSplit_cases (bits terminator : List Bool) (s : State) :
    (∃ code info, code ≠ .none ∧ decodeSplit bits terminator s = s.failDecode code info) ∨
    (∃ symbols, walkPayload s.table s.cfg.outDepth bits = .done symbols s.table.root ∧ firstZero terminator = none ∧
      symbols.length ≤ s.cfg.outDepth ∧ decodeSplit bits terminator s = s.storeSymbols symbols) := by
  have hb := walkPayload_bounded s.table s.cfg.outDepth bits
  simp only [decodeSplit]
  cases hw : walkPayload s.table s.cfg.outDepth bits with
  | failed code info =>
    rw [hw] at hb
    exact .inl ⟨code, _, hb, rfl⟩
  | done symbols node =>
    rw [hw] at hb
    by_cases hn : node = s.table.root
    · subst hn
      cases hz : firstZero terminator with
      | some i => exact .inl ⟨.unknownCodeword, _, by decide, by simp; rfl⟩
      | none => exact .inr ⟨symbols, rfl, rfl, hb, by simp⟩
    · exact .inl ⟨.truncatedStream, _, by decide, by simp [hn]; rfl⟩

/-- DECODE fails with some error or stores at most OUT_DEPTH symbols (R230). -/
theorem execDecode_cases (h : exec .decode s = .next t) :
    (∃ code info, code ≠ .none ∧ t = s.failDecode code info) ∨
    (s.table.valid = true ∧ s.len.toNat ≤ s.cfg.inDepth ∧
      ∃ symbols, symbols.length ≤ s.cfg.outDepth ∧ t = s.storeSymbols symbols) := by
  simp only [exec, execDecode, Host.Outcome.next.injEq] at h
  split at h
  · exact .inl ⟨_, _, by decide, h.symm⟩
  · rename_i hv
    replace hv : s.table.valid = true := by simpa using hv
    split at h
    · exact .inl ⟨_, _, by decide, h.symm⟩
    · rename_i hl
      have hlen : s.len.toNat ≤ s.cfg.inDepth := not_lengthBad (by simpa using hl)
      split at h
      · exact .inr ⟨hv, hlen, [], Nat.zero_le _, h.symm⟩
      · split at h
        · exact .inl ⟨_, _, by decide, h.symm⟩
        · simp only [decodeStream] at h
          split at h
          · exact .inl ⟨_, _, by decide, h.symm⟩
          · rcases decodeSplit_cases ((streamBits s.inputBytes).take ((streamBits s.inputBytes).length - s.sentinelLen))
              ((streamBits s.inputBytes).drop ((streamBits s.inputBytes).length - s.sentinelLen)) s
              with ⟨code, info, hc, he⟩ | ⟨symbols, -, -, hs, he⟩
            · exact .inl ⟨code, info, hc, (he.symm.trans h).symm⟩
            · exact .inr ⟨hv, hlen, symbols, hs, (he.symm.trans h).symm⟩

end Sys2Proof.Machine
end

