-- ==== Sys2Proof/Laws/Heap.lean ====
section
/-! SUPPORT. The binary heap: push and pop keep the heap property and the entries, and pop answers the least entry
(41_tree_builder.md R163 to R165). -/

namespace Sys2Proof.Machine

/-- `lt` is a strict total order. -/
structure IsOrder (lt : Nat → Nat → Bool) : Prop where
  irrefl : ∀ x, lt x x = false
  trans  : ∀ {x y z}, lt x y = true → lt y z = true → lt x z = true
  total  : ∀ {x y}, x ≠ y → lt x y = true ∨ lt y x = true

/-- x <_q y is a strict total order, whatever the weights (R163). -/
theorem before_isOrder (w : List Nat) (arena : List TreeNode) : IsOrder (before w arena) where
  irrefl x := by simp [before]
  trans {x y z} hxy hyz := by
    simp only [before, Bool.or_eq_true, Bool.and_eq_true, decide_eq_true_eq] at *
    omega
  total {x y} h := by
    simp only [before, Bool.or_eq_true, Bool.and_eq_true, decide_eq_true_eq]
    omega

namespace IsOrder

variable {lt : Nat → Nat → Bool} (o : IsOrder lt)
include o

theorem asymm {x y : Nat} (h : lt x y = true) : lt y x = false := by
  by_contra hc
  have := o.trans h (by simpa using hc)
  simp [o.irrefl] at this

/-- "not after" is transitive. -/
theorem le_trans {x y z : Nat} (hxy : lt y x = false) (hyz : lt z y = false) : lt z x = false := by
  by_contra hc
  have hzx : lt z x = true := by simpa using hc
  by_cases hne : x = y
  · subst hne
    simp [hzx] at hyz
  · rcases o.total hne with h | h
    · simp [o.trans hzx h] at hyz
    · simp [h] at hxy

theorem eq_of_le_le {x y : Nat} (hxy : lt y x = false) (hyx : lt x y = false) : x = y := by
  by_contra hne
  rcases o.total hne with h | h <;> simp_all

end IsOrder

/-- No entry goes before its parent. -/
def IsHeap (lt : Nat → Nat → Bool) (h : List Nat) : Prop :=
  ∀ i, 0 < i → i < h.length → lt (heapAt h i) (heapAt h ((i - 1) / 2)) = false

/-! ## Swaps -/

@[simp] theorem length_heapSwap (h : List Nat) (i j : Nat) : (heapSwap h i j).length = h.length := by simp [heapSwap]

theorem heapAt_heapSwap {h : List Nat} {i j : Nat} (hi : i < h.length) (hj : j < h.length) (k : Nat) :
    heapAt (heapSwap h i j) k = if k = j then heapAt h i else if k = i then heapAt h j else heapAt h k := by
  simp only [heapAt, heapSwap, List.getD_eq_getElem?_getD, List.getElem?_set, List.length_set]
  by_cases hkj : j = k
  · subst hkj
    simp [hj]
  · by_cases hki : i = k
    · subst hki
      simp [hkj, hi, Ne.symm hkj]
    · simp [hkj, hki, Ne.symm hkj, Ne.symm hki]

theorem heapSwap_perm {h : List Nat} {i j : Nat} (hi : i < h.length) (hj : j < h.length) : (heapSwap h i j).Perm h := by
  have : heapSwap h i j = (h.set i h[j]).set j h[i] := by
    simp [heapSwap, heapAt, hi, hj]
  rw [this]
  exact List.set_set_perm hi hj

/-! ## Push -/

theorem length_siftUp (lt : Nat → Nat → Bool) (fuel : Nat) (h : List Nat) (i : Nat) :
    (siftUp lt fuel h i).length = h.length := by
  induction fuel generalizing h i with
  | zero => rfl
  | succ fuel ih =>
    simp only [siftUp]
    split
    · rfl
    · split
      · rw [ih, length_heapSwap]
      · rfl

theorem siftUp_perm (lt : Nat → Nat → Bool) (fuel : Nat) {h : List Nat} {i : Nat} (hi : i < h.length) :
    (siftUp lt fuel h i).Perm h := by
  induction fuel generalizing h i with
  | zero => exact .refl _
  | succ fuel ih =>
    simp only [siftUp]
    split
    · exact .refl _
    · split
      · have hp : (i - 1) / 2 < h.length := by omega
        exact (ih (by simpa using hp)).trans (heapSwap_perm hi hp)
      · exact .refl _

theorem siftUp_isHeap {lt : Nat → Nat → Bool} (o : IsOrder lt) (fuel : Nat) {h : List Nat} {i : Nat} (hi : i < h.length)
    (hfuel : i ≤ fuel)
    (hrest : ∀ j, 0 < j → j < h.length → j ≠ i → lt (heapAt h j) (heapAt h ((j - 1) / 2)) = false)
    (hchild : 0 < i → ∀ j, 0 < j → j < h.length → (j - 1) / 2 = i → lt (heapAt h j) (heapAt h ((i - 1) / 2)) = false) :
    IsHeap lt (siftUp lt fuel h i) := by
  induction fuel generalizing h i with
  | zero =>
    intro j hj hlen
    exact hrest j hj hlen (by omega)
  | succ fuel ih =>
    simp only [siftUp]
    split
    · rename_i hi0
      intro j hj hlen
      exact hrest j hj hlen (by omega)
    · rename_i hi0
      split
      · rename_i hlt
        have hp : (i - 1) / 2 < h.length := by omega
        have hat := heapAt_heapSwap (h := h) hi hp
        refine ih (by simpa using hp) (by omega) ?_ ?_
        · intro j hj hlen hne
          rw [length_heapSwap] at hlen
          rw [hat, hat, if_neg hne]
          by_cases hji : j = i
          · subst hji
            simp only [if_true]
            exact o.asymm hlt
          · rw [if_neg hji]
            by_cases hpj : (j - 1) / 2 = (i - 1) / 2
            · rw [if_pos hpj]
              have h1 := hrest j hj hlen hji
              rw [hpj] at h1
              exact o.le_trans (o.asymm hlt) h1
            · rw [if_neg hpj]
              by_cases hpi : (j - 1) / 2 = i
              · rw [if_pos hpi]
                exact hchild (by omega) j hj hlen hpi
              · rw [if_neg hpi]
                exact hrest j hj hlen hji
        · intro hp0 j hj hlen hpj
          rw [length_heapSwap] at hlen
          have hup := hrest ((i - 1) / 2) hp0 hp (by omega)
          rw [hat, hat, if_neg (by omega : ¬ j = (i - 1) / 2), if_neg (by omega : ¬ ((i - 1) / 2 - 1) / 2 = (i - 1) / 2),
            if_neg (by omega : ¬ ((i - 1) / 2 - 1) / 2 = i)]
          by_cases hji : j = i
          · rw [if_pos hji]
            exact hup
          · rw [if_neg hji]
            have h1 := hrest j hj hlen hji
            rw [hpj] at h1
            exact o.le_trans hup h1
      · rename_i hlt
        intro j hj hlen
        by_cases hji : j = i
        · subst hji
          simpa using hlt
        · exact hrest j hj hlen hji

theorem heapAt_append_left {h : List Nat} {i : Nat} (x : Nat) (hi : i < h.length) : heapAt (h ++ [x]) i = heapAt h i := by
  simp [heapAt, List.getD_eq_getElem?_getD, List.getElem?_append_left hi]

/-- What push does (R164): the entries are the old ones and `x`, and the heap property is kept. -/
theorem heapPush_spec {lt : Nat → Nat → Bool} (o : IsOrder lt) {h : List Nat} (x : Nat) (hh : IsHeap lt h) :
    IsHeap lt (heapPush lt h x) ∧ (heapPush lt h x).Perm (x :: h) := by
  have hlen : h.length < (h ++ [x]).length := by simp
  constructor
  · refine siftUp_isHeap o _ hlen (Nat.le_refl _) ?_ ?_
    · intro j hj hjl hne
      have hjh : j < h.length := by simp at hjl; omega
      rw [heapAt_append_left x hjh, heapAt_append_left x (by omega)]
      exact hh j hj hjh
    · intro _ j hj hjl hpj
      simp at hjl
      omega
  · exact (siftUp_perm lt _ hlen).trans (List.perm_append_singleton x h)

theorem length_heapPush (lt : Nat → Nat → Bool) (h : List Nat) (x : Nat) : (heapPush lt h x).length = h.length + 1 := by
  simp [heapPush, length_siftUp]

/-! ## Pop -/

theorem length_siftDown (lt : Nat → Nat → Bool) (fuel : Nat) (h : List Nat) (i : Nat) :
    (siftDown lt fuel h i).length = h.length := by
  induction fuel generalizing h i with
  | zero => rfl
  | succ fuel ih =>
    simp only [siftDown]
    split
    · rfl
    · rw [ih, length_heapSwap]

/-- The index pop goes on with: `m`, or a child in the heap whose entry goes before that of `m`. -/
theorem lesserOf_cases (lt : Nat → Nat → Bool) (h : List Nat) (m c : Nat) :
    (lesserOf lt h m c = c ∧ c < h.length ∧ lt (heapAt h c) (heapAt h m) = true) ∨
    (lesserOf lt h m c = m ∧ (c < h.length → lt (heapAt h c) (heapAt h m) = false)) := by
  simp only [lesserOf]
  split
  · rename_i hc
    simp only [Bool.and_eq_true, decide_eq_true_eq] at hc
    exact .inl ⟨rfl, hc.1, hc.2⟩
  · rename_i hc
    simp only [Bool.and_eq_true, decide_eq_true_eq, not_and] at hc
    exact .inr ⟨rfl, fun hlen => by simpa using hc hlen⟩

/-- The index pop goes on with is `i`, no child going before it, or a child whose entry goes before that of `i` and not after
that of the other child. -/
theorem lesserChild_cases {lt : Nat → Nat → Bool} (o : IsOrder lt) (h : List Nat) (i : Nat) :
    let m := lesserOf lt h (lesserOf lt h i (2 * i + 1)) (2 * i + 2)
    (m = i ∧ ∀ j, 0 < j → j < h.length → (j - 1) / 2 = i → lt (heapAt h j) (heapAt h i) = false) ∨
    (i < m ∧ m < h.length ∧ (m - 1) / 2 = i ∧ lt (heapAt h m) (heapAt h i) = true ∧
      ∀ j, 0 < j → j < h.length → (j - 1) / 2 = i → lt (heapAt h j) (heapAt h m) = false) := by
  intro m
  have hj : ∀ j, 0 < j → (j - 1) / 2 = i → j = 2 * i + 1 ∨ j = 2 * i + 2 := by omega
  rcases lesserOf_cases lt h i (2 * i + 1) with ⟨e1, l1, b1⟩ | ⟨e1, b1⟩ <;>
    rcases lesserOf_cases lt h (lesserOf lt h i (2 * i + 1)) (2 * i + 2) with ⟨e2, l2, b2⟩ | ⟨e2, b2⟩
  · right
    have hm : m = 2 * i + 2 := e2
    rw [e1] at b2
    rw [hm]
    refine ⟨by omega, l2, by omega, o.trans b2 b1, fun j j0 _ jp => ?_⟩
    rcases hj j j0 jp with rfl | rfl
    · exact o.asymm b2
    · exact o.irrefl _
  · right
    have hm : m = 2 * i + 1 := e2.trans e1
    rw [e1] at b2
    rw [hm]
    refine ⟨by omega, l1, by omega, b1, fun j j0 jl jp => ?_⟩
    rcases hj j j0 jp with rfl | rfl
    · exact o.irrefl _
    · exact b2 jl
  · right
    have hm : m = 2 * i + 2 := e2
    rw [e1] at b2
    rw [hm]
    refine ⟨by omega, l2, by omega, b2, fun j j0 jl jp => ?_⟩
    rcases hj j j0 jp with rfl | rfl
    · exact o.le_trans (o.asymm b2) (b1 jl)
    · exact o.irrefl _
  · left
    have hm : m = i := e2.trans e1
    rw [e1] at b2
    refine ⟨hm, fun j j0 jl jp => ?_⟩
    rcases hj j j0 jp with rfl | rfl
    · exact b1 jl
    · exact b2 jl

theorem siftDown_perm {lt : Nat → Nat → Bool} (o : IsOrder lt) (fuel : Nat) {h : List Nat} {i : Nat} (hi : i < h.length) :
    (siftDown lt fuel h i).Perm h := by
  induction fuel generalizing h i with
  | zero => exact .refl _
  | succ fuel ih =>
    simp only [siftDown]
    split
    · exact .refl _
    · rename_i hm
      rcases lesserChild_cases o h i with ⟨hmi, -⟩ | ⟨-, hml, -⟩
      · exact absurd hmi hm
      · exact (ih (by simpa using hml)).trans (heapSwap_perm hi hml)

theorem siftDown_isHeap {lt : Nat → Nat → Bool} (o : IsOrder lt) (fuel : Nat) {h : List Nat} {i : Nat}
    (hfuel : h.length ≤ i + fuel) (hi : i < h.length ∨ fuel = 0)
    (hrest : ∀ j, 0 < j → j < h.length → (j - 1) / 2 ≠ i → lt (heapAt h j) (heapAt h ((j - 1) / 2)) = false)
    (hchild : 0 < i → ∀ j, 0 < j → j < h.length → (j - 1) / 2 = i → lt (heapAt h j) (heapAt h ((i - 1) / 2)) = false) :
    IsHeap lt (siftDown lt fuel h i) := by
  induction fuel generalizing h i with
  | zero =>
    intro j hj hlen
    exact hrest j hj hlen (by simp only [siftDown] at hlen; omega)
  | succ fuel ih =>
    replace hi : i < h.length := by omega
    simp only [siftDown]
    rcases lesserChild_cases o h i with ⟨hm, hle⟩ | ⟨him, hml, hpm, hlt, hle⟩
    · rw [if_pos hm]
      intro j hj hlen
      by_cases hpj : (j - 1) / 2 = i
      · rw [hpj]
        exact hle j hj hlen hpj
      · exact hrest j hj hlen hpj
    · rw [if_neg (by omega)]
      generalize lesserOf lt h (lesserOf lt h i (2 * i + 1)) (2 * i + 2) = m at *
      have hat := heapAt_heapSwap (h := h) hi hml
      refine ih (by simpa using by omega) (by rw [length_heapSwap]; omega) ?_ ?_
      · intro j hj hlen hpj
        rw [length_heapSwap] at hlen
        rw [hat, hat, if_neg hpj]
        by_cases hjm : j = m
        · subst hjm
          rw [if_pos rfl, if_pos hpm]
          exact o.asymm hlt
        · rw [if_neg hjm]
          by_cases hji : j = i
          · subst hji
            rw [if_pos rfl, if_neg (by omega)]
            exact hchild hj m (by omega) hml hpm
          · rw [if_neg hji]
            by_cases hpi : (j - 1) / 2 = i
            · rw [if_pos hpi]
              exact hle j hj hlen hpi
            · rw [if_neg hpi]
              exact hrest j hj hlen hpi
      · intro _ j hj hlen hpj
        rw [length_heapSwap] at hlen
        rw [hat, hat, hpm, if_neg (by omega : ¬ j = m), if_neg (by omega : ¬ j = i), if_neg (by omega : ¬ i = m), if_pos rfl]
        have h1 := hrest j hj hlen (by omega)
        rwa [hpj] at h1

theorem heap_root_least {lt : Nat → Nat → Bool} (o : IsOrder lt) {h : List Nat} (hh : IsHeap lt h) (i : Nat)
    (hi : i < h.length) : lt (heapAt h i) (heapAt h 0) = false := by
  induction i using Nat.strongRecOn with
  | ind i ih =>
    by_cases h0 : i = 0
    · subst h0
      exact o.irrefl _
    · exact o.le_trans (ih ((i - 1) / 2) (by omega) (by omega)) (hh i (by omega) hi)

/-- What pop does (R165): it answers the least entry and leaves a heap of the others; it answers nothing on an empty heap
alone. -/
theorem heapPop_spec {lt : Nat → Nat → Bool} (o : IsOrder lt) {h : List Nat} (hh : IsHeap lt h) :
    (h = [] ∧ heapPop lt h = none) ∨
    ∃ r h', heapPop lt h = some (r, h') ∧ (r :: h').Perm h ∧ IsHeap lt h' ∧ ∀ x ∈ h, lt x r = false := by
  cases h with
  | nil => exact .inl ⟨rfl, rfl⟩
  | cons r rest =>
    right
    have hleast : ∀ x ∈ r :: rest, lt x r = false := by
      intro x hx
      obtain ⟨i, hi, rfl⟩ := List.mem_iff_getElem.mp hx
      have := heap_root_least o hh i hi
      have hget : (r :: rest)[i]? = some (r :: rest)[i] := List.getElem?_eq_getElem hi
      simp only [heapAt, List.getD_eq_getElem?_getD, hget] at this
      exact this
    rcases List.eq_nil_or_concat rest with rfl | ⟨mid, z, rfl⟩
    · exact ⟨r, [], rfl, .refl _, fun i _ hl => absurd hl (by simp), hleast⟩
    · simp only [List.concat_eq_append] at *
      have hdrop : (r :: (mid ++ [z])).dropLast = r :: mid := by
        rw [← List.cons_append, List.dropLast_concat]
      have hlast : (r :: (mid ++ [z])).getLastD 0 = z := by simp [List.getLastD]
      have hpop : heapPop lt (r :: (mid ++ [z])) = some (r, siftDown lt (r :: mid).length (z :: mid) 0) := by
        simp only [heapPop, hdrop, hlast]
      refine ⟨r, _, hpop, ?_, ?_, hleast⟩
      · refine List.Perm.cons r ((siftDown_perm o _ (by simp)).trans ?_)
        exact (List.perm_append_singleton z mid).symm
      · refine siftDown_isHeap o _ (by simp) (by simp) ?_ (by simp)
        intro j hj hlen hpj
        have hat : ∀ k, 0 < k → k < (z :: mid).length → heapAt (z :: mid) k = heapAt (r :: (mid ++ [z])) k := by
          intro k hk hkl
          obtain ⟨k, rfl⟩ : ∃ n, k = n + 1 := ⟨k - 1, by omega⟩
          have : k < mid.length := by simpa using hkl
          simp [heapAt, List.getD_eq_getElem?_getD, List.getElem?_append_left this]
        rw [hat j hj hlen, hat _ (by omega) (by omega)]
        exact hh j hj (by simp at hlen ⊢; omega)

theorem length_heapPop {lt : Nat → Nat → Bool} {h h' : List Nat} {r : Nat} (hp : heapPop lt h = some (r, h')) :
    h.length = h'.length + 1 := by
  cases h with
  | nil => simp [heapPop] at hp
  | cons a rest =>
    simp only [heapPop] at hp
    split at hp
    · rename_i hd
      have hl := congrArg List.length hd
      simp only [List.length_dropLast, List.length_cons, List.length_nil] at hl
      simp only [Option.some.injEq, Prod.mk.injEq] at hp
      rw [← hp.2]
      simp only [List.length_cons, List.length_nil]
      omega
    · rename_i b mid hd
      have hl := congrArg List.length hd
      simp only [List.length_dropLast, List.length_cons] at hl
      simp only [Option.some.injEq, Prod.mk.injEq] at hp
      rw [← hp.2, length_siftDown]
      simp only [List.length_cons]
      omega

/-- Pushes in a row: a heap of the old entries and the new ones (R166). -/
theorem heapFill_spec {lt : Nat → Nat → Bool} (o : IsOrder lt) (xs : List Nat) {h : List Nat} (hh : IsHeap lt h) :
    IsHeap lt (heapFill lt h xs) ∧ (heapFill lt h xs).Perm (xs ++ h) := by
  induction xs generalizing h with
  | nil => exact ⟨hh, .refl _⟩
  | cons x xs ih =>
    obtain ⟨h1, h2⟩ := heapPush_spec o x hh
    obtain ⟨h3, h4⟩ := ih h1
    refine ⟨h3, h4.trans ?_⟩
    exact (List.Perm.append_left xs h2).trans List.perm_middle

end Sys2Proof.Machine
end

