-- ==== Sys2Proof/Laws/PerInstr.lean ====
section
/-! SUPPORT. The statements made of every command as syntax, one lemma per constructor. -/

namespace Sys2Proof.Laws.EncodingRoundTrip

/-- A command is well formed, and its word decodes back to it, as the table's word does too (30_encoding.md R111). -/
def Statement (i : Sys2Proof.Instr) : Prop :=
  i.wellFormed = true ∧ Sys2Proof.decode (Sys2Proof.encode i) = some i ∧
    Sys2Proof.decodeTableWord 32 (Sys2Proof.encode i).toNat = some i

theorem nop : Statement .nop := ⟨rfl, rfl, rfl⟩

theorem clrw : Statement .clrw := ⟨rfl, rfl, rfl⟩

theorem build : Statement .build := ⟨rfl, rfl, rfl⟩

theorem encode : Statement .encode := ⟨rfl, rfl, rfl⟩

theorem decode : Statement .decode := ⟨rfl, rfl, rfl⟩

end Sys2Proof.Laws.EncodingRoundTrip
end

