-- ==== Sys2Proof/Laws/Step.lean ====
section
/-! SUPPORT. What a step and a host transaction can do: the inversion lemmas that proofs about every step cite. -/

namespace Sys2Proof.Machine

variable {s t : State}

/-- The engine's turn: the block idles, runs a command, or completes with ILLEGAL_COMMAND (R143, R149, R292). -/
theorem engineTurn_cases (h : engineTurn s = .next t) :
    (s.engineEnabled = false ∧ t = s) ∨
    (s.engineEnabled = true ∧ ∃ i, decode s.pending = some i ∧ exec i s = .next t) ∨
    (s.engineEnabled = true ∧ decode s.pending = none ∧ t = s.completeWith .illegalCommand s.pending) := by
  simp only [engineTurn] at h
  split at h
  · rename_i he
    simp only [engineStep] at h
    split at h
    · rename_i i hd
      exact .inr (.inl ⟨he, i, hd, h⟩)
    · rename_i hd
      simp only [execIllegal, Host.Outcome.next.injEq] at h
      exact .inr (.inr ⟨he, hd, h.symm⟩)
  · rename_i he
    simp only [Host.Outcome.next.injEq] at h
    exact .inl ⟨by simpa using he, h.symm⟩

/-- Everything a step can do: the engine's turn, or one event taken off the list. -/
theorem step_cases (h : step s = .next t) :
    (s.bus = [] ∧ engineTurn s = .next t) ∨
    ∃ e rest, s.bus = e :: rest ∧
      ((e = .engine ∧ engineTurn { s with bus := rest } = .next t) ∨
       (∃ a, e = .read a ∧ s.rst = true ∧ t = hostReadInReset a { s with bus := rest }) ∨
       (∃ a, e = .read a ∧ s.rst = false ∧ t = hostRead a { s with bus := rest }) ∨
       (∃ a v, e = .write a v ∧ s.rst = true ∧ t = { s with bus := rest }) ∨
       (∃ a v, e = .write a v ∧ s.rst = false ∧ t = hostWrite a v { s with bus := rest }) ∨
       (e = .rst true ∧ t = ({ s with bus := rest }).enterReset) ∨
       (e = .rst false ∧ t = { s with bus := rest, rst := false })) := by
  simp only [step, turn] at h
  cases hb : s.bus with
  | nil =>
    rw [hb] at h
    exact .inl ⟨rfl, h⟩
  | cons e rest =>
    rw [hb] at h
    refine .inr ⟨e, rest, rfl, ?_⟩
    cases e with
    | engine => exact .inl ⟨rfl, h⟩
    | read a =>
      simp only [takeEvent, Host.Outcome.next.injEq] at h
      cases hr : s.rst with
      | true => exact .inr (.inl ⟨a, rfl, rfl, by simpa [hr] using h.symm⟩)
      | false => exact .inr (.inr (.inl ⟨a, rfl, rfl, by simpa [hr] using h.symm⟩))
    | write a v =>
      simp only [takeEvent, Host.Outcome.next.injEq] at h
      cases hr : s.rst with
      | true => exact .inr (.inr (.inr (.inl ⟨a, v, rfl, rfl, by simpa [hr] using h.symm⟩)))
      | false => exact .inr (.inr (.inr (.inr (.inl ⟨a, v, rfl, rfl, by simpa [hr] using h.symm⟩))))
    | rst level =>
      cases level with
      | true =>
        simp only [takeEvent, Host.Outcome.next.injEq] at h
        exact .inr (.inr (.inr (.inr (.inr (.inl ⟨rfl, h.symm⟩)))))
      | false =>
        simp only [takeEvent, Host.Outcome.next.injEq] at h
        exact .inr (.inr (.inr (.inr (.inr (.inr ⟨rfl, h.symm⟩)))))

/-- Everything a write with BUSY = 1 can do (R61, R141, R26). -/
theorem writeBusy_cases (r : Reg) (v : Word) (s : State) :
    (r = .cmd ∧ s.writeBusy r v = s.dropCommand) ∨ (r = .irqStatus ∧ s.writeBusy r v = s.ackIrq v) ∨
    (r ≠ .cmd ∧ r ≠ .irqStatus ∧ s.writeBusy r v = s) := by
  cases r <;> simp [State.writeBusy]

/-- Everything a write with BUSY = 0 can do (R48, R86). -/
theorem writeIdle_cases (r : Reg) (v : Word) (s : State) :
    (r = .ctrl ∧ s.writeIdle r v = { s with irqEn := v.getLsbD 0, rejectCollision := v.getLsbD 1 }) ∨
    (r = .cmd ∧ s.writeIdle r v = s.accept v) ∨ (r = .irqStatus ∧ s.writeIdle r v = s.ackIrq v) ∨
    (r = .len ∧ s.writeIdle r v = { s with len := v }) ∨
    (r = .sentinel ∧ s.writeIdle r v = { s with pad := v.setWidth 3 }) ∨
    (r = .inPtr ∧ s.writeIdle r v = { s with inPtr := v.toNat % s.cfg.inDepth }) ∨
    (r = .inData ∧ s.writeIdle r v = s.writeInData v) ∨
    (r = .outPtr ∧ s.writeIdle r v = { s with outPtr := v.toNat % s.cfg.outDepth }) ∨
    (r = .outData ∧ s.writeIdle r v = s.writeOutData v) ∨
    (∃ c, r = .weight c ∧ s.writeIdle r v = { s with weight := setSymbol s.weight c v }) ∨
    s.writeIdle r v = s := by
  cases r <;> simp [State.writeIdle]

/-- The side effect of a read: a window's pointer moves, or nothing (R85). -/
theorem readEffect_cases (r : Reg) (s : State) :
    (r = .inData ∧ s.readEffect r = s.advanceIn) ∨ (r = .outData ∧ s.readEffect r = s.advanceOut) ∨
    (r ≠ .inData ∧ r ≠ .outData ∧ s.readEffect r = s) := by
  cases r <;> simp [State.readEffect]

/-- A symbol's entry of a register array after a write (R43). -/
theorem atSymbol_setSymbol {α : Type} (v : Vector α 256) (c d : Byte) (x : α) :
    atSymbol (setSymbol v c x) d = if d = c then x else atSymbol v d := by
  simp only [atSymbol, setSymbol, Vector.getElem_set]
  by_cases h : d = c
  · subst h
    simp
  · have hn : c.toNat ≠ d.toNat := fun hc => h (BitVec.eq_of_toNat_eq hc.symm)
    simp [h, hn]

theorem atSymbol_tabulate {α : Type} (f : Nat → α) (c : Byte) : atSymbol (tabulate 256 f) c = f c.toNat := by
  simp [atSymbol, tabulate]

end Sys2Proof.Machine
end

