-- ==== Sys2Proof/Tests/Slice0.lean ====
section
/-! SUPPORT. The model's own tests: ill-formed terms refused, command words written out from the spec, the spec's vectors
(95_test_vectors.md), and for every statement with hypotheses a state that meets them. -/

set_option Elab.async false

namespace Sys2Proof.Machine.Test

/-! ## Helpers -/

/-- The state an outcome gives; no test takes another outcome. -/
def answer (o : Host.Outcome State Fault Refusal) : State :=
  match o with
  | .next s => s
  | .fault r => nomatch r
  | .refused _ => State.reset

/-- The weight table of V1 (AAABBC). -/
def abcWeights : Vector Word 256 :=
  tabulate 256 (fun i => if i = 0x41 then 3 else if i = 0x42 then 2 else if i = 0x43 then 1 else 0)

/-- The weight table of V7, one symbol. -/
def leafWeights : Vector Word 256 := tabulate 256 (fun i => if i = 0x78 then 5 else 0)

/-- The weight table of V5, a chain of nine symbols. -/
def chainWeights : Vector Word 256 :=
  tabulate 256 (fun i => if i = 0 then 1 else if i < 9 then BitVec.ofNat 32 (2 ^ (i - 1)) else 0)

/-- The weight table of V8. -/
def noWeights : Vector Word 256 := Vector.replicate 256 0#32

def abcTable : CodeTable := tableOf (weightsOf abcWeights)

def leafTable : CodeTable := tableOf (weightsOf leafWeights)

/-- A state with a table, bytes at the start of IN_BUF, LEN their number, and PAD. -/
def loaded (t : CodeTable) (bytes : List Byte) (pad : BitVec 3) : State :=
  { State.reset with
    table := t, inBuf := State.reset.inBuf.writeFrom 0 bytes, len := BitVec.ofNat 32 bytes.length, pad := pad }

/-- The same with OUT_DEPTH = 16. -/
def loadedSmall (t : CodeTable) (bytes : List Byte) (pad : BitVec 3) : State :=
  { loaded t bytes pad with cfg := { inAw := 16, outAw := 4 } }

/-- A table in which one symbol has a codeword of 60 zeros. -/
def longTable : CodeTable :=
  { CodeTable.reset with valid := true, nsym := 1, codelen := setSymbol CodeTable.reset.codelen 0x41 60 }

/-- A running command. -/
def running (v : Word) : State := State.reset.accept v

def abcBytes : List Byte := [0x41, 0x41, 0x41, 0x42, 0x42, 0x43]

theorem abcTable_built : abcTable.Built := ⟨abcWeights, rfl⟩

theorem leafTable_built : leafTable.Built := ⟨leafWeights, rfl⟩

/-! ## Ill-formed terms -/

theorem test_rsvd_refused : (CmdFields.mk 1#24 0x02#8).wellFormed = false := by decide

theorem test_opcode_refused : (CmdFields.mk 0#24 0x05#8).wellFormed = false := by decide

theorem test_depth_refused :
    [Config.mk 3 16, Config.mk 25 16, Config.mk 16 3, Config.mk 16 25].all (fun c => !c.wf) = true := by decide

theorem test_memory_refused :
    (Memory.mk 0 [(3, 1), (3, 2)]).wf 16 = false ∧ (Memory.mk 0 [(4, 1), (3, 2)]).wf 16 = false ∧
      (Memory.mk 0 [(16, 1)]).wf 16 = false := by decide

/-! ## Command words, bit by bit from R110 and R111 -/

theorem test_decode_nop : decode 0b00000000000000000000000000000000#32 = some .nop := by decide

theorem test_decode_clrw : decode 0b00000000000000000000000000000001#32 = some .clrw := by decide

theorem test_decode_build : decode 0b00000000000000000000000000000010#32 = some .build := by decide

theorem test_decode_encode : decode 0b00000000000000000000000000000011#32 = some .encode := by decide

theorem test_decode_decode : decode 0b00000000000000000000000000000100#32 = some .decode := by decide

theorem test_decode_reserved : decode 0x00000005#32 = none ∧ decode 0x000000FF#32 = none := by decide

theorem test_decode_rsvd : decode 0x00000105#32 = none ∧ decode 0x80000002#32 = none := by decide

/-! ## The spec's vectors -/

/-- V40. -/
theorem test_nop :
    (answer (step (State.reset.withFetchWord 32 0))).irqStatusWord = 0x1 ∧
      (answer (step (State.reset.withFetchWord 32 0))).errCode = .none := by decide

/-- V41. -/
theorem test_clrw :
    (answer (exec .clrw { State.reset with weight := abcWeights, table := abcTable })).exactRead (.weight 0x41) = 0 ∧
      (answer (exec .clrw { State.reset with weight := abcWeights, table := abcTable })).exactRead (.codelen 0x41) = 1 := by
  decide +kernel

/-- V1: the tree. -/
theorem test_build_tree :
    let t := answer (exec .build { State.reset with weight := abcWeights })
    t.exactRead (.node 0 0) = 0x00420043 ∧ t.exactRead (.node 1 0) = 0x01000041 ∧ t.exactRead .root = 0x101 ∧
      t.exactRead .status = 0x2 := by decide +kernel

/-- V6: a rejected chain of nine. -/
theorem test_build_rejected :
    let t := answer (exec .build { State.reset with weight := chainWeights, rejectCollision := true })
    t.errCode = .markerCollision ∧ t.errInfo = 8 ∧ t.exactRead .status = 0x4 := by decide +kernel

/-- V20. -/
theorem test_encode :
    let t := answer (exec .encode (loaded abcTable abcBytes 0))
    t.outBuf.cells = [(0, 0x1F), (1, 0x7F), (2, 0xFF)] ∧ t.outLen = 3 ∧ t.encBits = 9 ∧ t.exactRead .sentinel = 0xF7 := by
  decide +kernel

/-- V22: the first symbol that is not in the table. -/
theorem test_encode_missing :
    let t := answer (exec .encode (loaded abcTable [0x41, 0x58, 0x42] 0))
    t.errCode = .symbolNotInTable ∧ t.errInfo = 1 := by decide +kernel

/-- V30. -/
theorem test_decode_stream :
    let t := answer (exec .decode (loaded abcTable [0x1F, 0x7F, 0xFF] 7))
    t.outBuf.cells.map Prod.snd = abcBytes ∧ t.outLen = 6 ∧ t.errCode = .none := by decide +kernel

/-- V32: 77 FE with PAD 3. -/
theorem test_decode_terminator :
    let t := answer (exec .decode (loaded abcTable [0x77, 0xFE] 3))
    t.errCode = .unknownCodeword ∧ t.errInfo = 15 ∧ t.outLen = 0 := by decide +kernel

/-- V42. -/
theorem test_illegal :
    let t := answer (step (State.reset.withFetchWord 32 0x105))
    t.errCode = .illegalCommand ∧ t.errInfo = 0x105 ∧ t.irqStatusWord = 0x3 := by decide

/-- V45, V46: a command and a LEN write while BUSY = 1. -/
theorem test_busy_writes :
    (hostWrite 0x00C 0x3 (running 2)).pending = 2 ∧ (hostWrite 0x00C 0x3 (running 2)).irqDropped = true ∧
      (hostWrite 0x020 5 (running 2)).len = 0 := by decide

/-- V51, V52. -/
theorem test_sentinel :
    (hostWrite 0x028 0xFFFFFFFF State.reset).exactRead (regOf 0x02B) = 0xF7 := by decide

/-- V56: the pointer wraps. -/
theorem test_window_wraps :
    let s := { State.reset with cfg := { inAw := 4, outAw := 4 }, inPtr := 15 }
    (hostWrite 0x054 0xAB s).inPtr = 0 ∧ (hostWrite 0x054 0xAB s).inBuf.cells = [(15, 0xAB)] := by decide

/-- V58. -/
theorem test_write_one_clears :
    (hostWrite 0x014 0x5 { State.reset with irqDone := true, irqError := true, irqDropped := true }).irqStatusWord = 0x2 := by
  decide

/-- R130 to R133: the transactions of a short program. -/
theorem test_program_events :
    programEvents [.run .build 1, .loadin [0x41], .readout 1] =
      [.write 0x014 0x7, .write 0x00C 0x2, .read 0x010, .engine, .read 0x010, .write 0x050 0, .write 0x054 0x41,
       .write 0x058 0, .read 0x05C] := by decide

/-! ## States that meet the statements' hypotheses -/

theorem meets_PackingAndReadingAreInverse : 8 ∣ (ones 16).length ∧ 8 ∣ ([] : List Bool).length := by decide

theorem meets_StepRunsTheDecodedCommand :
    (running 4).busy = true ∧ (running 4).rst = false ∧ decode (running 4).pending = some .decode ∧ (running 4).bus = [] ∧
      ({ running 4 with bus := [.engine] }).bus = .engine :: [] := by decide

theorem meets_StepRunsTheDecodedCommand_host :
    State.reset.rst = false ∧ ({ running 2 with bus := [.read 0x054] }).bus = .read 0x054 :: [] ∧
      ({ running 2 with bus := [.write 0x014 7] }).bus = .write 0x014 7 :: [] := by decide

theorem meets_StepRunsTheDecodedCommand_idle :
    State.reset.busy = false ∧ State.reset.enterReset.rst = true ∧ State.reset.bus = [] ∧
      ({ State.reset.enterReset with bus := [.engine] }).bus = .engine :: [] := by decide

theorem meets_StepRunsTheDecodedCommand_edge :
    ({ running 2 with bus := [.rst true, .rst false] }).bus = .rst true :: [.rst false] ∧
      ({ State.reset.enterReset with bus := [.rst false] }).bus = .rst false :: [] := by decide

theorem meets_IllegalWordCompletesWithIllegalCommand :
    (running 0x100).busy = true ∧ (running 0x100).rst = false ∧ (running 0x100).bus = [] ∧
      (running 0x100).pending.extractLsb' 8 24 ≠ 0#24 ∧ 5 ≤ ((running 0x5).pending.extractLsb' 0 8).toNat ∧
      ({ running 0x5 with bus := [.engine, .read 0x010] }).bus = .engine :: [.read 0x010] := by decide

theorem meets_PendingCommandCompletesAfterHostTransactions :
    (running 2).busy = true ∧ (running 2).rst = false ∧
      ∀ e ∈ [BusEvent.read 0x010, BusEvent.write 0x020 5], e.isHost = true := by decide

theorem meets_HostTransactionsKeepWhatACommandReads : (running 3).busy = true := rfl

theorem meets_CommandResultIsAFunctionOfItsInputs :
    SameForEngine (running 1) { running 1 with draws := 9, inPtr := 3 } ∧
      (∃ t, engineStep (running 1) = .next t ∧ t.errCode = .none) ∧
      ∃ v, engineStep { running 1 with draws := 9, inPtr := 3 } = .next v :=
  ⟨by constructor <;> rfl, ⟨_, rfl, rfl⟩, ⟨_, rfl⟩⟩

/-- States that agree on BUILD's operands alone. -/
theorem meets_CommandResultIsAFunctionOfItsInputs_build :
    ({ State.reset with len := 9, pad := 3 }).weight = State.reset.weight ∧
      ({ State.reset with len := 9, pad := 3 }).rejectCollision = State.reset.rejectCollision ∧
      (∃ t, exec .build State.reset = .next t ∧ t.errCode = .none) ∧
      ∃ v, exec .build { State.reset with len := 9, pad := 3 } = .next v :=
  ⟨rfl, rfl, ⟨_, rfl, by decide +kernel⟩, ⟨_, rfl⟩⟩

/-- States that agree on the operands of ENCODE and DECODE alone, both of which complete without error. -/
theorem meets_CommandResultIsAFunctionOfItsInputs_stream :
    let s := loaded abcTable [0x41] 7
    let u := { s with weight := abcWeights, errInfo := 3, outLen := 8, encBits := 1, outPtr := 2, irqEn := true }
    SameStreamOperands s u ∧ u.pad = s.pad ∧ s.table.nsym ≠ 0#9 ∧
      (answer (exec .encode s)).errCode = .none ∧ 0 < (answer (exec .encode s)).outLen.toNat :=
  ⟨⟨rfl, rfl, rfl, fun _ _ => rfl⟩, rfl, by decide +kernel, by decide +kernel, by decide +kernel⟩

theorem meets_CommandResultIsAFunctionOfItsInputs_decode :
    let s := loaded abcTable [0x7F, 0xFF] 7
    (answer (exec .decode s)).errCode = .none ∧ (answer (exec .decode s)).outLen = 1 := by decide +kernel

theorem meets_BuildStoresTheTable :
    (tableOf ({ State.reset with weight := abcWeights } : State).weights).mcoll = false ∧
      ({ State.reset with weight := chainWeights } : State).rejectCollision = false := by decide +kernel

theorem meets_BuildRejectsACollision :
    (tableOf ({ State.reset with weight := chainWeights, rejectCollision := true } : State).weights).mcoll = true ∧
      ({ State.reset with weight := chainWeights, rejectCollision := true } : State).rejectCollision = true ∧
      (tableOf ({ State.reset with weight := chainWeights } : State).weights).mcoll = true ∧
      ({ State.reset with weight := chainWeights } : State).rejectCollision = false := by
  decide +kernel

theorem meets_BuildOfTheEmptyAlphabet : ∀ c : Byte, atSymbol State.reset.weight c = 0 := by
  intro c
  simp [State.reset, atSymbol]

theorem meets_BuildOfOneSymbol :
    atSymbol leafWeights 0x78 ≠ 0 ∧ ∀ d : Byte, d ≠ 0x78 → atSymbol leafWeights d = 0 := by
  refine ⟨by decide +kernel, fun d hd => ?_⟩
  have hn : d.toNat ≠ 0x78 := fun h => hd (BitVec.eq_of_toNat_eq h)
  simp [leafWeights, atSymbol, tabulate, hn]

theorem meets_BuiltTreeIsFull :
    2 ≤ symbolCount abcWeights ∧ (buildTree (weightsOf abcWeights)).arena[1]? = some ⟨0x41, 0x100, 6⟩ := by decide +kernel

theorem meets_EachMergeTakesTheTwoLeastNodes :
    (buildTree (weightsOf abcWeights)).arena[0]? = some ⟨0x43, 0x42, 3⟩ ∧
      Mergeable (weightsOf abcWeights) (buildTree (weightsOf abcWeights)).arena 0 0x41 := by
  refine ⟨by decide +kernel, .inl ⟨by decide, by decide +kernel⟩, ?_⟩
  intro j nd hj
  omega

theorem meets_MergeWeightsAscend :
    (buildTree (weightsOf abcWeights)).arena = [⟨0x43, 0x42, 3⟩, ⟨0x41, 0x100, 6⟩] := by decide +kernel

theorem meets_CodewordsArePrefixFree :
    abcTable.Built ∧ (0x41#8 : Byte) ≠ 0x42#8 ∧ abcTable.Has 0x41 ∧ abcTable.Has 0x42 :=
  ⟨abcTable_built, by decide, by unfold CodeTable.Has; decide +kernel, by unfold CodeTable.Has; decide +kernel⟩

theorem meets_KraftSumOfABuiltTable :
    abcTable.Built ∧ 2 ≤ abcTable.nsym.toNat ∧ leafTable.Built ∧ leafTable.nsym.toNat = 1 :=
  ⟨abcTable_built, by decide +kernel, leafTable_built, by decide +kernel⟩

theorem meets_CodeLengthsOfABuiltTable :
    abcTable.Built ∧ ¬ abcTable.Has 0x44 ∧ 2 ≤ abcTable.nsym.toNat ∧ abcTable.Has 0x43 ∧ abcTable.nsym.toNat ≠ 0 ∧
      (tableOf (weightsOf noWeights)).Built ∧ (tableOf (weightsOf noWeights)).nsym.toNat = 0 :=
  ⟨abcTable_built, by unfold CodeTable.Has; decide +kernel, by decide +kernel, by unfold CodeTable.Has; decide +kernel,
    by decide +kernel, ⟨noWeights, rfl⟩, by decide +kernel⟩

theorem meets_PathLengthIsTheSumOfNodeWeights :
    2 ≤ symbolCount abcWeights ∧ symbolCount leafWeights = 1 ∧ symbolCount noWeights = 0 := by decide +kernel

/-- The present symbols of V1. -/
theorem abcWeights_present (a : Byte) (h : atSymbol abcWeights a ≠ 0) : a = 0x41 ∨ a = 0x42 ∨ a = 0x43 := by
  have hv : atSymbol abcWeights a =
      if a.toNat = 0x41 then 3 else if a.toNat = 0x42 then 2 else if a.toNat = 0x43 then 1 else 0 := by
    simp [abcWeights, atSymbol, tabulate]
  rw [hv] at h
  by_cases h1 : a.toNat = 0x41
  · exact .inl (BitVec.eq_of_toNat_eq h1)
  · by_cases h2 : a.toNat = 0x42
    · exact .inr (.inl (BitVec.eq_of_toNat_eq h2))
    · by_cases h3 : a.toNat = 0x43
      · exact .inr (.inr (BitVec.eq_of_toNat_eq h3))
      · simp [h1, h2, h3] at h

/-- A prefix code for V1's weights that is not the one BUILD makes. -/
def otherCode (c : Byte) : List Bool := if c = 0x41 then [true] else if c = 0x42 then [false, true] else [false, false]

theorem meets_HuffmanCodeIsOptimal :
    2 ≤ symbolCount abcWeights ∧
      ∀ a b : Byte, a ≠ b → atSymbol abcWeights a ≠ 0 → atSymbol abcWeights b ≠ 0 → ¬ otherCode a <+: otherCode b := by
  refine ⟨by decide +kernel, fun a b hab ha hb => ?_⟩
  rcases abcWeights_present a ha with rfl | rfl | rfl <;> rcases abcWeights_present b hb with rfl | rfl | rfl <;>
    first
      | exact absurd rfl hab
      | decide

theorem meets_MarkerCollisionIsExact :
    (tableOf (weightsOf chainWeights)).Built ∧ 2 ≤ (tableOf (weightsOf chainWeights)).nsym.toNat ∧
      (tableOf (weightsOf chainWeights)).mcoll = true ∧ leafTable.Built ∧ leafTable.nsym.toNat ≤ 1 :=
  ⟨⟨chainWeights, rfl⟩, by decide +kernel, by decide +kernel, leafTable_built, by decide +kernel⟩

/-- N = OUT_DEPTH, the boundary. -/
theorem meets_EncodeWritesTheStream :
    let s := loadedSmall longTable [0x41, 0x41] 0
    s.table.valid = true ∧ s.len.toNat ≤ s.cfg.inDepth ∧ (∀ c ∈ s.inputBytes, atSymbol s.table.codelen c ≠ 0#9) ∧
      ¬ (s.table.nsym = 0#9 ∧ s.len = 0#32) ∧
      ((s.inputBytes.flatMap s.table.codewordOf).length + (8 - (s.inputBytes.flatMap s.table.codewordOf).length % 8) % 8 + 8) / 8
        = s.cfg.outDepth := by decide +kernel

theorem meets_EncodeOfTheEmptyAlphabet_symbol :
    let s := loaded (tableOf (weightsOf noWeights)) [0x41] 5
    s.table.Built ∧ s.table.nsym = 0#9 ∧ s.len ≠ 0#32 ∧ s.len.toNat ≤ s.cfg.inDepth :=
  ⟨⟨noWeights, rfl⟩, by decide +kernel, by decide, by decide⟩

theorem meets_EncodeOfTheEmptyAlphabet :
    let s := loaded { CodeTable.reset with valid := true } [] 5
    s.table.valid = true ∧ s.table.nsym = 0#9 ∧ s.len = 0#32 := by decide

theorem meets_EncodeErrorsInOrder_table : State.reset.table.valid = false := rfl

theorem meets_EncodeErrorsInOrder_length :
    let s := { loaded longTable [] 0 with len := 65537 }
    s.table.valid = true ∧ s.cfg.inDepth < s.len.toNat := by decide

theorem meets_EncodeErrorsInOrder_symbol :
    let s := loaded longTable [0x41, 0x58] 0
    s.table.valid = true ∧ s.len.toNat ≤ s.cfg.inDepth ∧ s.inputBytes[1]? = some 0x58 ∧ ¬ s.table.Has 0x58 ∧
      ∀ j d, j < 1 → s.inputBytes[j]? = some d → s.table.Has d := by
  refine ⟨by decide, by decide, by decide +kernel, by unfold CodeTable.Has; decide +kernel, fun j d hj hd => ?_⟩
  have h0 : j = 0 := by omega
  subst h0
  have : (0x41 : Byte) = d := Option.some.inj ((by decide +kernel : some (0x41 : Byte) = _).trans hd)
  subst this
  unfold CodeTable.Has
  decide +kernel

/-- N = OUT_DEPTH + 1, the boundary. -/
theorem meets_EncodeErrorsInOrder_overflow :
    let s := loadedSmall { longTable with codelen := setSymbol CodeTable.reset.codelen 0x41 121 } [0x41] 0
    s.table.valid = true ∧ s.len.toNat ≤ s.cfg.inDepth ∧ (∀ c ∈ s.inputBytes, atSymbol s.table.codelen c ≠ 0#9) ∧
      ¬ (s.table.nsym = 0#9 ∧ s.len = 0#32) ∧
      ((s.inputBytes.flatMap s.table.codewordOf).length + (8 - (s.inputBytes.flatMap s.table.codewordOf).length % 8) % 8 + 8) / 8
        = s.cfg.outDepth + 1 := by decide +kernel

theorem meets_EncodedStreamEndsInOnes :
    (loaded abcTable abcBytes 0).cfg.wf = true ∧ (loaded abcTable abcBytes 0).table.nsym ≠ 0#9 ∧
      ∃ t, exec .encode (loaded abcTable abcBytes 0) = .next t ∧ t.errCode = .none :=
  ⟨by decide, by decide +kernel, _, rfl, by decide +kernel⟩

theorem meets_EncodeLeavesItsInputs : ∃ t, exec .encode State.reset = .next t ∧ t.errCode ≠ .none :=
  ⟨_, rfl, by decide⟩

theorem meets_CodecUsesTheTableNotTheWeights :
    (Instr.encode = .encode ∨ Instr.encode = .decode) ∧ (Instr.decode = .encode ∨ Instr.decode = .decode) := by decide

theorem meets_DecodeRecoversTheSymbols :
    let s := loaded abcTable [0x1F, 0x7F, 0xFF] 7
    s.table.Built ∧ s.table.nsym ≠ 0#9 ∧ s.len.toNat ≤ s.cfg.inDepth ∧ (∀ c ∈ abcBytes, atSymbol s.table.codelen c ≠ 0#9) ∧
      abcBytes.length ≤ s.cfg.outDepth ∧
      streamBits s.inputBytes = abcBytes.flatMap s.table.codewordOf ++ ones (s.pad.toNat + 8) :=
  ⟨abcTable_built, by decide +kernel, by decide, by decide +kernel, by decide, by decide +kernel⟩

theorem meets_DecodeChecksBeforeThePayload :
    State.reset.table.valid = false ∧
    (let s := { loaded longTable [] 0 with len := 65537 }
     s.table.valid = true ∧ s.cfg.inDepth < s.len.toNat) ∧
    (let s := loaded longTable [] 0
     s.table.valid = true ∧ s.len = 0#32) ∧
    (let s := loaded { CodeTable.reset with valid := true } [0xFF] 0
     s.table.valid = true ∧ s.len.toNat ≤ s.cfg.inDepth ∧ s.len ≠ 0#32 ∧ s.table.nsym = 0#9) ∧
    (let s := loaded longTable [0xFF] 1
     s.table.valid = true ∧ s.len.toNat ≤ s.cfg.inDepth ∧ s.len ≠ 0#32 ∧ s.table.nsym ≠ 0#9 ∧
       8 * s.len.toNat < s.pad.toNat + 8) := by decide

/-- V32: 1F 7F FF with PAD 6. -/
theorem meets_DecodeOfAnUnfinishedCodeword :
    let s := loaded abcTable [0x1F, 0x7F, 0xFF] 6
    s.table.Built ∧ s.len.toNat ≤ s.cfg.inDepth ∧ (∀ c ∈ abcBytes, atSymbol s.table.codelen c ≠ 0#9) ∧
      abcBytes.length ≤ s.cfg.outDepth ∧ atSymbol s.table.codelen 0x42 ≠ 0#9 ∧ [true] <+: s.table.codewordOf 0x42 ∧
      [true] ≠ s.table.codewordOf 0x42 ∧ (ones 14).length = s.pad.toNat + 8 ∧
      streamBits s.inputBytes = abcBytes.flatMap s.table.codewordOf ++ [true] ++ ones 14 :=
  ⟨abcTable_built, by decide, by decide +kernel, by decide, by decide +kernel, by decide +kernel, by decide +kernel,
    by decide, by decide +kernel⟩

/-- V32: 77 FE with PAD 3, the last bit of the terminator. -/
theorem meets_DecodeChecksTheTerminator :
    let s := loaded abcTable [0x77, 0xFE] 3
    s.table.Built ∧ s.table.nsym ≠ 0#9 ∧ s.len.toNat ≤ s.cfg.inDepth ∧
      (∀ c ∈ [0x41, 0x42, 0x43], atSymbol s.table.codelen c ≠ 0#9) ∧ [0x41, 0x42, 0x43].length ≤ s.cfg.outDepth ∧
      10 + 1 + ([] : List Bool).length = s.pad.toNat + 8 ∧
      streamBits s.inputBytes = [0x41, 0x42, 0x43].flatMap s.table.codewordOf ++ (ones 10 ++ false :: []) :=
  ⟨abcTable_built, by decide +kernel, by decide, by decide +kernel, by decide, by decide, by decide +kernel⟩

/-- V37: 00 00 00 FF with PAD 0. -/
theorem meets_DecodeOverflowsAtTheSymbolThatDoesNotFit :
    let s := loadedSmall leafTable [0, 0, 0, 0xFF] 0
    s.table.Built ∧ s.len.toNat ≤ s.cfg.inDepth ∧ (∀ c ∈ List.replicate 16 (0x78 : Byte), atSymbol s.table.codelen c ≠ 0#9) ∧
      atSymbol s.table.codelen 0x78 ≠ 0#9 ∧ (List.replicate 16 (0x78 : Byte)).length = s.cfg.outDepth ∧
      s.pad.toNat + 8 ≤ (List.replicate 7 false ++ ones 8).length ∧
      streamBits s.inputBytes = (List.replicate 16 0x78).flatMap s.table.codewordOf ++ s.table.codewordOf 0x78 ++
        (List.replicate 7 false ++ ones 8) :=
  ⟨leafTable_built, by decide, by decide +kernel, by decide +kernel, by decide, by decide, by decide +kernel⟩

/-- V33: 5F FF with PAD 5. -/
theorem meets_DecodeOfAOneBitInAOneLeafTree :
    let s := loaded leafTable [0x5F, 0xFF] 5
    s.table.Built ∧ s.table.nsym = 1#9 ∧ s.len.toNat ≤ s.cfg.inDepth ∧ 1 ≤ s.cfg.outDepth ∧
      s.pad.toNat + 8 ≤ (false :: ones 13).length ∧
      streamBits s.inputBytes = List.replicate 1 false ++ true :: (false :: ones 13) :=
  ⟨leafTable_built, by decide +kernel, by decide, by decide, by decide, by decide +kernel⟩

theorem meets_UnknownCodewordOnlyInTheTerminator :
    (loaded abcTable [0x77, 0xFE] 3).table.Built ∧ 2 ≤ (loaded abcTable [0x77, 0xFE] 3).table.nsym.toNat ∧
      ∃ t, exec .decode (loaded abcTable [0x77, 0xFE] 3) = .next t ∧ t.errCode = .unknownCodeword :=
  ⟨abcTable_built, by decide +kernel, _, rfl, by decide +kernel⟩

theorem meets_DecodeLeavesItsInputs : ∃ t, exec .decode (loaded abcTable [0x1F, 0x7F, 0xFF] 7) = .next t := ⟨_, rfl⟩

/-- The state of the copy: OUT_BUF into IN_BUF, and OUT_LEN into LEN. -/
def copied (t : State) : State := { t with inBuf := t.outBuf, len := t.outLen }

theorem meets_EncodedSequencesDecodeBack :
    (loaded abcTable abcBytes 0).cfg.wf = true ∧ (loaded abcTable abcBytes 0).table.Built ∧
      (loaded abcTable abcBytes 0).len.toNat ≤ (loaded abcTable abcBytes 0).cfg.outDepth ∧
      ∃ t, exec .encode (loaded abcTable abcBytes 0) = .next t ∧ t.errCode = .none ∧
        t.outLen.toNat ≤ (loaded abcTable abcBytes 0).cfg.inDepth ∧ (copied t).cfg = (loaded abcTable abcBytes 0).cfg ∧
        (copied t).table = t.table ∧ (copied t).pad = t.pad ∧ (copied t).len = t.outLen ∧
        ∀ i, i < t.outLen.toNat → (copied t).inBuf.read i = t.outBuf.read i := by
  have h (t : State) (he : t.errCode = .none) (hl : t.outLen.toNat ≤ (loaded abcTable abcBytes 0).cfg.inDepth)
      (hc : t.cfg = (loaded abcTable abcBytes 0).cfg) (hx : exec .encode (loaded abcTable abcBytes 0) = .next t) :=
    (⟨t, hx, he, hl, hc, rfl, rfl, rfl, fun _ _ => rfl⟩ : ∃ t, exec .encode (loaded abcTable abcBytes 0) = .next t ∧
        t.errCode = .none ∧ t.outLen.toNat ≤ (loaded abcTable abcBytes 0).cfg.inDepth ∧
        (copied t).cfg = (loaded abcTable abcBytes 0).cfg ∧
        (copied t).table = t.table ∧ (copied t).pad = t.pad ∧ (copied t).len = t.outLen ∧
        ∀ i, i < t.outLen.toNat → (copied t).inBuf.read i = t.outBuf.read i)
  exact ⟨by decide, abcTable_built, by decide,
    h (answer (exec .encode (loaded abcTable abcBytes 0))) (by decide +kernel) (by decide +kernel) (by decide +kernel) rfl⟩

theorem meets_RegisterMapIsAsListed :
    (Reg.node 254 3).offset = some 0x3FEC ∧ regOf 0x3FEF ≠ .reserved ∧ regOf 0x07FD = .weight 255 ∧
      (0x40000029#32).extractLsb' 2 12 = (0x28#32).extractLsb' 2 12 := by decide

theorem meets_ReservedAndReadOnlyRegisters :
    regOf 0x060 = .reserved ∧ regOf 0x3FC = .reserved ∧ regOf 0xC00 = .reserved ∧ regOf 0xFFC = .reserved ∧
      regOf 0x3FF0 = .reserved ∧ regOf 0x3FFC = .reserved ∧
      (regOf 0x030).gated = true ∧ (regOf 0x3FEC).gated = true ∧ regOf 0x010 = .status := by decide

theorem meets_GatedRegistersReadZero :
    State.reset.busy = false ∧ State.reset.table.valid = false ∧ (regOf 0x04C).gated = true := by decide

theorem meets_WritesWhileBusyAreLost :
    (running 2).busy = true ∧ regOf 0x020 ≠ .irqStatus ∧ regOf 0x020 ≠ .cmd := by decide

theorem meets_CommandWritesAreAcceptedOrDropped :
    regOf 0x00C = .cmd ∧ State.reset.busy = false ∧ (running 2).busy = true := by decide

theorem meets_InterruptFollowsDoneAndEnable :
    (∃ t, engineStep { running 0 with irqEn := true } = .next t) ∧ regOf 0x014 = .irqStatus ∧ (0x1#32).getLsbD 0 = true ∧
      (0x6#32).getLsbD 0 = false ∧ regOf 0x008 = .ctrl ∧ State.reset.busy = false :=
  ⟨⟨_, rfl⟩, by decide⟩

theorem meets_InputWindow : regOf 0x054 = .inData ∧ (running 2).busy = true ∧ State.reset.busy = false := by decide

theorem meets_OutputWindow : regOf 0x05C = .outData ∧ (running 2).busy = true ∧ State.reset.busy = false := by decide

theorem meets_OtherReadsHaveNoSideEffect :
    regOf 0x010 ≠ .inData ∧ regOf 0x010 ≠ .outData ∧ State.reset.busy = false := by decide

theorem meets_StatusWordsHaveTheirBits :
    State.reset.inPtr < 2 ^ 32 ∧ State.reset.outPtr < 2 ^ 32 ∧ abcTable.valid = true ∧ State.reset.busy = false := by
  decide +kernel

/-- V1: NSYM, ROOT, MAXLEN and CODELEN each from its own register; V7: MAXLEN 1 and ONESLEN 0. -/
theorem test_table_registers :
    let s := loaded abcTable [] 0
    s.exactRead (regOf 0x030) = 3 ∧ s.exactRead (regOf 0x034) = 0x101 ∧ s.exactRead (regOf 0x038) = 2 ∧
      s.exactRead (regOf 0x904) = 1 ∧ s.exactRead (regOf 0x908) = 2 ∧
      (loaded leafTable [] 0).exactRead (regOf 0x038) = 1 ∧ (loaded leafTable [] 0).exactRead (regOf 0x03C) = 0 := by
  decide +kernel

/-- V6: an error code's number. -/
theorem test_error_code_word : ({ State.reset with errCode := .markerCollision }).exactRead (regOf 0x018) = 8 := by decide

theorem meets_HostOwnedReadsStayExact :
    (running 2).busy = true ∧ Reg.reserved ∈ [Reg.id, Reg.reserved] ∧ (∃ c, Reg.weight 0xFF = .weight c) ∧
      (running 2).pending ≠ 0x00000001#32 := ⟨rfl, by decide, ⟨_, rfl⟩, by decide⟩

theorem meets_PlainWritesStoreTheirField :
    State.reset.busy = false ∧ regOf 0x008 = .ctrl ∧ regOf 0x020 = .len ∧ regOf 0x028 = .sentinel ∧ regOf 0x050 = .inPtr ∧
      regOf 0x058 = .outPtr ∧ regOf 0x400 = .weight 0 ∧ regOf 0x7FC = .weight 255 ∧ regOf 0x014 = .irqStatus := by
  decide

theorem meets_TableWordsMakeUpTheirValues :
    abcTable.valid = true ∧ 1 + 1 < abcTable.nsym.toNat ∧ abcTable.nsym.toNat ≤ (2#8).toNat + 1 := by decide +kernel

theorem meets_ResetGivesEveryRegisterItsValue :
    Reg.sentinel ≠ .inData ∧ Reg.sentinel ≠ .outData ∧ ({ running 2 with bus := [.rst true] }).bus = .rst true :: [] := by
  decide

theorem meets_TransactionsInResetHaveNoEffect :
    (State.reset.enterReset).rst = true ∧
      ({ State.reset.enterReset with bus := [.write 0x00C 2] }).bus = .write 0x00C 2 :: [] ∧
      ({ State.reset.enterReset with bus := [.read 0x054] }).bus = .read 0x054 :: [] := by decide

/-- A state with a valid table, input bytes and a command running meets the invariant. -/
theorem meets_StepKeepsTheInvariant :
    ({ loaded abcTable abcBytes 7 with pending := 3, busy := true }).Inv ∧
      ∃ t, step { loaded abcTable abcBytes 7 with pending := 3, busy := true } = .next t := by
  refine ⟨?_, _, rfl⟩
  constructor
  · decide
  · decide
  · decide
  · decide
  · decide
  · decide
  · decide
  · decide
  · exact fun _ => rfl
  · rfl
  · exact fun _ => abcTable_built
  · exact fun h => by cases h

theorem meets_RecordedNumbersFitTheirRegister :
    ({ loaded abcTable abcBytes 7 with pending := 3, busy := true }).Inv ∧ abcTable.valid = true ∧
      (loaded abcTable abcBytes 7).len.toNat ≤ (loaded abcTable abcBytes 7).cfg.inDepth :=
  ⟨meets_StepKeepsTheInvariant.1, by decide +kernel, by decide⟩

/-- Each clause on ENCODE's and DECODE's outcomes: V20, V22, V30, V32. -/
theorem meets_RecordedNumbersFitTheirRegister_outcomes :
    (answer (exec .encode (loaded abcTable abcBytes 0))).errCode = .none ∧
    (answer (exec .encode (loaded abcTable [0x41, 0x58, 0x42] 0))).errCode = .symbolNotInTable ∧
    (answer (exec .encode (loadedSmall longTable [0x41, 0x41, 0x41] 0))).errCode = .outputOverflow ∧
    (answer (exec .decode (loaded abcTable [0x1F, 0x7F, 0xFF] 7))).errCode = .none ∧
    (answer (exec .decode (loadedSmall leafTable [0, 0, 0, 0xFF] 0))).errCode = .outputOverflow ∧
    (answer (exec .decode (loaded abcTable [0x77, 0xFE] 3))).errCode = .unknownCodeword ∧
    (answer (exec .decode (loaded abcTable [0x1F, 0x7F, 0xFF] 6))).errCode = .truncatedStream ∧
    (answer (exec .decode (loaded abcTable [0xFF] 1))).errCode = .truncatedStream := by decide +kernel

end Sys2Proof.Machine.Test
end

section
/-! PROOFS. What every step and every command keep: a step always answers, a command completes within its frame, and a
host transaction leaves a running command waiting (00_scope.md R12; 40_commands.md R142, R148, R149). -/

namespace Sys2Proof.Machine

variable {s t u : State}

/-! ### A command completes -/

theorem exec_next (i : Instr) (s : State) : ∃ t, exec i s = .next t := by
  cases i <;> exact ⟨_, rfl⟩

theorem engineTurn_next (s : State) : ∃ t, engineTurn s = .next t := by
  simp only [engineTurn, engineStep]
  split
  · split
    · exact exec_next _ s
    · exact ⟨_, rfl⟩
  · exact ⟨_, rfl⟩

/-- The one place where a command ends (R142): it does the completion writes and keeps the frame. -/
theorem completeWith_ends (code : ErrCode) (info : Word) (hirq : u.irqError = s.irqError) (hframe : CommandFrame s u) :
    Completed s (u.completeWith code info) code info ∧ CommandFrame s (u.completeWith code info) :=
  ⟨⟨rfl, rfl, rfl, rfl, by simp [hirq]⟩, by cases hframe; constructor <;> assumption⟩

/-- Every command ends in the completion writes, with some error code, and leaves the frame alone (R142, R271, D36). -/
theorem exec_ends {i : Instr} (h : exec i s = .next t) : ∃ code info, Completed s t code info ∧ CommandFrame s t := by
  cases i with
  | nop => exact execNop_cases h ▸ ⟨_, _, completeWith_ends _ _ rfl (by constructor <;> rfl)⟩
  | clrw => exact execClrw_cases h ▸ ⟨_, _, completeWith_ends _ _ rfl (by constructor <;> rfl)⟩
  | build =>
    rcases execBuild_cases h with ⟨-, rfl⟩ | ⟨-, -, rfl⟩ <;>
      exact ⟨_, _, completeWith_ends _ _ rfl (by constructor <;> rfl)⟩
  | encode =>
    rcases execEncode_cases h with ⟨code, info, -, rfl⟩ | ⟨-, -, -, rfl⟩ | ⟨-, -, -, -, rfl⟩ <;>
      exact ⟨_, _, completeWith_ends _ _ rfl (by constructor <;> rfl)⟩
  | decode =>
    rcases execDecode_cases h with ⟨code, info, -, rfl⟩ | ⟨-, -, symbols, -, rfl⟩ <;>
      exact ⟨_, _, completeWith_ends _ _ rfl (by constructor <;> rfl)⟩

/-- The enabled engine's turn ends the pending command, or completes with ILLEGAL_COMMAND (R143, R149). -/
theorem engineTurn_ends (hb : s.busy = true) (hr : s.rst = false) (h : engineTurn s = .next t) :
    ∃ code info, Completed s t code info ∧ CommandFrame s t := by
  have he : s.engineEnabled = true := by simp [State.engineEnabled, hb, hr]
  rcases engineTurn_cases h with ⟨hd, -⟩ | ⟨-, i, -, hx⟩ | ⟨-, -, rfl⟩
  · rw [he] at hd
    cases hd
  · exact exec_ends hx
  · exact ⟨_, _, completeWith_ends _ _ rfl (by constructor <;> rfl)⟩

/-! ### A host transaction leaves a running command waiting -/

@[simp] theorem readEffect_busy (r : Reg) (s : State) : (s.readEffect r).busy = s.busy := by cases r <;> rfl
@[simp] theorem readEffect_rst (r : Reg) (s : State) : (s.readEffect r).rst = s.rst := by cases r <;> rfl
@[simp] theorem readEffect_bus (r : Reg) (s : State) : (s.readEffect r).bus = s.bus := by cases r <;> rfl

@[simp] theorem writeBusy_busy (r : Reg) (v : Word) (s : State) : (s.writeBusy r v).busy = s.busy := by cases r <;> rfl
@[simp] theorem writeBusy_rst (r : Reg) (v : Word) (s : State) : (s.writeBusy r v).rst = s.rst := by cases r <;> rfl
@[simp] theorem writeBusy_bus (r : Reg) (v : Word) (s : State) : (s.writeBusy r v).bus = s.bus := by cases r <;> rfl

@[simp] theorem hostRead_busy (a : Word) (s : State) : (hostRead a s).busy = s.busy := by
  simp only [hostRead]; split <;> simp
@[simp] theorem hostRead_rst (a : Word) (s : State) : (hostRead a s).rst = s.rst := by
  simp only [hostRead]; split <;> simp
@[simp] theorem hostRead_bus (a : Word) (s : State) : (hostRead a s).bus = s.bus := by
  simp only [hostRead]; split <;> simp

theorem hostWrite_of_busy (a v : Word) (hb : s.busy = true) : hostWrite a v s = s.writeBusy (regOf a) v := if_pos hb

/-- A host transaction while BUSY = 1 and `rst` is low takes one event and leaves the command running (R148). -/
theorem step_of_isHost {e : BusEvent} {rest : List BusEvent} (hb : s.busy = true) (hr : s.rst = false)
    (hbus : s.bus = e :: rest) (he : e.isHost = true) :
    ∃ u, step s = .next u ∧ u.busy = true ∧ u.rst = false ∧ u.bus = rest := by
  have hstep : step s = takeEvent e { s with bus := rest } := by simp only [step, turn, hbus]
  cases e with
  | read a =>
    refine ⟨hostRead a { s with bus := rest }, by rw [hstep]; simp [takeEvent, hr], ?_⟩
    exact ⟨by simp [hb], by simp [hr], by simp⟩
  | write a v =>
    refine ⟨hostWrite a v { s with bus := rest }, by rw [hstep]; simp [takeEvent, hr], ?_⟩
    rw [hostWrite_of_busy (s := { s with bus := rest }) a v hb]
    exact ⟨by simp [hb], by simp [hr], by simp⟩
  | engine => cases he
  | rst level => cases he

/-! ### Runs -/

theorem run_succ_of_step (k : Nat) (h : step s = .next u) :
    Host.Core.run Sys2Proof.core (k + 1) s = Host.Core.run Sys2Proof.core k u := by
  have h' : Sys2Proof.core.step s = .next u := h
  simp only [Host.Core.run, h']

/-- Any host transactions, then the engine's turn: by induction on the transactions. -/
theorem run_of_isHost (events : List BusEvent) (hb : s.busy = true) (hr : s.rst = false) (hbus : s.bus = events)
    (hhost : ∀ e ∈ events, e.isHost = true) :
    ∃ t, Host.Core.run Sys2Proof.core (events.length + 1) s = .next t ∧
      t.busy = false ∧ t.irqDone = true ∧ t.bus = [] := by
  induction events generalizing s with
  | nil =>
    obtain ⟨t, ht⟩ := engineTurn_next s
    obtain ⟨code, info, hc, hf⟩ := engineTurn_ends hb hr ht
    have hstep : step s = .next t := by simpa only [step, turn, hbus] using ht
    exact ⟨t, run_succ_of_step 0 hstep, hc.busy, hc.irqDone, hf.bus.trans hbus⟩
  | cons e rest ih =>
    obtain ⟨u, hstep, hub, hur, hubus⟩ := step_of_isHost hb hr hbus (hhost e List.mem_cons_self)
    rw [List.length_cons, run_succ_of_step _ hstep]
    exact ih hub hur hubus fun e he => hhost e (List.mem_cons_of_mem _ he)

/-- Settles O7: a host transaction keeps the command running, and the engine's turn that follows the last one ends it. -/
theorem pendingCommandCompletesAfterHostTransactions : Obligations.PendingCommandCompletesAfterHostTransactions :=
  fun _ events hb hr hhost => run_of_isHost events hb hr rfl hhost

end Sys2Proof.Machine
end

section
/-! PROOFS. How long the codewords of a built table are: a bound on the merge loop, the walk of the codes and the payload
(41_tree_builder.md R161, R170 to R174; 42_encoder.md R203, R206). -/

namespace Sys2Proof.Machine

/-! ### The size of the alphabet and of the arena -/

@[simp] theorem length_weightsOf (v : Vector Word 256) : (weightsOf v).length = 256 := by simp [weightsOf]

theorem length_presentFrom_le (n : Nat) (ws : List Nat) : (presentFrom n ws).length ≤ ws.length := by
  induction ws generalizing n with
  | nil => exact Nat.le_refl _
  | cons w ws ih =>
    have := ih (n + 1)
    simp only [presentFrom]
    split <;> simp only [List.length_cons] <;> omega

theorem length_alphabet_le (v : Vector Word 256) : (alphabet (weightsOf v)).length ≤ 256 :=
  (length_presentFrom_le 0 (weightsOf v)).trans_eq (length_weightsOf v)

theorem length_heapFill (lt : Nat → Nat → Bool) (h xs : List Nat) : (heapFill lt h xs).length = h.length + xs.length := by
  induction xs generalizing h with
  | nil => rfl
  | cons x xs ih =>
    simp only [heapFill, ih, length_heapPush, List.length_cons]
    omega

@[simp] theorem length_filledHeap (w : List Nat) : (filledHeap w).length = (alphabet w).length := by
  simp [filledHeap, length_heapFill]

/-- Each merge takes two nodes off the heap and puts one back, so it makes fewer nodes than the heap holds (R170). -/
theorem length_mergeLoop_arena_le (w : List Nat) (fuel : Nat) (heap : List Nat) (arena : List TreeNode) :
    (mergeLoop w fuel heap arena).2.length ≤ arena.length + (heap.length - 1) := by
  induction fuel generalizing heap arena with
  | zero => exact Nat.le_add_right _ _
  | succ fuel ih =>
    simp only [mergeLoop]
    split
    · exact Nat.le_add_right _ _
    · split
      · exact Nat.le_add_right _ _
      · next a heap1 hp1 =>
        split
        · exact Nat.le_add_right _ _
        · next b heap2 hp2 =>
          have h1 := length_heapPop hp1
          have h2 := length_heapPop hp2
          refine (ih _ _).trans ?_
          rw [length_heapPush, List.length_append, List.length_singleton]
          omega

theorem length_buildTree_arena_le (w : List Nat) : (buildTree w).arena.length ≤ (alphabet w).length - 1 := by
  have harena : (buildTree w).arena = (mergeLoop w (filledHeap w).length (filledHeap w) []).2 := by
    simp only [buildTree]
    split <;> rfl
  have h := length_mergeLoop_arena_le w (filledHeap w).length (filledHeap w) []
  rw [harena]
  simpa using h

/-! ### The length of a codeword -/

/-- The walk adds one bit per level (R172). -/
theorem codes_len_lt {arena : List TreeNode} {fuel x v d : Nat} {e : CodeEntry} (he : e ∈ codes arena fuel x v d) :
    e.len < d + fuel := by
  induction fuel generalizing x v d with
  | zero => simp [codes] at he
  | succ fuel ih =>
    simp only [codes] at he
    split at he
    · obtain rfl := List.mem_singleton.mp he
      exact Nat.lt_add_of_pos_right (Nat.succ_pos fuel)
    · split at he
      · cases he
      · rcases List.mem_append.mp he with hl | hr
        · have := ih hl
          omega
        · have := ih hr
          omega

theorem codeEntries_len_le {n : Nat} {t : Tree} {e : CodeEntry} (he : e ∈ codeEntries n t) :
    e.len ≤ max 1 t.arena.length := by
  simp only [codeEntries] at he
  split at he
  · cases he
  · split at he
    · obtain rfl := List.mem_singleton.mp he
      exact Nat.le_max_left _ _
    · have := codes_len_lt he
      omega

theorem codeLen_le {cs : List CodeEntry} {bound : Nat} (h : ∀ e ∈ cs, e.len ≤ bound) (c : Nat) : codeLen cs c ≤ bound := by
  simp only [codeLen]
  cases hf : cs.find? (fun e => e.symbol == c) with
  | none => exact Nat.zero_le _
  | some e => exact h e (List.mem_of_find?_eq_some hf)

/-- No codeword of a built table is longer than 255 bits (R174). -/
theorem CodeTable.Built.codelen_le {t : CodeTable} (h : t.Built) (c : Byte) : (atSymbol t.codelen c).toNat ≤ 255 := by
  obtain ⟨v, rfl⟩ := h
  have harena := length_buildTree_arena_le (weightsOf v)
  have halpha := length_alphabet_le v
  have hlen := codeLen_le (fun e he => codeEntries_len_le (n := (alphabet (weightsOf v)).length)
    (t := buildTree (weightsOf v)) he) c.toNat
  simp only [tableOf, atSymbol_tabulate, BitVec.toNat_ofNat]
  exact (Nat.mod_le _ _).trans (hlen.trans (by omega))

/-! ### The length of the payload -/

@[simp] theorem length_codewordOf (t : CodeTable) (c : Byte) : (t.codewordOf c).length = (atSymbol t.codelen c).toNat :=
  length_codewordBits _ _

/-- B <= 255 x the number of symbols (R206). -/
theorem CodeTable.Built.length_payload_le {t : CodeTable} (h : t.Built) (symbols : List Byte) :
    (payload t symbols).length ≤ 255 * symbols.length := by
  have hsum := List.sum_le_card_nsmul (symbols.map fun c => (t.codewordOf c).length) 255 (by simp [h.codelen_le])
  simpa [payload, List.length_flatMap, Nat.mul_comm] using hsum

end Sys2Proof.Machine
end

section
/-! PROOFS. What ENCODE and DECODE answer once their first checks pass, outcome by outcome, and that the numbers they record
fit 32 bits (00_scope.md R10; 42_encoder.md R203 to R208; 43_decoder.md R235 to R243). -/

namespace Sys2Proof.Machine

variable {s t : State}

/-! ### The two ways a stream command fails -/

@[simp] theorem failEncode_errCode (code : ErrCode) (info : Word) (s : State) : (s.failEncode code info).errCode = code := rfl
@[simp] theorem failEncode_errInfo (code : ErrCode) (info : Word) (s : State) : (s.failEncode code info).errInfo = info := rfl
@[simp] theorem failDecode_errCode (code : ErrCode) (info : Word) (s : State) : (s.failDecode code info).errCode = code := rfl
@[simp] theorem failDecode_errInfo (code : ErrCode) (info : Word) (s : State) : (s.failDecode code info).errInfo = info := rfl

/-! ### Behind the first checks -/

theorem lengthBad_eq_false (hl : s.len.toNat ≤ s.cfg.inDepth) : s.lengthBad = false :=
  decide_eq_false (Nat.not_lt.mpr hl)

theorem execEncode_of_valid (hv : s.table.valid = true) (hl : s.len.toNat ≤ s.cfg.inDepth) :
    exec .encode s = .next (if s.table.nsym = 0#9 ∧ s.len = 0#32 then s.storeEmptyStream
      else encodeSymbols s.inputBytes s) := by
  simp [exec, execEncode, hv, lengthBad_eq_false hl]

theorem execDecode_of_valid (hv : s.table.valid = true) (hl : s.len.toNat ≤ s.cfg.inDepth) (hlen : s.len ≠ 0#32)
    (hnsym : s.table.nsym ≠ 0#9) : exec .decode s = .next (decodeStream (streamBits s.inputBytes) s) := by
  simp [exec, execDecode, hv, lengthBad_eq_false hl, hlen, hnsym]

/-- Every outcome of a split stream, with its error and index (R238 to R242). -/
theorem decodeSplit_outcomes (bits terminator : List Bool) (s : State) :
    (∃ code info, walkPayload s.table s.cfg.outDepth bits = .failed code info ∧
      decodeSplit bits terminator s = s.failDecode code (BitVec.ofNat 32 info)) ∨
    (∃ symbols node, walkPayload s.table s.cfg.outDepth bits = .done symbols node ∧ node ≠ s.table.root ∧
      decodeSplit bits terminator s = s.failDecode .truncatedStream (BitVec.ofNat 32 bits.length)) ∨
    (∃ symbols i, walkPayload s.table s.cfg.outDepth bits = .done symbols s.table.root ∧ firstZero terminator = some i ∧
      decodeSplit bits terminator s = s.failDecode .unknownCodeword (BitVec.ofNat 32 (bits.length + i))) ∨
    (∃ symbols, walkPayload s.table s.cfg.outDepth bits = .done symbols s.table.root ∧ firstZero terminator = none ∧
      decodeSplit bits terminator s = s.storeSymbols symbols) := by
  simp only [decodeSplit]
  cases hw : walkPayload s.table s.cfg.outDepth bits with
  | failed code info => exact .inl ⟨code, info, rfl, rfl⟩
  | done symbols node =>
    by_cases hn : node = s.table.root
    · subst hn
      cases hz : firstZero terminator with
      | some i => exact .inr (.inr (.inl ⟨symbols, i, rfl, rfl, if_neg (not_not_intro rfl)⟩))
      | none => exact .inr (.inr (.inr ⟨symbols, rfl, rfl, if_neg (not_not_intro rfl)⟩))
    · exact .inr (.inl ⟨symbols, node, rfl, hn, if_pos hn⟩)

/-! ### The numbers ENCODE records -/

theorem toNat_ofNat_word {n : Nat} (h : n < 2 ^ 32) : (BitVec.ofNat 32 n).toNat = n := by
  rw [BitVec.toNat_ofNat, Nat.mod_eq_of_lt h]

theorem firstMissing_lt {tab : CodeTable} {symbols : List Byte} {i : Nat} (h : firstMissing tab symbols = some i) :
    i < symbols.length :=
  (List.findIdx?_eq_some_iff_findIdx_eq.mp h).1

/-- ENCODE on symbols whose number and payload fit 32 bits cuts neither the lengths nor the index it records. -/
theorem encodeSymbols_records {symbols : List Byte} (hsym : symbols.length < 2 ^ 32)
    (hp : (payload s.table symbols).length < 2 ^ 32) (hsize : streamSize (payload s.table symbols) < 2 ^ 32)
    (ht : encodeSymbols symbols s = t) :
    (t.errCode = .none →
      t.outLen.toNat = streamSize (payload s.table symbols) ∧ t.encBits.toNat = (payload s.table symbols).length) ∧
    (t.errCode = .symbolNotInTable → firstMissing s.table symbols = some t.errInfo.toNat) ∧
    (t.errCode = .outputOverflow → t.errInfo.toNat = streamSize (payload s.table symbols)) := by
  rcases encodeSymbols_cases symbols s with ⟨i, hm, he⟩ | ⟨-, -, he⟩ | ⟨-, -, he⟩
  · have hi : i < 2 ^ 32 := (firstMissing_lt hm).trans hsym
    rw [← ht, he]
    simp [hm, toNat_ofNat_word hi, -BitVec.toNat_ofNat]
  · rw [← ht, he]
    simp [toNat_ofNat_word hsize, -BitVec.toNat_ofNat]
  · rw [← ht, he]
    simp [State.storeStream, toNat_ofNat_word hsize, toNat_ofNat_word hp, -BitVec.toNat_ofNat]

/-! ### The numbers DECODE records -/

/-- DECODE of a stream whose length fits 32 bits cuts neither OUT_LEN nor an index it records. -/
theorem decodeStream_records {stream : List Bool} {pb : Nat} (hpb : pb = stream.length - (s.pad.toNat + 8))
    (hlen : stream.length < 2 ^ 32) (ht : decodeStream stream s = t) :
    (t.errCode = .none → ∃ (symbols : List Byte) (node : NodeIx),
      walkPayload s.table s.cfg.outDepth (stream.take pb) = .done symbols node ∧ t.outLen.toNat = symbols.length) ∧
    (t.errCode = .outputOverflow →
      walkPayload s.table s.cfg.outDepth (stream.take pb) = .failed .outputOverflow t.errInfo.toNat) ∧
    (t.errCode = .unknownCodeword →
      walkPayload s.table s.cfg.outDepth (stream.take pb) = .failed .unknownCodeword t.errInfo.toNat ∨
      (pb ≤ t.errInfo.toNat ∧ stream[t.errInfo.toNat]? = some false)) ∧
    (t.errCode = .truncatedStream →
      t.errInfo.toNat = if stream.length < s.pad.toNat + 8 then stream.length else pb) := by
  simp only [decodeStream, State.sentinelLen, ← hpb] at ht
  by_cases hshort : stream.length < s.pad.toNat + 8
  · rw [if_pos hshort] at ht
    rw [← ht]
    simp [hshort, toNat_ofNat_word hlen, -BitVec.toNat_ofNat]
  · rw [if_neg hshort] at ht
    have hbits : (stream.take pb).length = pb := by rw [List.length_take]; omega
    have hw := walkPayload_within s.table s.cfg.outDepth (stream.take pb)
    rcases decodeSplit_outcomes (stream.take pb) (stream.drop pb) s with
      ⟨code, info, hwalk, he⟩ | ⟨symbols, node, -, -, he⟩ | ⟨symbols, i, -, hz, he⟩ | ⟨symbols, hwalk, -, he⟩
    · obtain ⟨hcode, -, hinfo⟩ : (WalkResult.failed code info).Within 0 (stream.take pb).length := hwalk ▸ hw
      have hi : info < 2 ^ 32 := by omega
      rw [← ht, he]
      rcases hcode with rfl | rfl <;> simp [hwalk, toNat_ofNat_word hi, -BitVec.toNat_ofNat]
    · have hi : pb < 2 ^ 32 := by omega
      rw [← ht, he, hbits]
      simp [hshort, toNat_ofNat_word hi, -BitVec.toNat_ofNat]
    · have hbit : stream[pb + i]? = some false := by
        rw [← List.getElem?_drop]
        exact getElem?_of_firstZero hz
      have hi : pb + i < 2 ^ 32 := (List.getElem?_eq_some_iff.mp hbit).1.trans hlen
      rw [← ht, he, hbits]
      simp [hbit, toNat_ofNat_word hi, -BitVec.toNat_ofNat]
    · have hsyms : symbols.length ≤ (stream.take pb).length := by rwa [hwalk] at hw
      have hi : symbols.length < 2 ^ 32 := by omega
      rw [← ht, he]
      simp [State.storeSymbols, hwalk, toNat_ofNat_word hi, -BitVec.toNat_ofNat]

/-! ### The bounds of a state that meets the invariant -/

theorem State.Inv.inDepth_le (h : s.Inv) : s.cfg.inDepth ≤ 2 ^ 24 := by
  have hwf := of_decide_eq_true h.depths
  exact Nat.pow_le_pow_right (by decide) hwf.2.1

/-- B <= 255 x IN_DEPTH (R32, R206). -/
theorem State.Inv.length_payload_le (h : s.Inv) (hv : s.table.valid = true) (hl : s.len.toNat ≤ s.cfg.inDepth) :
    (payload s.table s.inputBytes).length ≤ 255 * s.cfg.inDepth := by
  have hp := (h.table hv).length_payload_le s.inputBytes
  rw [length_inputBytes] at hp
  omega

/-- Settles O60: the payload, the stream and the input have bounds below 2^32, and every number recorded is a length of one
of them or an index into one. -/
theorem recordedNumbersFitTheirRegister : Obligations.RecordedNumbersFitTheirRegister := by
  intro s hinv hv hl p stream pb
  have hdepth := hinv.inDepth_le
  have hp : p.length ≤ 255 * s.cfg.inDepth := hinv.length_payload_le hv hl
  have hsize : streamSize p < 2 ^ 30 := by
    have := eight_mul_streamSize p
    have := paddingOf_lt p.length
    omega
  have hinput : s.inputBytes.length ≤ 2 ^ 24 := by rw [length_inputBytes]; omega
  have hstream : stream.length ≤ 2 ^ 27 := by rw [length_streamBits]; omega
  refine ⟨⟨hp, hsize, hstream⟩, fun t ht => ?_, fun t ht hlen hnsym => ?_⟩
  · rw [execEncode_of_valid hv hl, Host.Outcome.next.injEq] at ht
    split at ht
    · next hempty =>
      rw [← ht]
      simp [State.storeEmptyStream, hempty]
    · obtain ⟨hsuccess, herrors⟩ :=
        encodeSymbols_records (by omega) (show p.length < 2 ^ 32 by omega) (hsize.trans (by decide)) ht
      exact ⟨fun h _ => hsuccess h, herrors⟩
  · rw [execDecode_of_valid hv hl hlen hnsym, Host.Outcome.next.injEq] at ht
    exact decodeStream_records rfl (by omega) ht

end Sys2Proof.Machine
end

section
/-! PROOFS. Every step keeps the invariant: one rule per named update of the state, then one per command and per host
transaction (10_state.md R28, R30, R32, R39, R41, R52, R57; 70_reset_and_hazards.md R300 to R302). -/

namespace Sys2Proof.Machine

variable {s t : State}

/-! ### BUILD leaves the heap empty -/

theorem eq_nil_of_heapPop_eq_none {lt : Nat → Nat → Bool} {h : List Nat} (hp : heapPop lt h = none) : h = [] := by
  cases h with
  | nil => rfl
  | cons r rest =>
    simp only [heapPop] at hp
    split at hp <;> cases hp

/-- Each merge shortens the heap by one, so the fuel is enough to leave at most one node (R170). -/
theorem length_mergeLoop_heap_le_one (w : List Nat) (fuel : Nat) {heap : List Nat} (arena : List TreeNode)
    (hf : heap.length ≤ fuel + 1) : (mergeLoop w fuel heap arena).1.length ≤ 1 := by
  induction fuel generalizing heap arena with
  | zero => exact hf
  | succ fuel ih =>
    simp only [mergeLoop]
    split
    · assumption
    · next hlong =>
      split
      · next hp => simp [eq_nil_of_heapPop_eq_none hp]
      · next a heap1 hp1 =>
        have h1 := length_heapPop hp1
        split
        · next hp => simp [eq_nil_of_heapPop_eq_none hp]
        · next b heap2 hp2 =>
          have h2 := length_heapPop hp2
          exact ih _ (by rw [length_heapPush]; omega)

/-- The last pop takes the one node that is left, the root (R171). -/
theorem buildTree_heap (w : List Nat) : (buildTree w).heap = [] := by
  have hle := length_mergeLoop_heap_le_one w (filledHeap w).length (heap := filledHeap w) [] (Nat.le_succ _)
  simp only [buildTree]
  split
  · next hp => exact eq_nil_of_heapPop_eq_none hp
  · next r heap hp =>
    have := length_heapPop hp
    exact List.eq_nil_of_length_eq_zero (show heap.length = 0 by omega)

theorem buildHeap_eq_nil (w : List Nat) : buildHeap w = [] := by
  simp [buildHeap, buildTree_heap]

/-! ### Bounds of what a register takes -/

/-- A depth is a power of two, so a pointer taken modulo it lies in the buffer (R5, R39). -/
theorem mod_inDepth_lt (c : Config) (n : Nat) : n % c.inDepth < c.inDepth := Nat.mod_lt _ (Nat.two_pow_pos _)

theorem mod_outDepth_lt (c : Config) (n : Nat) : n % c.outDepth < c.outDepth := Nat.mod_lt _ (Nat.two_pow_pos _)

/-- A number cut to a register is not larger than the number. -/
theorem toNat_ofNat_le {n bound : Nat} (h : n ≤ bound) : (BitVec.ofNat 32 n).toNat ≤ bound := by
  rw [BitVec.toNat_ofNat]
  exact (Nat.mod_le _ _).trans h

theorem length_packBytes_streamOf (p : List Bool) : (packBytes (streamOf p)).length = streamSize p :=
  length_packBytes _ (by rw [length_streamOf, eight_mul_streamSize]; omega)

/-! ### The named updates -/

namespace State.Inv

/-- A completion keeps the invariant if it reports no information without an error (R28, R142). -/
theorem completeWith {code : ErrCode} {info : Word} (h : s.Inv) (hinfo : code = .none → info = 0) :
    (s.completeWith code info).Inv :=
  { h with errInfo := hinfo, reset := fun _ => rfl }

theorem complete (h : s.Inv) : s.complete.Inv := h.completeWith fun _ => rfl

theorem scrambleOut (h : s.Inv) : s.scrambleOut.Inv :=
  { h with
    outBuf := rfl
    draws := ⟨Nat.lt_succ_of_lt h.draws.1, Nat.lt_succ_self _, Nat.ne_of_lt h.draws.1⟩ }

theorem drawn (h : s.Inv) : s.drawn.Inv :=
  { h with draws := ⟨Nat.lt_succ_of_lt h.draws.1, Nat.lt_succ_of_lt h.draws.2.1, h.draws.2.2⟩ }

theorem record (h : s.Inv) (a v : Word) : (s.record a v).Inv := { h with }

theorem ackIrq (h : s.Inv) (v : Word) : (s.ackIrq v).Inv := { h with }

theorem dropCommand (h : s.Inv) : s.dropCommand.Inv := { h with }

/-- A command is accepted only while `rst` is low (R300). -/
theorem accept (h : s.Inv) (hr : s.rst = false) (v : Word) : (s.accept v).Inv :=
  { h with reset := fun hrst => absurd (hr.symm.trans hrst) Bool.false_ne_true }

theorem advanceIn (h : s.Inv) : s.advanceIn.Inv := { h with inPtr := mod_inDepth_lt _ _ }

theorem advanceOut (h : s.Inv) : s.advanceOut.Inv := { h with outPtr := mod_outDepth_lt _ _ }

theorem enterReset (h : s.Inv) : s.enterReset.Inv where
  depths := h.depths
  inPtr := Nat.two_pow_pos _
  outPtr := Nat.two_pow_pos _
  inBuf := rfl
  outBuf := rfl
  draws := ⟨Nat.lt_add_of_pos_right Nat.two_pos, Nat.lt_succ_self _, Nat.ne_of_lt (Nat.lt_succ_self _)⟩
  outLen := Nat.zero_le _
  encBits := Nat.zero_le _
  errInfo := fun _ => rfl
  heap := rfl
  table := fun hv => nomatch hv
  reset := fun _ => rfl

/-! ### The commands -/

theorem failEncode {code : ErrCode} (h : s.Inv) (hc : code ≠ .none) (info : Word) : (s.failEncode code info).Inv :=
  completeWith { h.scrambleOut with outLen := Nat.zero_le _, encBits := Nat.zero_le _ } fun he => absurd he hc

theorem failDecode {code : ErrCode} (h : s.Inv) (hc : code ≠ .none) (info : Word) : (s.failDecode code info).Inv :=
  completeWith { h.scrambleOut with outLen := Nat.zero_le _ } fun he => absurd he hc

/-- The stream fits OUT_BUF, and its payload the bound on ENC_BITS (R30, R32, R207). -/
theorem storeStream {p : List Bool} (h : s.Inv) (hsize : streamSize p ≤ s.cfg.outDepth)
    (hp : p.length ≤ 255 * s.cfg.inDepth) : (s.storeStream p).Inv :=
  complete { h with
    outBuf := Memory.wf_writeFrom _ h.outBuf (by simpa [length_packBytes_streamOf] using hsize)
    draws := by simpa using h.draws
    outLen := toNat_ofNat_le hsize
    encBits := toNat_ofNat_le hp }

theorem storeSymbols {symbols : List Byte} (h : s.Inv) (hsize : symbols.length ≤ s.cfg.outDepth) :
    (s.storeSymbols symbols).Inv :=
  complete { h with
    outBuf := Memory.wf_writeFrom _ h.outBuf (by simpa using hsize)
    draws := by simpa using h.draws
    outLen := toNat_ofNat_le hsize }

/-- Every command keeps the invariant. -/
theorem exec (h : s.Inv) {i : Instr} (hx : exec i s = .next t) : t.Inv := by
  cases i with
  | nop =>
    rw [execNop_cases hx]
    exact h.complete
  | clrw =>
    rw [execClrw_cases hx]
    exact completeWith { h with } fun _ => rfl
  | build =>
    rcases execBuild_cases hx with ⟨-, rfl⟩ | ⟨-, -, rfl⟩
    · exact complete { h with heap := buildHeap_eq_nil _, table := fun _ => ⟨s.weight, rfl⟩ }
    · exact completeWith { h with heap := buildHeap_eq_nil _, table := fun hv => nomatch hv } fun he => nomatch he
  | encode =>
    rcases execEncode_cases hx with ⟨code, info, hc, rfl⟩ | ⟨-, -, -, rfl⟩ | ⟨hv, hl, -, hsize, rfl⟩
    · exact h.failEncode hc info
    · exact complete { h with outLen := Nat.zero_le _, encBits := Nat.zero_le _ }
    · exact h.storeStream hsize (h.length_payload_le hv hl)
  | decode =>
    rcases execDecode_cases hx with ⟨code, info, hc, rfl⟩ | ⟨-, -, symbols, hsize, rfl⟩
    · exact h.failDecode hc info
    · exact h.storeSymbols hsize

theorem engineTurn (h : s.Inv) (ht : engineTurn s = .next t) : t.Inv := by
  rcases engineTurn_cases ht with ⟨-, rfl⟩ | ⟨-, i, -, hx⟩ | ⟨-, -, rfl⟩
  · exact h
  · exact h.exec hx
  · exact h.completeWith fun he => nomatch he

/-! ### The host transactions -/

theorem readEffect (h : s.Inv) (r : Reg) : (s.readEffect r).Inv := by
  rcases readEffect_cases r s with ⟨-, he⟩ | ⟨-, he⟩ | ⟨-, -, he⟩ <;> rw [he]
  · exact h.advanceIn
  · exact h.advanceOut
  · exact h

theorem hostRead (h : s.Inv) (a : Word) : (hostRead a s).Inv := by
  refine record (readEffect ?_ _) _ _
  split
  · exact h.drawn
  · exact h

theorem writeInData (h : s.Inv) (v : Word) : (s.writeInData v).Inv :=
  advanceIn { h with inBuf := Memory.wf_write _ h.inBuf h.inPtr }

theorem writeOutData (h : s.Inv) (v : Word) : (s.writeOutData v).Inv :=
  advanceOut { h with outBuf := Memory.wf_write _ h.outBuf h.outPtr }

theorem writeBusy (h : s.Inv) (r : Reg) (v : Word) : (s.writeBusy r v).Inv := by
  rcases writeBusy_cases r v s with ⟨-, he⟩ | ⟨-, he⟩ | ⟨-, -, he⟩ <;> rw [he]
  · exact h.dropCommand
  · exact h.ackIrq v
  · exact h

theorem writeIdle (h : s.Inv) (hr : s.rst = false) (r : Reg) (v : Word) : (s.writeIdle r v).Inv := by
  rcases writeIdle_cases r v s with
    ⟨-, he⟩ | ⟨-, he⟩ | ⟨-, he⟩ | ⟨-, he⟩ | ⟨-, he⟩ | ⟨-, he⟩ | ⟨-, he⟩ | ⟨-, he⟩ | ⟨-, he⟩ | ⟨c, -, he⟩ | he <;> rw [he]
  · exact { h with }
  · exact h.accept hr v
  · exact h.ackIrq v
  · exact { h with }
  · exact { h with }
  · exact { h with inPtr := mod_inDepth_lt _ _ }
  · exact h.writeInData v
  · exact { h with outPtr := mod_outDepth_lt _ _ }
  · exact h.writeOutData v
  · exact { h with }
  · exact h

theorem hostWrite (h : s.Inv) (hr : s.rst = false) (a v : Word) : (hostWrite a v s).Inv := by
  simp only [Machine.hostWrite]
  split
  · exact h.writeBusy _ v
  · exact h.writeIdle hr _ v

/-! ### A step -/

theorem withBus (h : s.Inv) (bus : List BusEvent) : State.Inv { s with bus := bus } := { h with }

end State.Inv

/-- Settles O59: by the cases of a step, each of them a rule above. -/
theorem stepKeepsTheInvariant : Obligations.StepKeepsTheInvariant := by
  intro s t h hstep
  rcases step_cases hstep with ⟨-, ht⟩ | ⟨e, rest, -, hevent⟩
  · exact h.engineTurn ht
  · have hb := h.withBus rest
    rcases hevent with ⟨-, ht⟩ | ⟨a, -, -, rfl⟩ | ⟨a, -, -, rfl⟩ | ⟨a, v, -, -, rfl⟩ | ⟨a, v, -, hr, rfl⟩ | ⟨-, rfl⟩ |
      ⟨-, rfl⟩
    · exact hb.engineTurn ht
    · exact hb.drawn.record a _
    · exact hb.hostRead a
    · exact hb
    · exact hb.hostWrite hr a v
    · exact hb.enterReset
    · exact { hb with reset := fun hrst => nomatch hrst }

end Sys2Proof.Machine
end

section
/-! PROOFS. What a host read returns and what a host write stores, register by register (10_state.md R23 to R48, R59, R61;
20_memory.md R83 to R86). -/

namespace Sys2Proof.Machine

variable {s : State} {r : Reg} {a v : Word}

/-! ### When a read is exact -/

/-- While BUSY = 0 no read is free (R61). -/
theorem readIsFree_of_idle (hb : s.busy = false) (r : Reg) : s.readIsFree r = false := by
  simp [State.readIsFree, hb]

/-- A register the engine does not own, STATUS apart, is read exactly at any time (R61). -/
theorem readIsFree_of_not_owned (ho : r.engineOwned s.clearing = false) (hs : r ≠ .status) : s.readIsFree r = false := by
  simp [State.readIsFree, ho, hs]

theorem readIsFree_of_owned (hb : s.busy = true) (ho : r.engineOwned s.clearing = true) : s.readIsFree r = true := by
  simp [State.readIsFree, hb, ho]

theorem readValue_of_not_free (hf : s.readIsFree r = false) : s.readValue r = s.exactRead r := by
  simp [State.readValue, hf]

theorem exactRead_of_not_gated (hg : r.gated = false) : s.exactRead r = s.rawRead r := by simp [State.exactRead, hg]

theorem exactRead_of_valid (hv : s.table.valid = true) (r : Reg) : s.exactRead r = s.rawRead r := by
  simp [State.exactRead, hv]

/-- The gate of R59. -/
theorem exactRead_of_gated (hv : s.table.valid = false) (hg : r.gated = true) : s.exactRead r = 0 := by
  simp [State.exactRead, hv, hg]

/-! ### Host reads -/

theorem hostRead_of_not_free (hf : s.readIsFree (regOf a) = false) :
    hostRead a s = (s.readEffect (regOf a)).record a (s.exactRead (regOf a)) := by
  simp [hostRead, hf, readValue_of_not_free hf]

theorem hostRead_of_free (hf : s.readIsFree (regOf a) = true) :
    hostRead a s = (s.drawn.readEffect (regOf a)).record a (s.readValue (regOf a)) := by
  simp [hostRead, hf]

/-- An exact read of a register that is no data window changes the trace alone (R85). -/
theorem hostRead_exact_of_not_window (hf : s.readIsFree (regOf a) = false) (hi : regOf a ≠ .inData)
    (ho : regOf a ≠ .outData) : hostRead a s = s.record a (s.exactRead (regOf a)) := by
  rw [hostRead_of_not_free hf]
  rcases readEffect_cases (regOf a) s with ⟨h, -⟩ | ⟨h, -⟩ | ⟨-, -, h⟩
  · exact absurd h hi
  · exact absurd h ho
  · rw [h]

theorem Reg.ne_of_gated {r' : Reg} (hg : r.gated = true) (hg' : r'.gated = false) : r ≠ r' := by
  rintro rfl
  exact Bool.false_ne_true (hg'.symm.trans hg)

/-! ### Host writes -/

theorem hostWrite_of_idle (hb : s.busy = false) (a v : Word) : hostWrite a v s = s.writeIdle (regOf a) v := by
  simp [hostWrite, hb]

/-- The registers whose writes are ignored, but for those of the code table and the reserved offsets (R48). -/
def readOnlyRegs : List Reg := [.id, .version, .status, .errCode, .errInfo, .outLen, .encBits]

/-- A reserved offset, a register of the code table and a read-only register ignore writes, with BUSY = 0 and 1 (R48, R83). -/
theorem writes_ignored (h : r = .reserved ∨ r.gated = true ∨ r ∈ readOnlyRegs) (v : Word) (s : State) :
    s.writeIdle r v = s ∧ s.writeBusy r v = s := by
  rcases h with rfl | hg | hm
  · exact ⟨rfl, rfl⟩
  · cases r <;> cases hg <;> exact ⟨rfl, rfl⟩
  · fin_cases hm <;> exact ⟨rfl, rfl⟩

/-- Settles O44: a reserved offset is never free and reads 0, and writes to the listed registers are ignored. -/
theorem reservedAndReadOnlyRegisters : Obligations.ReservedAndReadOnlyRegisters := by
  refine ⟨fun s a h => ?_, fun s a v h => ?_⟩
  · have hf : s.readIsFree (regOf a) = false := by
      rw [h]
      exact readIsFree_of_not_owned rfl (by decide)
    rw [hostRead_exact_of_not_window hf (by simp [h]) (by simp [h]), h]
    rfl
  · obtain ⟨hidle, hbusy⟩ := writes_ignored h v s
    simp only [hostWrite]
    split
    · exact hbusy
    · exact hidle

/-- Settles O45: with BUSY = 0 the read is exact, and the gate of R59 makes it 0. -/
theorem gatedRegistersReadZero : Obligations.GatedRegistersReadZero := by
  intro s a hb hv hg
  rw [hostRead_exact_of_not_window (readIsFree_of_idle hb _) (Reg.ne_of_gated hg rfl) (Reg.ne_of_gated hg rfl),
    exactRead_of_gated hv hg]
  rfl

/-! ### The data windows -/

/-- Settles O49: IN_DATA is never free, and a write is one byte of IN_BUF. -/
theorem inputWindow : Obligations.InputWindow := by
  intro s a v h
  refine ⟨?_, fun hb => ?_, fun hb => ⟨s.inBuf.write s.inPtr (v.setWidth 8), ?_, Memory.read_write_same _ _ _,
    fun i hi => Memory.read_write_other _ hi _⟩⟩
  · have hf : s.readIsFree (regOf a) = false := by
      rw [h]
      exact readIsFree_of_not_owned rfl (by decide)
    rw [hostRead_of_not_free hf, h]
    rfl
  · rw [hostWrite_of_busy a v hb, h]
    rfl
  · rw [hostWrite_of_idle hb, h]
    rfl

/-- Settles O50: as for IN_DATA, but that a read with BUSY = 1 is a free draw. -/
theorem outputWindow : Obligations.OutputWindow := by
  intro s a v h
  refine ⟨fun hb => ?_, fun hb => ⟨s.readValue .outData, ?_⟩, fun hb => ?_, fun hb =>
    ⟨s.outBuf.write s.outPtr (v.setWidth 8), ?_, Memory.read_write_same _ _ _,
      fun i hi => Memory.read_write_other _ hi _⟩⟩
  · rw [hostRead_of_not_free (readIsFree_of_idle hb _), h]
    rfl
  · have hf : s.readIsFree (regOf a) = true := by
      rw [h]
      exact readIsFree_of_owned hb rfl
    rw [hostRead_of_free hf, h]
    rfl
  · rw [hostWrite_of_busy a v hb, h]
    rfl
  · rw [hostWrite_of_idle hb, h]
    rfl

/-! ### The plain registers -/

theorem and_not_eq_ite (b c : Bool) : (b && !c) = if c then false else b := by cases b <;> cases c <;> rfl

/-- An IRQ_STATUS write acknowledges, with BUSY = 0 and 1 (R26, R86). -/
theorem hostWrite_irqStatus (h : regOf a = .irqStatus) (v : Word) (s : State) : hostWrite a v s = s.ackIrq v := by
  simp only [hostWrite, h]
  split <;> rfl

/-- Settles O54: with BUSY = 0 a write is writeIdle's arm of its register. -/
theorem plainWritesStoreTheirField : Obligations.PlainWritesStoreTheirField := by
  intro s a v
  refine ⟨fun hb => ?_, fun h => ?_⟩
  · rw [hostWrite_of_idle hb]
    refine ⟨fun h => ?_, fun h => ?_, fun h => ?_, fun h => ?_, fun h => ?_, fun c h =>
      ⟨setSymbol s.weight c v, ?_, by simp [atSymbol_setSymbol], fun d hd => by simp [atSymbol_setSymbol, hd]⟩⟩ <;> rw [h]
    · rfl
    · rfl
    · rw [← BitVec.setWidth_eq_extractLsb' (by decide)]
      rfl
    · rfl
    · rfl
    · rfl
  · simp only [hostWrite_irqStatus h, State.ackIrq, and_not_eq_ite]

/-! ### Reads while BUSY = 1 -/

theorem toNat_of_opcodeMap_eq_clrw {op : BitVec 8} (h : opcodeMap op = some .clrw) : op.toNat = 1 := by
  simp only [opcodeMap] at h
  split at h
  case h_2 hop => exact hop
  all_goals cases h

/-- The word of CLRW is 0x00000001 and no other (R111). -/
theorem eq_one_of_decode_eq_clrw {w : Word} (h : decode w = some .clrw) : w = 0x00000001#32 := by
  simp only [decode] at h
  split at h
  · next hrsvd =>
    have hhigh : w.toNat >>> 8 % 2 ^ 24 = 0 := by
      have hzero : w.extractLsb' 8 24 = 0#24 := eq_of_beq hrsvd
      rw [← BitVec.extractLsb'_toNat, hzero]
      rfl
    have hlow : w.toNat >>> 0 % 2 ^ 8 = 1 := by
      rw [← BitVec.extractLsb'_toNat]
      exact toNat_of_opcodeMap_eq_clrw h
    apply BitVec.eq_of_toNat_eq
    rw [Nat.shiftRight_eq_div_pow] at hhigh hlow
    show w.toNat = 1
    omega
  · cases h

/-- BUSY shows in no register but STATUS. -/
theorem exactRead_withBusy (b : Bool) (hs : r ≠ .status) : State.exactRead { s with busy := b } r = s.exactRead r := by
  cases r with
  | status => exact absurd rfl hs
  | _ => rfl

/-- A register the engine does not own reads the same with BUSY = 0 and 1. -/
theorem readValue_of_not_owned (ho : r.engineOwned s.clearing = false) (hs : r ≠ .status) :
    s.readValue r = State.readValue { s with busy := false } r := by
  rw [readValue_of_not_free (readIsFree_of_not_owned ho hs), readValue_of_not_free (readIsFree_of_idle rfl r),
    exactRead_withBusy false hs]

theorem getLsbD_flagBit (b : Bool) (i : Nat) : (flagBit b).getLsbD i = (decide (i = 0) && b) := by
  by_cases hi : i = 0
  · subst hi
    cases b <;> rfl
  · simp [flagBit, hi, BitVec.getLsbD_ofBool]

theorem getLsbD_statusWordBusy_of_four_le (s : State) {i : Nat} (hi : 4 ≤ i) : s.statusWordBusy.getLsbD i = false := by
  have hmask : Nat.testBit 14 i = false :=
    Nat.testBit_lt_two_pow ((by decide : 14 < 2 ^ 4).trans_le (Nat.pow_le_pow_right (by decide) hi))
  have h0 : i ≠ 0 := by omega
  simp [State.statusWordBusy, getLsbD_flagBit, BitVec.getLsbD_ofNat, hmask, h0]

/-- Settles O52: the listed registers are not engine-owned, WEIGHT only while CLRW is pending, and STATUS is BUSY and three
free bits. -/
theorem hostOwnedReadsStayExact : Obligations.HostOwnedReadsStayExact := by
  intro s r hb
  refine ⟨fun h => ?_, ?_⟩
  · rcases h with hm | ⟨⟨c, rfl⟩, hp⟩
    · have hnot : r.engineOwned s.clearing = false ∧ r ≠ .status := by fin_cases hm <;> exact ⟨rfl, by decide⟩
      exact readValue_of_not_owned hnot.1 hnot.2
    · have hc : s.clearing = false := decide_eq_false fun hd => hp (eq_one_of_decode_eq_clrw hd)
      exact readValue_of_not_owned hc (by simp)
  · have hword : s.readValue .status = s.statusWordBusy := by simp [State.readValue, State.readIsFree, hb]
    rw [hword]
    exact ⟨by simp [State.statusWordBusy, getLsbD_flagBit, hb], fun i => getLsbD_statusWordBusy_of_four_le s⟩

end Sys2Proof.Machine
end

section
/-! PROOFS. The words the registers read as: flags bit by bit, numbers by their value, wide values by the words that make
them up (10_state.md R21 to R46; 20_memory.md R87; 60_exceptions.md R270). -/

namespace Sys2Proof.Machine

variable {s : State}

/-! ### Words of flags -/

theorem getLsbD_flagBit_shiftLeft (b : Bool) (k : Nat) {i : Nat} (hi : i < 32) :
    (flagBit b <<< k).getLsbD i = (decide (i = k) && b) := by
  rw [BitVec.getLsbD_shiftLeft, getLsbD_flagBit]
  rcases Nat.lt_trichotomy i k with h | rfl | h
  · have hne : i ≠ k := by omega
    simp [h, hne]
  · simp [hi]
  · have hne : i ≠ k := by omega
    have hsub : i - k ≠ 0 := by omega
    simp [hne, hsub]

theorem getLsbD_ctrlWord (s : State) {i : Nat} (hi : i < 32) :
    s.ctrlWord.getLsbD i = ([s.irqEn, s.rejectCollision][i]?).getD false := by
  simp only [State.ctrlWord, BitVec.getLsbD_or, getLsbD_flagBit, getLsbD_flagBit_shiftLeft _ _ hi]
  rcases i with _ | _ | i <;> simp

theorem getLsbD_statusWord (s : State) {i : Nat} (hi : i < 32) :
    s.statusWord.getLsbD i =
      ([s.busy, s.table.valid, s.table.mcoll, s.table.valid && s.table.nsym == 0#9][i]?).getD false := by
  simp only [State.statusWord, BitVec.getLsbD_or, getLsbD_flagBit, getLsbD_flagBit_shiftLeft _ _ hi]
  rcases i with _ | _ | _ | _ | i <;> simp [CodeTable.empty]

theorem getLsbD_irqStatusWord (s : State) {i : Nat} (hi : i < 32) :
    s.irqStatusWord.getLsbD i = ([s.irqDone, s.irqError, s.irqDropped][i]?).getD false := by
  simp only [State.irqStatusWord, BitVec.getLsbD_or, getLsbD_flagBit, getLsbD_flagBit_shiftLeft _ _ hi]
  rcases i with _ | _ | _ | i <;> simp

/-! ### Words of numbers -/

/-- Two fields side by side: the lower one below bit `k`, the upper one from it on. -/
theorem toNat_or_shiftLeft {lo hi : Word} {k : Nat} (hlo : lo.toNat < 2 ^ k) (hhi : hi.toNat * 2 ^ k < 2 ^ 32) :
    (lo ||| hi <<< k).toNat = lo.toNat + 2 ^ k * hi.toNat := by
  rw [BitVec.toNat_or, BitVec.toNat_shiftLeft, Nat.shiftLeft_eq, Nat.mod_eq_of_lt hhi, ← Nat.shiftLeft_eq, Nat.or_comm,
    ← Nat.shiftLeft_add_eq_or_of_lt hlo, Nat.shiftLeft_eq, Nat.mul_comm, Nat.add_comm]

/-- SENTINEL: PAD, and 16 times the sentinel length PAD + 8 (R31). -/
theorem toNat_sentinelWord (s : State) : s.sentinelWord.toNat = s.pad.toNat + 16 * (s.pad.toNat + 8) := by
  have hpad := s.pad.isLt
  have hlo : (s.pad.setWidth 32).toNat = s.pad.toNat := BitVec.toNat_setWidth_of_le (by decide)
  have hhi : (BitVec.ofNat 32 s.sentinelLen).toNat = s.pad.toNat + 8 :=
    toNat_ofNat_word (show s.pad.toNat + 8 < 2 ^ 32 by omega)
  rw [State.sentinelWord, toNat_or_shiftLeft (by omega) (by omega), hlo, hhi, show 2 ^ 4 = 16 from rfl]

/-- The numbers of R270, in their order from 0 on. -/
theorem getElem?_errCode_bits (c : ErrCode) :
    [ErrCode.none, .illegalCommand, .noTable, .badLength, .symbolNotInTable, .outputOverflow, .unknownCodeword,
      .truncatedStream, .markerCollision][(c.bits.setWidth 32).toNat]? = some c := by
  cases c <;> rfl

/-- Settles O53: a register's word is rawRead's, and its bits or its value are those of the field. -/
theorem statusWordsHaveTheirBits : Obligations.StatusWordsHaveTheirBits := by
  intro s
  refine ⟨fun i => getLsbD_ctrlWord s, fun i => getLsbD_statusWord s, fun i => getLsbD_irqStatusWord s,
    toNat_sentinelWord s, ⟨rfl, rfl, rfl⟩, getElem?_errCode_bits s.errCode, ⟨rfl, rfl, rfl, rfl⟩, fun c => rfl,
    toNat_ofNat_word, toNat_ofNat_word, fun hv => ?_, fun hb r => readValue_of_not_free (readIsFree_of_idle hb r)⟩
  simp only [exactRead_of_valid hv]
  have hfield (x : BitVec 9) : (x.setWidth 32).toNat = x.toNat := BitVec.toNat_setWidth_of_le (by decide)
  exact ⟨hfield _, hfield _, hfield _, hfield _, fun c => hfield _⟩

/-! ### Wide values -/

/-- A value of more than 32 bits is its low word and the rest, which another word holds (R87). -/
theorem toNat_eq_low_add_high {n m : Nat} (hn : n = 32 + m) (hm : m ≤ 32) (x : BitVec n) :
    x.toNat = (x.setWidth 32).toNat + 2 ^ 32 * ((x.extractLsb' 32 m).setWidth 32).toNat := by
  have hx : x.toNat / 2 ^ 32 < 2 ^ m := Nat.div_lt_of_lt_mul (by rw [← Nat.pow_add, ← hn]; exact x.isLt)
  rw [BitVec.toNat_setWidth, BitVec.toNat_setWidth_of_le hm, BitVec.extractLsb'_toNat, Nat.shiftRight_eq_div_pow,
    Nat.mod_eq_of_lt hx, Nat.mod_add_div]

/-- A number's digits in base 2^32 make it up. -/
theorem sum_words_eq_mod (x n : Nat) :
    ((List.range n).map fun w => x / 2 ^ (32 * w) % 2 ^ 32 * 2 ^ (32 * w)).sum = x % 2 ^ (32 * n) := by
  induction n with
  | zero => simp [Nat.mod_one]
  | succ n ih =>
    rw [List.range_succ, List.map_append, List.sum_append, ih, List.map_singleton, List.sum_singleton, Nat.pow_mul,
      Nat.pow_mul, Nat.mod_pow_succ (b := 2 ^ 32), Nat.mul_comm ((2 ^ 32) ^ n)]

theorem toNat_codewordWord (t : CodeTable) (c : Byte) {w : Nat} (hw : w < 8) :
    (t.codewordWord c (BitVec.ofNat 3 w)).toNat = (atSymbol t.codeword c).toNat / 2 ^ (32 * w) % 2 ^ 32 := by
  have hw' : (BitVec.ofNat 3 w).toNat = w := by rw [BitVec.toNat_ofNat, Nat.mod_eq_of_lt hw]
  rw [CodeTable.codewordWord, BitVec.extractLsb'_toNat, hw', Nat.shiftRight_eq_div_pow]

/-- CODEWORD[c] is made up of its eight words (R45). -/
theorem sum_codewordWord (t : CodeTable) (c : Byte) :
    ((List.range 8).map fun w => (t.codewordWord c (BitVec.ofNat 3 w)).toNat * 2 ^ (32 * w)).sum =
      (atSymbol t.codeword c).toNat := by
  have hwords : (List.range 8).map (fun w => (t.codewordWord c (BitVec.ofNat 3 w)).toNat * 2 ^ (32 * w)) =
      (List.range 8).map (fun w => (atSymbol t.codeword c).toNat / 2 ^ (32 * w) % 2 ^ 32 * 2 ^ (32 * w)) :=
    List.map_congr_left fun w hw => by rw [toNat_codewordWord t c (List.mem_range.mp hw)]
  rw [hwords, sum_words_eq_mod]
  exact Nat.mod_eq_of_lt (atSymbol t.codeword c).isLt

/-! ### NODE -/

/-- From k = n - 1 on the four words of NODE[k] read 0 (R46). -/
theorem nodeWord_of_le {t : CodeTable} {k : Byte} (h : t.nsym.toNat ≤ k.toNat + 1) (j : BitVec 2) : t.nodeWord k j = 0 :=
  if_pos h

/-- Word 3 of a node is reserved (R46). -/
theorem nodeWord_three (t : CodeTable) (k : Byte) : t.nodeWord k 3 = 0 := ite_self 0

/-- A node's number fits the byte that selects it. -/
theorem nodeNumber_mod (k : Fin 255) : k.val % 256 = k.val := Nat.mod_eq_of_lt (k.isLt.trans (by decide))

section
variable {t : CodeTable} {k : Fin 255} (h : k.val + 1 < t.nsym.toNat)
include h

theorem nodeWord_zero :
    t.nodeWord (BitVec.ofNat 8 k.val) 0 = t.left[k].setWidth 32 ||| (t.right[k].setWidth 32 <<< 16) := by
  simp [CodeTable.nodeWord, nodeNumber_mod, Nat.not_le.mpr h]

theorem nodeWord_one : t.nodeWord (BitVec.ofNat 8 k.val) 1 = t.nw[k].setWidth 32 := by
  simp [CodeTable.nodeWord, nodeNumber_mod, Nat.not_le.mpr h]

theorem nodeWord_two : t.nodeWord (BitVec.ofNat 8 k.val) 2 = (t.nw[k].extractLsb' 32 8).setWidth 32 := by
  simp [CodeTable.nodeWord, nodeNumber_mod, Nat.not_le.mpr h]

theorem toNat_nodeWord_zero :
    (t.nodeWord (BitVec.ofNat 8 k.val) 0).toNat = t.left[k].toNat + 2 ^ 16 * t.right[k].toNat := by
  have hl : (t.left[k].setWidth 32).toNat = t.left[k].toNat := BitVec.toNat_setWidth_of_le (by decide)
  have hr : (t.right[k].setWidth 32).toNat = t.right[k].toNat := BitVec.toNat_setWidth_of_le (by decide)
  have hleft := t.left[k].isLt
  have hright := t.right[k].isLt
  rw [nodeWord_zero h, toNat_or_shiftLeft (by omega) (by omega), hl, hr]

theorem toNat_nw : t.nw[k].toNat =
    (t.nodeWord (BitVec.ofNat 8 k.val) 1).toNat + 2 ^ 32 * (t.nodeWord (BitVec.ofNat 8 k.val) 2).toNat := by
  rw [nodeWord_one h, nodeWord_two h]
  exact toNat_eq_low_add_high (m := 8) rfl (by decide) _

end

/-- Settles O55: with a valid table each word is the model's, and the words of a wide value make it up. -/
theorem tableWordsMakeUpTheirValues : Obligations.TableWordsMakeUpTheirValues := by
  intro s hv
  simp only [exactRead_of_valid hv]
  exact ⟨toNat_eq_low_add_high (m := 8) rfl (by decide) _, toNat_eq_low_add_high (m := 16) rfl (by decide) _,
    fun c => (sum_codewordWord s.table c).symm,
    fun k hk => ⟨toNat_nodeWord_zero hk, toNat_nw hk, nodeWord_three s.table _⟩, fun k j hk => nodeWord_of_le hk j⟩

end Sys2Proof.Machine
end

section
/-! PROOFS. Every step answers, and a read of any register but the data windows only returns its value (20_memory.md R81, R83,
R85; 40_commands.md R149). -/

namespace Sys2Proof.Machine

/-! ### Every step answers -/

/-- Every event at the ports is answered (R83, R300). -/
theorem takeEvent_next (e : BusEvent) (s : State) : ∃ t, takeEvent e s = .next t := by
  cases e with
  | read a => exact ⟨_, rfl⟩
  | write a v => exact ⟨_, rfl⟩
  | engine => exact engineTurn_next s
  | rst level => cases level <;> exact ⟨_, rfl⟩

/-- Settles O6: the engine's turn and every event answer. -/
theorem everyStepAnswersANextState : Obligations.EveryStepAnswersANextState := by
  intro s
  simp only [step, turn]
  split
  · exact engineTurn_next s
  · exact takeEvent_next _ _

/-! ### Reads without side effect -/

/-- Only a read of a data window has a side effect (R85). -/
theorem readEffect_of_not_window {r : Reg} (hi : r ≠ .inData) (ho : r ≠ .outData) (s : State) : s.readEffect r = s := by
  rcases readEffect_cases r s with ⟨h, -⟩ | ⟨h, -⟩ | ⟨-, -, h⟩
  · exact absurd h hi
  · exact absurd h ho
  · exact h

/-- Settles O51: a free read uses up one draw and an exact one none; both add the value to the trace. -/
theorem otherReadsHaveNoSideEffect : Obligations.OtherReadsHaveNoSideEffect := by
  intro s a hi ho
  refine ⟨?_, fun hb => hostRead_exact_of_not_window (readIsFree_of_idle hb _) hi ho⟩
  cases hf : s.readIsFree (regOf a) with
  | true =>
    refine ⟨s.draws + 1, ?_⟩
    rw [hostRead_of_free hf, readEffect_of_not_window hi ho]
    rfl
  | false =>
    refine ⟨s.draws, ?_⟩
    rw [hostRead_exact_of_not_window hf hi ho, readValue_of_not_free hf]
    rfl

end Sys2Proof.Machine
end

section
/-! PROOFS. The register map: the word an address selects, each register's own word, and the words that are no register's
(10_state.md R20, R47; 20_memory.md R80, R82). -/

namespace Sys2Proof.Machine

variable {r : Reg} {a : Word} {i : Nat}

/-! ### The word an address selects -/

/-- The bits of the offset mask are bits [13:2]. -/
theorem getLsbD_offsetMask : ∀ i < 32, (0x00003FFC#32).getLsbD i = (decide (2 ≤ i) && decide (i < 14)) := by decide

/-- Masking keeps bits [13:2] in their places (R82). -/
theorem offsetBits_eq_shiftLeft (a : Word) : a &&& 0x00003FFC#32 = (a.extractLsb' 2 12).setWidth 32 <<< 2 := by
  apply BitVec.eq_of_getLsbD_eq
  intro i hi
  rw [BitVec.getLsbD_and, getLsbD_offsetMask i hi, BitVec.getLsbD_shiftLeft, BitVec.getLsbD_setWidth,
    BitVec.getLsbD_extractLsb']
  by_cases h2 : i < 2
  · simp [h2]
  · have hadd : 2 + (i - 2) = i := by omega
    have hrange : i - 2 < 12 ↔ i < 14 := by omega
    have hlt : i - 2 < 32 := by omega
    simp [hi, h2, hadd, hrange, hlt, Nat.not_lt.mp h2, Bool.and_comm]

/-- The offset of an address is four times the number of its word. -/
theorem toNat_offsetBits (a : Word) : (a &&& 0x00003FFC#32).toNat = 4 * (a.extractLsb' 2 12).toNat := by
  have := (a.extractLsb' 2 12).isLt
  rw [offsetBits_eq_shiftLeft, BitVec.toNat_shiftLeft, BitVec.toNat_setWidth_of_le (by decide), Nat.shiftLeft_eq]
  omega

/-- The byte offset 4i selects word i of the window. -/
theorem regOf_ofNat (hi : i < 4096) : regOf (BitVec.ofNat 32 (4 * i)) = regOfWord i := by
  have hword : ((BitVec.ofNat 32 (4 * i)).extractLsb' 2 12).toNat = i := by
    rw [BitVec.extractLsb'_toNat, toNat_ofNat_word (by omega), Nat.shiftRight_eq_div_pow]
    omega
  rw [regOf, hword]

/-! ### The words of the window -/

/-- From word 24 on the map is the four arrays and the words between them. -/
theorem regOfWord_of_le (h : 24 ≤ i) : regOfWord i =
    if 0x100 ≤ i ∧ i < 0x200 then .weight (BitVec.ofNat 8 (i - 0x100))
    else if 0x200 ≤ i ∧ i < 0x300 then .codelen (BitVec.ofNat 8 (i - 0x200))
    else if 0x400 ≤ i ∧ i < 0xC00 then .codeword (BitVec.ofNat 8 ((i - 0x400) / 8)) (BitVec.ofNat 3 ((i - 0x400) % 8))
    else if 0xC00 ≤ i ∧ i < 0xFFC then .node (BitVec.ofNat 8 ((i - 0xC00) / 4)) (BitVec.ofNat 2 ((i - 0xC00) % 4))
    else .reserved := by
  obtain ⟨k, rfl⟩ := Nat.exists_eq_add_of_le' h
  rfl

/-- Register `r` is word `i` of the window, and its offset is that word's (R20). -/
structure Reg.AtWord (r : Reg) (i : Nat) : Prop where
  lt       : i < 4096
  selected : regOfWord i = r
  offset   : r.offset = some (BitVec.ofNat 32 (4 * i))

/-- A register that is some word is selected by its offset. -/
theorem Reg.AtWord.regOf_eq (h : r.AtWord i) (ha : r.offset = some a) : regOf a = r := by
  obtain rfl : BitVec.ofNat 32 (4 * i) = a := Option.some.inj (h.offset.symm.trans ha)
  rw [regOf_ofNat h.lt, h.selected]

theorem Reg.AtWord.ne_reserved (h : r.AtWord i) : r ≠ .reserved := by
  rintro rfl
  cases h.offset

/-- The 24 registers in front of the arrays. -/
theorem regOfWord_atWord_of_lt (h : i < 24) : (regOfWord i).AtWord i :=
  have hoffset : ∀ i < 24, (regOfWord i).offset = some (BitVec.ofNat 32 (4 * i)) := by decide
  ⟨by omega, rfl, hoffset i h⟩

theorem weight_atWord (c : Byte) : (Reg.weight c).AtWord (0x100 + c.toNat) := by
  have hc := c.isLt
  refine ⟨by omega, ?_, by rw [Nat.mul_add]; rfl⟩
  rw [regOfWord_of_le (by omega), if_pos (by omega)]
  simp

theorem codelen_atWord (c : Byte) : (Reg.codelen c).AtWord (0x200 + c.toNat) := by
  have hc := c.isLt
  refine ⟨by omega, ?_, by rw [Nat.mul_add]; rfl⟩
  rw [regOfWord_of_le (by omega), if_neg (by omega), if_pos (by omega)]
  simp

theorem codeword_atWord (c : Byte) (w : BitVec 3) : (Reg.codeword c w).AtWord (0x400 + (8 * c.toNat + w.toNat)) := by
  have hc := c.isLt
  have hw := w.isLt
  refine ⟨by omega, ?_, congrArg (some <| BitVec.ofNat 32 ·) (by omega)⟩
  have hdiv : (8 * c.toNat + w.toNat) / 8 = c.toNat := by omega
  have hmod : (8 * c.toNat + w.toNat) % 8 = w.toNat := by omega
  rw [regOfWord_of_le (by omega), if_neg (by omega), if_neg (by omega), if_pos (by omega), Nat.add_sub_cancel_left,
    hdiv, hmod]
  simp

theorem node_atWord {k : Byte} (hk : k.toNat < 255) (j : BitVec 2) :
    (Reg.node k j).AtWord (0xC00 + (4 * k.toNat + j.toNat)) := by
  have hj := j.isLt
  refine ⟨by omega, ?_, (if_pos hk).trans (congrArg (some <| BitVec.ofNat 32 ·) (by omega))⟩
  have hdiv : (4 * k.toNat + j.toNat) / 4 = k.toNat := by omega
  have hmod : (4 * k.toNat + j.toNat) % 4 = j.toNat := by omega
  rw [regOfWord_of_le (by omega), if_neg (by omega), if_neg (by omega), if_neg (by omega), if_pos (by omega),
    Nat.add_sub_cancel_left, hdiv, hmod]
  simp

/-- The words of the reserved ranges 0x060 to 0x3FC, 0xC00 to 0xFFC and 0x3FF0 on (R47). -/
def ReservedWord (i : Nat) : Prop := 24 ≤ i ∧ i < 0x100 ∨ 0x300 ≤ i ∧ i < 0x400 ∨ 0xFFC ≤ i

theorem regOfWord_of_reservedWord (h : ReservedWord i) : regOfWord i = .reserved := by
  simp only [ReservedWord] at h
  rw [regOfWord_of_le (by omega), if_neg (by omega), if_neg (by omega), if_neg (by omega), if_neg (by omega)]

/-- Each word outside the reserved ranges is some register's own (R20). -/
theorem exists_atWord (h : ¬ ReservedWord i) : ∃ r : Reg, r.AtWord i := by
  simp only [ReservedWord] at h
  by_cases hplain : i < 24
  · exact ⟨_, regOfWord_atWord_of_lt hplain⟩
  by_cases hweight : i < 0x200
  · obtain ⟨c, rfl⟩ : ∃ c : Byte, i = 0x100 + c.toNat :=
      ⟨.ofNatLT (i - 0x100) (by omega), by rw [BitVec.toNat_ofNatLT]; omega⟩
    exact ⟨_, weight_atWord c⟩
  by_cases hcodelen : i < 0x300
  · obtain ⟨c, rfl⟩ : ∃ c : Byte, i = 0x200 + c.toNat :=
      ⟨.ofNatLT (i - 0x200) (by omega), by rw [BitVec.toNat_ofNatLT]; omega⟩
    exact ⟨_, codelen_atWord c⟩
  by_cases hcodeword : i < 0xC00
  · obtain ⟨c, w, rfl⟩ : ∃ (c : Byte) (w : BitVec 3), i = 0x400 + (8 * c.toNat + w.toNat) :=
      ⟨.ofNatLT ((i - 0x400) / 8) (by omega), .ofNatLT ((i - 0x400) % 8) (by omega), by
        rw [BitVec.toNat_ofNatLT, BitVec.toNat_ofNatLT]; omega⟩
    exact ⟨_, codeword_atWord c w⟩
  · obtain ⟨k, j, hk, rfl⟩ : ∃ (k : Byte) (j : BitVec 2), k.toNat < 255 ∧ i = 0xC00 + (4 * k.toNat + j.toNat) :=
      ⟨.ofNatLT ((i - 0xC00) / 4) (by omega), .ofNatLT ((i - 0xC00) % 4) (by omega), by
        rw [BitVec.toNat_ofNatLT, BitVec.toNat_ofNatLT]; omega⟩
    exact ⟨_, node_atWord hk j⟩

theorem regOfWord_atWord (h : ¬ ReservedWord i) : (regOfWord i).AtWord i := by
  obtain ⟨r, hr⟩ := exists_atWord h
  exact hr.selected.symm ▸ hr

theorem regOfWord_eq_reserved_iff : regOfWord i = .reserved ↔ ReservedWord i :=
  ⟨fun h => by_contra fun hn => (regOfWord_atWord hn).ne_reserved h, regOfWord_of_reservedWord⟩

/-- A register's offset selects it (R20). -/
theorem regOf_of_offset (h : r.offset = some a) : regOf a = r := by
  cases r with
  | weight c => exact (weight_atWord c).regOf_eq h
  | codelen c => exact (codelen_atWord c).regOf_eq h
  | codeword c w => exact (codeword_atWord c w).regOf_eq h
  | node k j =>
    have hk : k.toNat < 255 := (Option.ite_none_right_eq_some.mp h).1
    exact (node_atWord hk j).regOf_eq h
  | reserved => cases h
  | _ =>
    cases h
    rfl

/-- Settles O43: an address selects the word its offset is four times the number of, and each word is one register's own or
a reserved one. -/
theorem registerMapIsAsListed : Obligations.RegisterMapIsAsListed := by
  refine ⟨fun r a => regOf_of_offset, fun a hr => ?_,
    fun a b hab => congrArg (fun n : BitVec 12 => regOfWord n.toNat) hab, fun a => ?_⟩
  · have hword := (regOfWord_atWord (mt regOfWord_eq_reserved_iff.mpr hr)).offset
    rwa [← toNat_offsetBits, BitVec.ofNat_toNat, BitVec.setWidth_eq] at hword
  · rw [regOf, regOfWord_eq_reserved_iff, toNat_offsetBits, ReservedWord]
    omega

end Sys2Proof.Machine
end

section
/-! PROOFS. ENCODE and DECODE commute with any change of WEIGHT and MCOLL: no check and no walk reads either, and every way
these commands end updates other fields (20_memory.md R98; 42_encoder.md R210; 43_decoder.md R246). -/

namespace Sys2Proof.Machine

variable (w : Vector Word 256) (m : Bool)

/-- The state with another WEIGHT array and another MCOLL. -/
def State.withWeights (w : Vector Word 256) (m : Bool) (s : State) : State :=
  { s with weight := w, table := { s.table with mcoll := m } }

/-! ### ENCODE -/

/-- Which symbols have codewords, and which they are, does not depend on MCOLL. -/
theorem encodeSymbols_withWeights (symbols : List Byte) (s : State) :
    encodeSymbols symbols (s.withWeights w m) = (encodeSymbols symbols s).withWeights w m := by
  have hmissing : firstMissing (s.withWeights w m).table symbols = firstMissing s.table symbols := rfl
  simp only [encodeSymbols, hmissing]
  cases firstMissing s.table symbols with
  | some i => rfl
  | none =>
    simp only [apply_ite (State.withWeights w m)]
    rfl

/-- Every check and every outcome of ENCODE commutes with the change. -/
theorem exec_encode_withWeights (s : State) :
    ∃ t, exec .encode s = .next t ∧ exec .encode (s.withWeights w m) = .next (t.withWeights w m) := by
  refine ⟨_, rfl, ?_⟩
  simp only [exec, execEncode, encodeSymbols_withWeights, apply_ite (State.withWeights w m)]
  rfl

/-! ### DECODE -/

section
variable (t : CodeTable) (outDepth : Nat)

theorem walkTree_withMcoll (bits : List Bool) (j k : Nat) (node : NodeIx) :
    walkTree { t with mcoll := m } outDepth bits j k node = walkTree t outDepth bits j k node := by
  induction bits generalizing j k node with
  | nil => rfl
  | cons b bits ih =>
    simp only [walkTree, ih]
    rfl

theorem walkLeaf_withMcoll (bits : List Bool) (j k : Nat) :
    walkLeaf { t with mcoll := m } outDepth bits j k = walkLeaf t outDepth bits j k := by
  induction bits generalizing j k with
  | nil => rfl
  | cons b bits ih => simp only [walkLeaf, ih]

/-- The walk reads ROOT, LEFT and RIGHT, not MCOLL. -/
theorem walkPayload_withMcoll (bits : List Bool) :
    walkPayload { t with mcoll := m } outDepth bits = walkPayload t outDepth bits := by
  simp only [walkPayload, walkTree_withMcoll, walkLeaf_withMcoll]

end

theorem decodeSplit_withWeights (bits terminator : List Bool) (s : State) :
    decodeSplit bits terminator (s.withWeights w m) = (decodeSplit bits terminator s).withWeights w m := by
  have hwalk : walkPayload (s.withWeights w m).table (s.withWeights w m).cfg.outDepth bits =
      walkPayload s.table s.cfg.outDepth bits :=
    walkPayload_withMcoll m s.table s.cfg.outDepth bits
  simp only [decodeSplit, hwalk]
  cases walkPayload s.table s.cfg.outDepth bits with
  | failed code info => rfl
  | done symbols node =>
    simp only [apply_ite (State.withWeights w m)]
    cases firstZero terminator <;> rfl

theorem decodeStream_withWeights (stream : List Bool) (s : State) :
    decodeStream stream (s.withWeights w m) = (decodeStream stream s).withWeights w m := by
  simp only [decodeStream, decodeSplit_withWeights, apply_ite (State.withWeights w m)]
  rfl

/-- Every check and every outcome of DECODE commutes with the change. -/
theorem exec_decode_withWeights (s : State) :
    ∃ t, exec .decode s = .next t ∧ exec .decode (s.withWeights w m) = .next (t.withWeights w m) := by
  refine ⟨_, rfl, ?_⟩
  simp only [exec, execDecode, decodeStream_withWeights, apply_ite (State.withWeights w m)]
  rfl

/-- Settles O33: each command commutes with the change, its checks and its walk reading neither. -/
theorem codecUsesTheTableNotTheWeights : Obligations.CodecUsesTheTableNotTheWeights := by
  rintro s w m i (rfl | rfl)
  · exact exec_encode_withWeights w m s
  · exact exec_decode_withWeights w m s

end Sys2Proof.Machine
end

section
/-! PROOFS. The decoder inverts the encoder: the two fields make up a command word, and the opcode map answers a command for
its own opcode only (30_encoding.md R110 to R113; 40_commands.md R143). -/

namespace Sys2Proof

variable {w : Word} {i : Instr}

theorem decode_encode (i : Instr) : decode (encode i) = some i :=
  match i with
  | .nop => Laws.EncodingRoundTrip.nop.2.1
  | .clrw => Laws.EncodingRoundTrip.clrw.2.1
  | .build => Laws.EncodingRoundTrip.build.2.1
  | .encode => Laws.EncodingRoundTrip.encode.2.1
  | .decode => Laws.EncodingRoundTrip.decode.2.1

/-- RSVD and OPCODE are all of the word. -/
theorem rsvd_append_opcode_cmdFields (w : Word) : (cmdFields w).rsvd ++ (cmdFields w).opcode = w :=
  (BitVec.extractLsb'_append_extractLsb'_eq_extractLsb' rfl).trans BitVec.extractLsb'_eq_self

theorem eq_opcode_of_opcodeMap {op : BitVec 8} (h : opcodeMap op = some i) : op = i.opcode := by
  apply BitVec.eq_of_toNat_eq
  unfold opcodeMap at h
  split at h <;> cases h <;> assumption

theorem decode_eq_some_iff_fields :
    decode w = some i ↔ (cmdFields w).rsvd = 0#24 ∧ opcodeMap (cmdFields w).opcode = some i := by
  simp [decode, CmdFields.rsvdOk]

theorem decode_eq_some_iff : decode w = some i ↔ w = encode i := by
  constructor
  · intro h
    obtain ⟨hrsvd, hop⟩ := decode_eq_some_iff_fields.mp h
    calc w = (cmdFields w).rsvd ++ (cmdFields w).opcode := (rsvd_append_opcode_cmdFields w).symm
      _ = encode i := by rw [hrsvd, eq_opcode_of_opcodeMap hop]; rfl
  · rintro rfl
    exact decode_encode i

/-- Settles O1: a word that decodes is made of RSVD = 0 and the command's opcode, which is how the command is encoded. -/
theorem decodeAcceptsExactlyTheFiveWords : Obligations.DecodeAcceptsExactlyTheFiveWords :=
  ⟨⟨rfl, rfl, rfl, rfl, rfl⟩, fun _ _ => decode_eq_some_iff⟩

end Sys2Proof
end

section
/-! PROOFS. Bytes as bit strings and bit strings as bytes: a bit string's number has its bits, so eight bits and a byte are the
same thing, and a stream is read and packed byte by byte (00_scope.md R7; 30_encoding.md R116, R117). -/

namespace Sys2Proof.Machine

variable {bits : List Bool}

/-! ### The number of a bit string -/

theorem bitsValue_concat (bits : List Bool) (b : Bool) : bitsValue (bits ++ [b]) = Nat.bit b (bitsValue bits) := by
  simp [bitsValue, Nat.bit_val]

/-- The last bit is the least significant one. -/
theorem testBit_bitsValue {i : Nat} (h : i < bits.length) :
    (bitsValue bits).testBit i = bits[bits.length - 1 - i] := by
  induction bits using List.reverseRecOn generalizing i with
  | nil => simp at h
  | append_singleton bits b ih =>
    rw [bitsValue_concat]
    cases i with
    | zero => simp
    | succ i =>
      have hi : i < bits.length := by simpa using h
      have hix : bits.length - (i + 1) = bits.length - 1 - i := by omega
      have hlt : bits.length - 1 - i < bits.length := by omega
      simp [Nat.testBit_bit_succ, ih hi, hix, List.getElem_append_left hlt]

/-! ### One byte -/

theorem getElem_byteBits (b : Byte) {j : Nat} (h : j < (byteBits b).length) : (byteBits b)[j] = b.getLsbD (7 - j) := by
  simp [byteBits]

theorem getLsbD_ofNat_bitsValue {i : Nat} (h : bits.length = 8) (hi : i < 8) :
    (BitVec.ofNat 8 (bitsValue bits)).getLsbD i = bits[7 - i] := by
  rw [BitVec.getLsbD_ofNat, decide_eq_true hi, Bool.true_and, testBit_bitsValue (by omega)]
  simp only [h]

/-- Reading the byte of eight bits gives them back. -/
theorem byteBits_ofNat_bitsValue (h : bits.length = 8) : byteBits (BitVec.ofNat 8 (bitsValue bits)) = bits := by
  refine List.ext_getElem (by simp [h]) fun j hj hj' => ?_
  rw [getElem_byteBits, getLsbD_ofNat_bitsValue h (by omega)]
  simp only [show 7 - (7 - j) = j by omega]

/-- The number of a byte's bits is the byte. -/
theorem ofNat_bitsValue_byteBits (b : Byte) : BitVec.ofNat 8 (bitsValue (byteBits b)) = b := by
  refine BitVec.eq_of_getLsbD_eq fun i hi => ?_
  rw [getLsbD_ofNat_bitsValue (length_byteBits b) hi, getElem_byteBits, show 7 - (7 - i) = i by omega]

/-! ### Byte by byte -/

theorem streamBits_cons (b : Byte) (rest : List Byte) : streamBits (b :: rest) = byteBits b ++ streamBits rest := rfl

theorem packBytes_append (h : bits.length = 8) (rest : List Bool) :
    packBytes (bits ++ rest) = BitVec.ofNat 8 (bitsValue bits) :: packBytes rest :=
  match bits, h with
  | [_, _, _, _, _, _, _, _], _ => rfl

theorem streamBits_packBytes (n : Nat) (h : bits.length = 8 * n) : streamBits (packBytes bits) = bits := by
  induction n generalizing bits with
  | zero =>
    obtain rfl : bits = [] := List.length_eq_zero_iff.mp h
    rfl
  | succ n ih =>
    have hhead : (bits.take 8).length = 8 := by simp; omega
    have htail : (bits.drop 8).length = 8 * n := by simp; omega
    calc streamBits (packBytes bits)
        = streamBits (packBytes (bits.take 8 ++ bits.drop 8)) := by rw [List.take_append_drop]
      _ = bits.take 8 ++ bits.drop 8 := by
          rw [packBytes_append hhead, streamBits_cons, byteBits_ofNat_bitsValue hhead, ih htail]
      _ = bits := List.take_append_drop 8 bits

theorem packBytes_streamBits (bytes : List Byte) : packBytes (streamBits bytes) = bytes := by
  induction bytes with
  | nil => rfl
  | cons b rest ih =>
    rw [streamBits_cons, packBytes_append (length_byteBits b), ofNat_bitsValue_byteBits, ih]

/-- bit(j) = b_{j div 8}[7 - (j mod 8)] (R116). -/
theorem getElem?_streamBits (bytes : List Byte) (j : Nat) :
    (streamBits bytes)[j]? = (bytes[j / 8]?).map (fun b => b.getLsbD (7 - j % 8)) := by
  induction bytes generalizing j with
  | nil => rfl
  | cons b rest ih =>
    rw [streamBits_cons]
    by_cases hj : j < 8
    · have hj' : j < (byteBits b).length := by simpa using hj
      rw [List.getElem?_append_left hj', List.getElem?_eq_getElem hj', getElem_byteBits, Nat.div_eq_of_lt hj,
        Nat.mod_eq_of_lt hj]
      rfl
    · obtain ⟨k, rfl⟩ : ∃ k, j = k + 8 := ⟨j - 8, by omega⟩
      rw [List.getElem?_append_right (by simp), length_byteBits, Nat.add_sub_cancel, ih,
        Nat.add_div_right k (by decide), Nat.add_mod_right, List.getElem?_cons_succ]

/-- Settles O2: both inverses go byte by byte, and eight bits and their byte determine each other. -/
theorem packingAndReadingAreInverse : Obligations.PackingAndReadingAreInverse :=
  ⟨fun _ ⟨n, hn⟩ => streamBits_packBytes n hn, packBytes_streamBits, getElem?_streamBits⟩

end Sys2Proof.Machine
end

section
/-! PROOFS. What one step is: whose turn it is, the command a pending word decodes to, and what NOP, CLRW, an illegal word and
a CMD write do to the state (00_scope.md R11, R12; 40_commands.md R140 to R149). -/

namespace Sys2Proof.Machine

variable {s : State} {i : Instr} {e : BusEvent} {rest : List BusEvent} {w : Word}

/-! ### Whose turn it is -/

/-- With no event to come it is the engine's turn (R12). -/
theorem step_of_bus_nil (hbus : s.bus = []) : step s = engineTurn s := by simp only [step, turn, hbus]

theorem step_of_bus_cons (hbus : s.bus = e :: rest) : step s = takeEvent e { s with bus := rest } := by
  simp only [step, turn, hbus]

/-- An engine slot at the head of the list gives the turn to the engine (R12). -/
theorem step_of_engineSlot (hbus : s.bus = .engine :: rest) : step s = engineTurn { s with bus := rest } :=
  step_of_bus_cons hbus

/-- The enabled engine runs the command (R143, R149). -/
theorem engineTurn_of_decode (hb : s.busy = true) (hr : s.rst = false) (hd : decode s.pending = some i) :
    engineTurn s = exec i s := by
  simp [engineTurn, engineStep, State.engineEnabled, hb, hr, hd]

/-- The engine that is not enabled idles (R292, R300). -/
theorem engineTurn_of_disabled (h : s.busy = false ∨ s.rst = true) : engineTurn s = .next s := by
  rcases h with h | h <;> simp [engineTurn, State.engineEnabled, h]

/-- Settles O3: the head of the event list says whose turn it is, and the engine's turn is its command or nothing. -/
theorem stepRunsTheDecodedCommand : Obligations.StepRunsTheDecodedCommand := by
  intro s
  refine ⟨fun i hb hr hd => ⟨fun hbus => ?_, fun rest hbus => ?_⟩,
    fun rest a v hr => ⟨fun hbus => ?_, fun hbus => ?_⟩,
    fun hidle => ⟨fun hbus => ?_, fun rest hbus => ?_⟩,
    fun rest hbus => step_of_bus_cons hbus, fun rest hbus => step_of_bus_cons hbus⟩
  · rw [step_of_bus_nil hbus, engineTurn_of_decode hb hr hd]
  · rw [step_of_engineSlot hbus]
    exact engineTurn_of_decode hb hr hd
  · simp [step_of_bus_cons hbus, takeEvent, hr]
  · simp [step_of_bus_cons hbus, takeEvent, hr]
  · rw [step_of_bus_nil hbus, engineTurn_of_disabled hidle]
  · rw [step_of_engineSlot hbus]
    exact engineTurn_of_disabled hidle

/-! ### A word placed for fetching -/

theorem withFetchWord_word (s : State) (w : Word) :
    s.withFetchWord 32 w.toNat = { s with pending := w, busy := true, rst := false, bus := .engine :: s.bus } := by
  simp only [State.withFetchWord, Nat.mod_eq_of_lt w.isLt, BitVec.ofNat_toNat, BitVec.setWidth_eq]
  rfl

/-- Settles O4: the slot put at the head of the event list is the engine's, and the word put in PENDING decodes to its
command. -/
theorem fetchedWordRunsNext : Obligations.FetchedWordRunsNext := by
  intro s i
  rw [withFetchWord_word, step_of_engineSlot rfl]
  exact engineTurn_of_decode rfl rfl (decode_encode i)

/-! ### A word that is no command -/

/-- No command has a bit of RSVD set or an opcode from 0x05 on (R112, R113). -/
theorem decode_eq_none (h : w.extractLsb' 8 24 ≠ 0#24 ∨ 5 ≤ (w.extractLsb' 0 8).toNat) : decode w = none := by
  refine Option.eq_none_iff_forall_ne_some.mpr fun i hi => ?_
  obtain rfl := decode_eq_some_iff.mp hi
  revert h
  cases i <;> decide

/-- The enabled engine completes a word that is no command with ILLEGAL_COMMAND (R146). -/
theorem engineTurn_of_decode_eq_none (hb : s.busy = true) (hr : s.rst = false) (hd : decode s.pending = none) :
    engineTurn s = .next { s with
      errCode := .illegalCommand, errInfo := s.pending, irqDone := true, irqError := true, busy := false } := by
  simp [engineTurn, engineStep, State.engineEnabled, execIllegal, State.completeWith, hb, hr, hd]

/-- Settles O5: such a word does not decode, so the engine's turn completes it with ILLEGAL_COMMAND. -/
theorem illegalWordCompletesWithIllegalCommand : Obligations.IllegalWordCompletesWithIllegalCommand := by
  intro s hb hr hw
  have hd := decode_eq_none hw
  refine ⟨fun hbus => ?_, fun rest hbus => ?_⟩
  · rw [step_of_bus_nil hbus, engineTurn_of_decode_eq_none hb hr hd]
  · rw [step_of_engineSlot hbus]
    exact engineTurn_of_decode_eq_none hb hr hd

/-! ### NOP, CLRW and the CMD write -/

/-- A completion without error leaves the sticky ERROR bit as it is (R26, R142). -/
theorem completeWith_none (s : State) :
    s.completeWith .none 0 = { s with errCode := .none, errInfo := 0, irqDone := true, busy := false } := by
  simp [State.completeWith]

/-- Settles O10: NOP is the completion alone. -/
theorem nopOnlyCompletes : Obligations.NopOnlyCompletes :=
  fun s => congrArg Host.Outcome.next (completeWith_none s)

/-- Settles O11: CLRW stores an array of zeros, and the rest is the completion. -/
theorem clrwClearsEveryWeight : Obligations.ClrwClearsEveryWeight :=
  fun _ => ⟨_, rfl, fun _ => Vector.getElem_replicate _, completeWith_none _⟩

/-- Settles O47: a CMD write is the acceptance of R140 with BUSY = 0, and the drop of R141 with BUSY = 1. -/
theorem commandWritesAreAcceptedOrDropped : Obligations.CommandWritesAreAcceptedOrDropped := by
  refine fun s a v hcmd => ⟨fun hb => ?_, fun hb => ?_⟩
  · rw [hostWrite_of_idle hb, hcmd]
    rfl
  · rw [hostWrite_of_busy a v hb, hcmd]
    rfl

end Sys2Proof.Machine
end

section
/-! PROOFS. A command's results are a function of its operands: states with the same operands pass the same checks and end in
the same way, and a host transaction while BUSY = 1 changes no operand (30_encoding.md R114; 40_commands.md R148; 42_encoder.md
R209 item 5). -/

namespace Sys2Proof.Machine

variable {s t u v : State}

/-! ### A host transaction while BUSY = 1 keeps what a command reads and writes -/

namespace SameForEngine

theorem refl (s : State) : SameForEngine s s := by constructor <;> rfl

theorem drawnIf (b : Bool) (s : State) : SameForEngine s (if b then s.drawn else s) := by
  cases b
  · exact refl s
  · exact { refl s with }

/-- The side effect of a read moves a pointer at most (R85). -/
theorem readEffect (h : SameForEngine s u) (r : Reg) : SameForEngine s (u.readEffect r) := by
  rcases readEffect_cases r u with ⟨-, he⟩ | ⟨-, he⟩ | ⟨-, -, he⟩ <;> rw [he]
  · exact { h with }
  · exact { h with }
  · exact h

theorem record (h : SameForEngine s u) (a w : Word) : SameForEngine s (u.record a w) := { h with }

/-- A write while BUSY = 1 changes IRQ_STATUS at most (R61, R141). -/
theorem writeBusy (r : Reg) (w : Word) (s : State) : SameForEngine s (s.writeBusy r w) := by
  rcases writeBusy_cases r w s with ⟨-, he⟩ | ⟨-, he⟩ | ⟨-, -, he⟩ <;> rw [he]
  · exact { refl s with }
  · exact { refl s with }
  · exact refl s

theorem toSameStreamOperands (h : SameForEngine s u) : SameStreamOperands s u :=
  ⟨h.cfg, h.len, h.table, fun i _ => by rw [h.inBuf]⟩

end SameForEngine

/-- Settles O8: a write while BUSY = 1 changes IRQ_STATUS at most, and a read the draw counter, a pointer and the trace. -/
theorem hostTransactionsKeepWhatACommandReads : Obligations.HostTransactionsKeepWhatACommandReads := by
  refine fun s a w hb => ⟨?_, ((SameForEngine.drawnIf _ s).readEffect _).record a _⟩
  rw [hostWrite_of_busy a w hb]
  exact SameForEngine.writeBusy _ w s

/-! ### States with the same operands end in the same way -/

theorem SameStreamOperands.refl (s : State) : SameStreamOperands s s := ⟨rfl, rfl, rfl, fun _ _ => rfl⟩

/-- BUILD is decided by WEIGHT and REJECT_COLLISION (R160, R178). -/
theorem execBuild_alike (s : State) :
    (∀ u, u.weight = s.weight → u.rejectCollision = s.rejectCollision →
      exec .build u = .next (({ u with heap := buildHeap s.weights }).storeTable (tableOf s.weights))) ∨
    (∀ u, u.weight = s.weight → u.rejectCollision = s.rejectCollision →
      exec .build u = .next (({ u with heap := buildHeap s.weights }).rejectTable (tableOf s.weights))) := by
  have hexec : ∀ u, u.weight = s.weight → u.rejectCollision = s.rejectCollision → exec .build u = .next (
      if (tableOf s.weights).mcoll && s.rejectCollision then
        ({ u with heap := buildHeap s.weights }).rejectTable (tableOf s.weights)
      else ({ u with heap := buildHeap s.weights }).storeTable (tableOf s.weights)) := fun u hw hr => by
    simp only [exec, execBuild, State.weights, hw, hr]
  split_ifs at hexec
  · exact .inr hexec
  · exact .inl hexec

/-- ENCODE of symbols is decided by the code table and OUT_DEPTH (R203 to R206). -/
theorem encodeSymbols_alike (symbols : List Byte) (s : State) :
    (∃ code info, code ≠ .none ∧
      ∀ u, u.table = s.table → u.cfg = s.cfg → encodeSymbols symbols u = u.failEncode code info) ∨
    (∃ p, ∀ u, u.table = s.table → u.cfg = s.cfg → encodeSymbols symbols u = u.storeStream p) := by
  rcases hm : firstMissing s.table symbols with _ | i
  · by_cases hsize : s.cfg.outDepth < streamSize (payload s.table symbols)
    · exact .inl ⟨.outputOverflow, .ofNat 32 (streamSize (payload s.table symbols)), by decide, fun u ht hc => by
        simp [encodeSymbols, ht, hc, hm, hsize]⟩
    · exact .inr ⟨payload s.table symbols, fun u ht hc => by simp [encodeSymbols, ht, hc, hm, hsize]⟩
  · exact .inl ⟨.symbolNotInTable, .ofNat 32 i, by decide, fun u ht _ => by simp [encodeSymbols, ht, hm]⟩

/-- ENCODE is decided by the operands of R114: it fails with one error, or stores one stream. -/
theorem execEncode_alike (s : State) :
    (∃ code info, code ≠ .none ∧ ∀ u, SameStreamOperands s u → exec .encode u = .next (u.failEncode code info)) ∨
    (s.table.nsym = 0#9 ∧ ∀ u, SameStreamOperands s u → exec .encode u = .next u.storeEmptyStream) ∨
    (∃ p, ∀ u, SameStreamOperands s u → exec .encode u = .next (u.storeStream p)) := by
  have hexec : ∀ u, SameStreamOperands s u → exec .encode u = .next (
      if !s.table.valid then u.failEncode .noTable 0
      else if s.lengthBad then u.failEncode .badLength s.len
      else if s.table.nsym == 0#9 && s.len == 0#32 then u.storeEmptyStream
      else encodeSymbols s.inputBytes u) := fun u h => by
    simp only [exec, execEncode, h.table, h.lengthBad, h.len, h.inputBytes]
  split_ifs at hexec with hvalid hlen hempty
  · exact .inl ⟨_, _, by decide, hexec⟩
  · exact .inl ⟨_, _, by decide, hexec⟩
  · exact .inr (.inl ⟨(by simpa using hempty : _ ∧ _).1, hexec⟩)
  · rcases encodeSymbols_alike s.inputBytes s with ⟨code, info, hc, he⟩ | ⟨p, he⟩
    · exact .inl ⟨code, info, hc, fun u h => by rw [hexec u h, he u h.table h.cfg]⟩
    · exact .inr (.inr ⟨p, fun u h => by rw [hexec u h, he u h.table h.cfg]⟩)

/-- DECODE of a split stream is decided by the code table and OUT_DEPTH (R236 to R242). -/
theorem decodeSplit_alike (bits terminator : List Bool) (s : State) :
    (∃ code info, code ≠ .none ∧
      ∀ u, u.table = s.table → u.cfg = s.cfg → decodeSplit bits terminator u = u.failDecode code info) ∨
    (∃ symbols, ∀ u, u.table = s.table → u.cfg = s.cfg → decodeSplit bits terminator u = u.storeSymbols symbols) := by
  rcases decodeSplit_outcomes bits terminator s with
    ⟨code, info, hw, -⟩ | ⟨symbols, node, hw, hn, -⟩ | ⟨symbols, i, hw, hz, -⟩ | ⟨symbols, hw, hz, -⟩
  · have hcode : (WalkResult.failed code info).Bounded s.cfg.outDepth := hw ▸ walkPayload_bounded _ _ _
    exact .inl ⟨code, .ofNat 32 info, hcode, fun u ht hc => by simp [decodeSplit, ht, hc, hw]⟩
  · exact .inl ⟨.truncatedStream, .ofNat 32 bits.length, by decide, fun u ht hc => by simp [decodeSplit, ht, hc, hw, hn]⟩
  · exact .inl ⟨.unknownCodeword, .ofNat 32 (bits.length + i), by decide, fun u ht hc => by
      simp [decodeSplit, ht, hc, hw, hz]⟩
  · exact .inr ⟨symbols, fun u ht hc => by simp [decodeSplit, ht, hc, hw, hz]⟩

/-- DECODE of a stream is decided by the code table, OUT_DEPTH and PAD (R234 to R242). -/
theorem decodeStream_alike (stream : List Bool) (s : State) :
    (∃ code info, code ≠ .none ∧ ∀ u, u.table = s.table → u.cfg = s.cfg → u.pad = s.pad →
      decodeStream stream u = u.failDecode code info) ∨
    (∃ symbols, ∀ u, u.table = s.table → u.cfg = s.cfg → u.pad = s.pad →
      decodeStream stream u = u.storeSymbols symbols) := by
  by_cases hshort : stream.length < s.pad.toNat + 8
  · exact .inl ⟨.truncatedStream, .ofNat 32 stream.length, by decide, fun u _ _ hp => by
      simp [decodeStream, State.sentinelLen, hp, hshort]⟩
  · have hsplit : ∀ u, u.pad = s.pad → decodeStream stream u =
        decodeSplit (stream.take (stream.length - s.sentinelLen)) (stream.drop (stream.length - s.sentinelLen)) u :=
      fun u hp => by simp [decodeStream, State.sentinelLen, hp, hshort]
    rcases decodeSplit_alike _ _ s with ⟨code, info, hcode, he⟩ | ⟨symbols, he⟩
    · exact .inl ⟨code, info, hcode, fun u ht hc hp => (hsplit u hp).trans (he u ht hc)⟩
    · exact .inr ⟨symbols, fun u ht hc hp => (hsplit u hp).trans (he u ht hc)⟩

/-- DECODE is decided by the operands of R114: it fails with one error, or stores one run of symbols. -/
theorem execDecode_alike (s : State) :
    (∃ code info, code ≠ .none ∧
      ∀ u, SameStreamOperands s u → u.pad = s.pad → exec .decode u = .next (u.failDecode code info)) ∨
    (∃ symbols, ∀ u, SameStreamOperands s u → u.pad = s.pad → exec .decode u = .next (u.storeSymbols symbols)) := by
  have hexec : ∀ u, SameStreamOperands s u → exec .decode u = .next (
      if !s.table.valid then u.failDecode .noTable 0
      else if s.lengthBad then u.failDecode .badLength s.len
      else if s.len == 0#32 then u.storeSymbols []
      else if s.table.nsym == 0#9 then u.failDecode .unknownCodeword 0
      else decodeStream (streamBits s.inputBytes) u) := fun u h => by
    simp only [exec, execDecode, h.table, h.lengthBad, h.len, h.inputBytes]
  split_ifs at hexec with hvalid hlen hzero hempty
  · exact .inl ⟨_, _, by decide, fun u h _ => hexec u h⟩
  · exact .inl ⟨_, _, by decide, fun u h _ => hexec u h⟩
  · exact .inr ⟨_, fun u h _ => hexec u h⟩
  · exact .inl ⟨_, _, by decide, fun u h _ => hexec u h⟩
  · rcases decodeStream_alike (streamBits s.inputBytes) s with ⟨code, info, hc, he⟩ | ⟨symbols, he⟩
    · exact .inl ⟨code, info, hc, fun u h hp => by rw [hexec u h, he u h.table h.cfg hp]⟩
    · exact .inr ⟨symbols, fun u h hp => by rw [hexec u h, he u h.table h.cfg hp]⟩

/-! ### The results of two such states -/

/-- What a command records and stores; OUT_BUF counts only without an error (R208, R243). -/
def SameResults (t v : State) : Prop :=
  v.errCode = t.errCode ∧ v.errInfo = t.errInfo ∧ v.outLen = t.outLen ∧ v.encBits = t.encBits ∧ v.pad = t.pad ∧
    v.table = t.table ∧ v.weight = t.weight ∧ v.heap = t.heap ∧ (t.errCode = .none → v.outBuf = t.outBuf)

namespace SameForEngine

theorem completeWith (h : SameForEngine s u) (code : ErrCode) (info : Word) :
    SameResults (s.completeWith code info) (u.completeWith code info) :=
  ⟨rfl, rfl, h.outLen, h.encBits, h.pad, h.table, h.weight, h.heap, fun _ => h.outBuf⟩

/-- Every command that starts from the same fields ends with the same results. -/
theorem exec {i : Instr} (h : SameForEngine s u) (ht : exec i s = .next t) (hv : exec i u = .next v) :
    SameResults t v := by
  have hs := SameStreamOperands.refl s
  have hu := h.toSameStreamOperands
  cases i with
  | nop =>
    rw [execNop_cases ht, execNop_cases hv]
    exact h.completeWith _ _
  | clrw =>
    rw [execClrw_cases ht, execClrw_cases hv]
    exact ⟨rfl, rfl, h.outLen, h.encBits, h.pad, h.table, rfl, h.heap, fun _ => h.outBuf⟩
  | build =>
    rcases execBuild_alike s with he | he <;> cases ht.symm.trans (he s rfl rfl) <;>
      cases hv.symm.trans (he u h.weight h.rejectCollision)
    · exact ⟨rfl, rfl, h.outLen, h.encBits, h.pad, rfl, h.weight, rfl, fun _ => h.outBuf⟩
    · exact ⟨rfl, rfl, h.outLen, h.encBits, h.pad, by simp [State.rejectTable, h.table], h.weight, rfl, fun _ => h.outBuf⟩
  | encode =>
    rcases execEncode_alike s with ⟨code, info, hc, he⟩ | ⟨-, he⟩ | ⟨p, he⟩ <;> cases ht.symm.trans (he s hs) <;>
      cases hv.symm.trans (he u hu)
    · exact ⟨rfl, rfl, rfl, rfl, h.pad, h.table, h.weight, h.heap, fun hn => absurd hn hc⟩
    · exact ⟨rfl, rfl, rfl, rfl, h.pad, h.table, h.weight, h.heap, fun _ => h.outBuf⟩
    · exact ⟨rfl, rfl, rfl, rfl, rfl, h.table, h.weight, h.heap, fun _ => congrArg (Memory.writeFrom · 0 _) h.outBuf⟩
  | decode =>
    rcases execDecode_alike s with ⟨code, info, hc, he⟩ | ⟨symbols, he⟩ <;> cases ht.symm.trans (he s hs rfl) <;>
      cases hv.symm.trans (he u hu h.pad)
    · exact ⟨rfl, rfl, rfl, h.encBits, h.pad, h.table, h.weight, h.heap, fun hn => absurd hn hc⟩
    · exact ⟨rfl, rfl, rfl, h.encBits, h.pad, h.table, h.weight, h.heap,
        fun _ => congrArg (Memory.writeFrom · 0 _) h.outBuf⟩

/-- The engine step on the same fields, an illegal word included, ends with the same results (R143, R146). -/
theorem engineStep (h : SameForEngine s u) (ht : engineStep s = .next t) (hv : engineStep u = .next v) :
    SameResults t v := by
  simp only [Machine.engineStep, h.pending] at ht hv
  split at ht
  · next i hd =>
    rw [hd] at hv
    exact h.exec ht hv
  · next hd =>
    rw [hd] at hv
    cases ht
    cases hv
    rw [h.pending]
    exact h.completeWith _ _

end SameForEngine

/-- The bytes written from index 0 on are read alike below any count that is cut to 32 bits. -/
theorem read_writeFrom_zero_alike (m m' : Memory) (bytes : List Byte) {i : Nat}
    (h : i < (BitVec.ofNat 32 bytes.length).toNat) : (m'.writeFrom 0 bytes).read i = (m.writeFrom 0 bytes).read i := by
  have hi : i < bytes.length := h.trans_le (toNat_ofNat_le le_rfl)
  rw [Memory.read_writeFrom_zero_below m' bytes hi, Memory.read_writeFrom_zero_below m bytes hi]

theorem execBuild_sameResults (hw : u.weight = s.weight) (hr : u.rejectCollision = s.rejectCollision)
    (ht : exec .build s = .next t) (hv : exec .build u = .next v) :
    v.errCode = t.errCode ∧ v.errInfo = t.errInfo ∧ v.table.valid = t.table.valid ∧ v.table.mcoll = t.table.mcoll ∧
      v.heap = t.heap ∧ (t.errCode = .none → v.table = t.table) := by
  rcases execBuild_alike s with he | he <;> cases ht.symm.trans (he s rfl rfl) <;> cases hv.symm.trans (he u hw hr)
  · exact ⟨rfl, rfl, rfl, rfl, rfl, fun _ => rfl⟩
  · exact ⟨rfl, rfl, rfl, rfl, rfl, fun hn => nomatch hn⟩

theorem execEncode_sameResults (h : SameStreamOperands s u) (ht : exec .encode s = .next t)
    (hv : exec .encode u = .next v) :
    v.errCode = t.errCode ∧ v.errInfo = t.errInfo ∧ v.outLen = t.outLen ∧ v.encBits = t.encBits ∧
      (t.errCode = .none → (s.table.nsym ≠ 0#9 → v.pad = t.pad) ∧
        ∀ i, i < t.outLen.toNat → v.outBuf.read i = t.outBuf.read i) := by
  rcases execEncode_alike s with ⟨code, info, hc, he⟩ | ⟨hn, he⟩ | ⟨p, he⟩ <;>
    cases ht.symm.trans (he s (.refl s)) <;> cases hv.symm.trans (he u h)
  · exact ⟨rfl, rfl, rfl, rfl, fun hnone => absurd hnone hc⟩
  · exact ⟨rfl, rfl, rfl, rfl, fun _ => ⟨fun hne => absurd hn hne, fun i hi => absurd hi (Nat.not_lt_zero i)⟩⟩
  · refine ⟨rfl, rfl, rfl, rfl, fun _ => ⟨fun _ => rfl, fun i hi => read_writeFrom_zero_alike _ _ _ ?_⟩⟩
    rw [length_packBytes_streamOf]
    exact hi

theorem execDecode_sameResults (h : SameStreamOperands s u) (hp : u.pad = s.pad) (ht : exec .decode s = .next t)
    (hv : exec .decode u = .next v) :
    v.errCode = t.errCode ∧ v.errInfo = t.errInfo ∧ v.outLen = t.outLen ∧
      (t.errCode = .none → ∀ i, i < t.outLen.toNat → v.outBuf.read i = t.outBuf.read i) := by
  rcases execDecode_alike s with ⟨code, info, hc, he⟩ | ⟨symbols, he⟩ <;>
    cases ht.symm.trans (he s (.refl s) rfl) <;> cases hv.symm.trans (he u h hp)
  · exact ⟨rfl, rfl, rfl, fun hnone => absurd hnone hc⟩
  · exact ⟨rfl, rfl, rfl, fun _ i hi => read_writeFrom_zero_alike _ _ _ hi⟩

/-- Settles O9: states with the same operands end in the same way, and each way's results are functions of the operands. -/
theorem commandResultIsAFunctionOfItsInputs : Obligations.CommandResultIsAFunctionOfItsInputs :=
  ⟨fun _ _ _ _ h ht hv => h.engineStep ht hv,
    fun _ _ _ _ hw hr ht hv => execBuild_sameResults hw hr ht hv,
    fun _ _ _ _ h ht hv => execEncode_sameResults h ht hv,
    fun _ _ _ _ h hp ht hv => execDecode_sameResults h hp ht hv⟩

end Sys2Proof.Machine
end

section
/-! PROOFS. The merge loop of BUILD as a relation that fixes what each pop answers and not how the queue is laid out: the
binary heap and the plain queue both follow it, and it has one end (41_tree_builder.md R161 to R171). -/

namespace Sys2Proof.Machine

variable {w q q' : List Nat} {arena arena' : List TreeNode}

/-! ### Popping the least node -/

/-- `r` is a least node of `q` and `q'` holds the others: what a pop answers, whatever the queue (R165, R167). -/
structure Pops (lt : Nat → Nat → Bool) (q : List Nat) (r : Nat) (q' : List Nat) : Prop where
  perm  : (r :: q').Perm q
  least : ∀ x ∈ q, lt x r = false

section
variable {lt : Nat → Nat → Bool} {p p' : List Nat} {r s : Nat}

theorem Pops.mem (h : Pops lt q r q') : r ∈ q := h.perm.mem_iff.mp List.mem_cons_self

theorem Pops.mem_of_mem {x : Nat} (h : Pops lt q r q') (hx : x ∈ q') : x ∈ q :=
  h.perm.mem_iff.mp (List.mem_cons_of_mem _ hx)

theorem Pops.mem_of_ne {x : Nat} (h : Pops lt q r q') (hx : x ∈ q) (hne : x ≠ r) : x ∈ q' :=
  (List.mem_cons.mp (h.perm.mem_iff.mpr hx)).resolve_left hne

theorem Pops.length (h : Pops lt q r q') : q.length = q'.length + 1 := h.perm.length_eq.symm

/-- The node popped comes before every other node of the queue. -/
theorem Pops.before_others {x : Nat} (o : IsOrder lt) (h : Pops lt q r q') (hx : x ∈ q) (hne : x ≠ r) : lt r x = true := by
  rcases o.total hne with hlt | hlt
  · rw [h.least x hx] at hlt
    cases hlt
  · exact hlt

/-- In a strict total order the node popped is determined, and so are the nodes left (R163, R167). -/
theorem Pops.unique (o : IsOrder lt) (hq : Pops lt q r q') (hp : Pops lt p s p') (hqp : q.Perm p) :
    r = s ∧ q'.Perm p' := by
  obtain rfl : r = s := o.eq_of_le_le (hq.least s (hqp.mem_iff.mpr hp.mem)) (hp.least r (hqp.mem_iff.mp hq.mem))
  exact ⟨rfl, (hq.perm.trans (hqp.trans hp.perm.symm)).cons_inv⟩

/-- The binary heap pops a least node (R165). -/
theorem exists_pops_of_heapPop (o : IsOrder lt) (hh : IsHeap lt q) (hne : q ≠ []) :
    ∃ r q', heapPop lt q = some (r, q') ∧ Pops lt q r q' ∧ IsHeap lt q' := by
  rcases heapPop_spec o hh with ⟨rfl, -⟩ | ⟨r, q', hpop, hperm, hheap, hleast⟩
  · exact absurd rfl hne
  · exact ⟨r, q', hpop, ⟨hperm, hleast⟩, hheap⟩

theorem leastOf_mem (lt : Nat → Nat → Bool) (x : Nat) (xs : List Nat) : leastOf lt x xs ∈ x :: xs := by
  induction xs generalizing x with
  | nil => simp [leastOf]
  | cons y ys ih =>
    simp only [leastOf]
    split
    · exact List.mem_cons_of_mem _ (ih y)
    · rcases List.mem_cons.mp (ih x) with h | h <;> simp [h]

theorem leastOf_le (o : IsOrder lt) (x : Nat) (xs : List Nat) : ∀ y ∈ x :: xs, lt y (leastOf lt x xs) = false := by
  induction xs generalizing x with
  | nil => simp [leastOf, o.irrefl]
  | cons z zs ih =>
    simp only [leastOf, List.mem_cons, forall_eq_or_imp] at ih ⊢
    obtain ⟨hhead, htail⟩ := ih (if lt z x then z else x)
    by_cases hzx : lt z x = true
    · simp only [hzx, if_true] at hhead htail ⊢
      exact ⟨o.le_trans hhead (o.asymm hzx), hhead, htail⟩
    · simp only [hzx] at hhead htail ⊢
      exact ⟨hhead, o.le_trans hhead (by simpa using hzx), htail⟩

/-- The plain queue pops a least node (R167). -/
theorem exists_pops_of_setPop (o : IsOrder lt) (hne : q ≠ []) : ∃ r q', setPop lt q = some (r, q') ∧ Pops lt q r q' := by
  cases q with
  | nil => exact absurd rfl hne
  | cons x xs => exact ⟨_, _, rfl, (List.perm_cons_erase (leastOf_mem lt x xs)).symm, leastOf_le o x xs⟩

end

/-! ### The relation -/

/-- The internal node a merge of `a` and `b` creates (R170). -/
def mergeNode (w : List Nat) (arena : List TreeNode) (a b : Nat) : TreeNode :=
  { left := a, right := b, weight := nodeWeight w arena a + nodeWeight w arena b }

/-- The queues and arenas that merging the alphabet of `w` passes through, queues up to their order (R166, R170). -/
inductive Merged (w : List Nat) : List Nat → List TreeNode → Prop
  | start {q : List Nat} : q.Perm (alphabet w) → Merged w q []
  | merge {q q1 q2 q' : List Nat} {arena : List TreeNode} {a b : Nat} : Merged w q arena →
      Pops (before w arena) q a q1 → Pops (before w arena) q1 b q2 → q'.Perm ((256 + arena.length) :: q2) →
      Merged w q' (arena ++ [mergeNode w arena a b])

/-- As many merges of one weight table make the same nodes and leave the same queue: each pop is determined. -/
theorem Merged.unique (h : Merged w q arena) (h' : Merged w q' arena') (hlen : arena.length = arena'.length) :
    arena = arena' ∧ q.Perm q' := by
  induction h generalizing q' arena' with
  | start hq =>
    cases h' with
    | start hq' => exact ⟨rfl, hq.trans hq'.symm⟩
    | merge => simp at hlen
  | merge _ hpop1 hpop2 hq ih =>
    cases h' with
    | start => simp at hlen
    | merge h' hpop1' hpop2' hq' =>
      obtain ⟨rfl, hperm⟩ := ih h' (by simpa using hlen)
      obtain ⟨rfl, hperm1⟩ := hpop1.unique (before_isOrder _ _) hpop1' hperm
      obtain ⟨rfl, hperm2⟩ := hpop2.unique (before_isOrder _ _) hpop2' hperm1
      exact ⟨rfl, hq.trans ((hperm2.cons _).trans hq'.symm)⟩

/-- Each merge makes one node and shortens the queue by one (R170). -/
theorem Merged.length (h : Merged w q arena) : q.length + arena.length = (alphabet w).length := by
  induction h with
  | start hq => simpa using hq.length_eq
  | merge _ hpop1 hpop2 hq ih =>
    have h1 := hpop1.length
    have h2 := hpop2.length
    have h3 := hq.length_eq
    simp only [List.length_cons, List.length_append, List.length_nil] at *
    omega

/-- A merge leaves its new node in the queue. -/
theorem Merged.newest_mem (h : Merged w q arena) (hne : arena ≠ []) : 256 + (arena.length - 1) ∈ q := by
  cases h with
  | start => exact absurd rfl hne
  | merge _ _ _ hq => exact hq.mem_iff.mpr (by simp)

/-- A queue is empty only where nothing was there to merge. -/
theorem Merged.arena_eq_nil (h : Merged w q arena) (hq : q = []) : arena = [] := by
  by_contra hne
  have := h.newest_mem hne
  rw [hq] at this
  cases this

/-- Merging to the end leaves one queue and one arena. -/
theorem Merged.unique_end (h : Merged w q arena) (h' : Merged w q' arena') (hle : q.length ≤ 1)
    (hle' : q'.length ≤ 1) : arena = arena' ∧ q = q' := by
  have hsame : arena.length = arena'.length := by
    have hlen := h.length
    have hlen' := h'.length
    have hnil := h.arena_eq_nil
    have hnil' := h'.arena_eq_nil
    simp only [← List.length_eq_zero_iff] at hnil hnil'
    omega
  obtain ⟨rfl, hperm⟩ := h.unique h' hsame
  refine ⟨rfl, ?_⟩
  match q, q', hperm, hle with
  | [], _, hperm, _ => exact hperm.nil_eq
  | [x], _, hperm, _ => exact (List.perm_singleton.mp hperm.symm).symm

/-! ### The nodes at hand -/

theorem presentFrom_eq_filter (s : Nat) (ws : List Nat) :
    presentFrom s ws = ((List.range ws.length).filter (fun i => decide (0 < ws.getD i 0))).map (s + ·) := by
  induction ws generalizing s with
  | nil => rfl
  | cons x ws ih =>
    simp only [presentFrom, ih, List.length_cons, List.range_succ_eq_map, List.filter_cons, List.getD_cons_zero,
      decide_eq_true_eq, List.filter_map]
    split <;> simp [Function.comp_def, Nat.add_comm, Nat.add_left_comm]

theorem alphabet_eq_filter (w : List Nat) :
    alphabet w = (List.range w.length).filter (fun s => decide (0 < w.getD s 0)) := by
  simp [alphabet, presentFrom_eq_filter]

theorem mem_alphabet {s : Nat} : s ∈ alphabet w ↔ 0 < w.getD s 0 := by
  simp only [alphabet_eq_filter, List.mem_filter, List.mem_range, decide_eq_true_eq, and_iff_right_iff_imp]
  intro h
  by_contra hle
  rw [List.getD_eq_default _ _ (Nat.le_of_not_lt hle)] at h
  exact h.false

theorem nodup_alphabet (w : List Nat) : (alphabet w).Nodup := by
  rw [alphabet_eq_filter]
  exact List.nodup_range.filter _

theorem lt_of_mem_alphabet (hw : w.length = 256) {s : Nat} (hs : s ∈ alphabet w) : s < 256 := by
  rw [alphabet_eq_filter, List.mem_filter, List.mem_range] at hs
  exact hw ▸ hs.1

theorem childList_append_singleton (arena : List TreeNode) (nd : TreeNode) :
    childList (arena ++ [nd]) = childList arena ++ [nd.left, nd.right] := by simp [childList]

/-- Nothing is lost or made twice: the nodes waiting and the nodes that are a child are the leaves of the alphabet and the
internal nodes made (R170, R180). -/
theorem Merged.perm (h : Merged w q arena) :
    (q ++ childList arena).Perm (alphabet w ++ List.range' 256 arena.length) := by
  induction h with
  | start hq => simpa [childList] using hq
  | @merge q q1 q2 q' arena a b _ hpop1 hpop2 hq ih =>
    simp only [List.perm_iff_count] at *
    intro x
    have h1 := hpop1.perm.count_eq x
    have h2 := hpop2.perm.count_eq x
    have h3 := hq x
    have h4 := ih x
    simp only [childList_append_singleton, mergeNode, List.length_append, List.length_singleton, List.range'_concat,
      Nat.one_mul, List.count_append, List.count_cons, List.count_nil] at *
    omega

theorem Merged.nodup (hw : w.length = 256) (h : Merged w q arena) : (q ++ childList arena).Nodup := by
  refine h.perm.nodup_iff.mpr (List.nodup_append'.mpr ⟨nodup_alphabet w, List.nodup_range', ?_⟩)
  intro x hx hx'
  have := lt_of_mem_alphabet hw hx
  simp at hx'
  omega

/-- The nodes that exist after `k` merges: the leaves of the alphabet and the internal nodes made (R161, R170). -/
def IsNode (w : List Nat) (k x : Nat) : Prop := (x < 256 ∧ 0 < w.getD x 0) ∨ (256 ≤ x ∧ x < 256 + k)

theorem isNode_iff (hw : w.length = 256) {k x : Nat} : IsNode w k x ↔ x ∈ alphabet w ++ List.range' 256 k := by
  have := lt_of_mem_alphabet hw (s := x)
  simp only [IsNode, List.mem_append, List.mem_range'_1, mem_alphabet] at *
  tauto

theorem IsNode.lt {k x : Nat} (h : IsNode w k x) : x < 256 + k := by
  simp only [IsNode] at h
  omega

theorem Merged.isNode (hw : w.length = 256) (h : Merged w q arena) {x : Nat} (hx : x ∈ q) : IsNode w arena.length x :=
  (isNode_iff hw).mpr (h.perm.mem_iff.mp (List.mem_append_left _ hx))

theorem Merged.lt (hw : w.length = 256) (h : Merged w q arena) {x : Nat} (hx : x ∈ q) : x < 256 + arena.length :=
  (h.isNode hw hx).lt

/-! ### Weights and their order while the arena grows -/

/-- A node's weight stays while later nodes are made. -/
theorem nodeWeight_append (w : List Nat) (arena more : List TreeNode) {x : Nat} (hx : x < 256 + arena.length) :
    nodeWeight w (arena ++ more) x = nodeWeight w arena x := by
  simp only [nodeWeight]
  split
  · rfl
  · rw [List.getElem?_append_left (by omega)]

theorem nodeWeight_newest (w : List Nat) (arena : List TreeNode) (nd : TreeNode) :
    nodeWeight w (arena ++ [nd]) (256 + arena.length) = nd.weight := by simp [nodeWeight]

theorem before_append (w : List Nat) (arena more : List TreeNode) {x y : Nat} (hx : x < 256 + arena.length)
    (hy : y < 256 + arena.length) : before w (arena ++ more) x y = before w arena x y := by
  simp only [before, nodeWeight_append w arena more hx, nodeWeight_append w arena more hy]

/-! ### The loops follow the relation -/

theorem heapAt_mem {h : List Nat} {i : Nat} (hi : i < h.length) : heapAt h i ∈ h := by
  rw [heapAt, List.getD_eq_getElem _ _ hi]
  exact List.getElem_mem hi

theorem IsHeap.congr {lt lt' : Nat → Nat → Bool} {h : List Nat} (hh : IsHeap lt h)
    (heq : ∀ x ∈ h, ∀ y ∈ h, lt' x y = lt x y) : IsHeap lt' h := by
  intro i hi hlen
  rw [heq _ (heapAt_mem hlen) _ (heapAt_mem (by omega))]
  exact hh i hi hlen

theorem Merged.loop (hw : w.length = 256) (fuel : Nat) {heap : List Nat} (h : Merged w heap arena)
    (hh : IsHeap (before w arena) heap) : Merged w (mergeLoop w fuel heap arena).1 (mergeLoop w fuel heap arena).2 := by
  induction fuel generalizing heap arena with
  | zero => exact h
  | succ fuel ih =>
    simp only [mergeLoop]
    split
    · exact h
    · next hlong =>
      obtain ⟨a, heap1, hp1, hpops1, hh1⟩ :=
        exists_pops_of_heapPop (before_isOrder w arena) hh (by rintro rfl; exact hlong (Nat.zero_le 1))
      obtain ⟨b, heap2, hp2, hpops2, hh2⟩ := exists_pops_of_heapPop (before_isOrder w arena) hh1
        (by rintro rfl; exact hlong hpops1.length.le)
      have hlt (x : Nat) (hx : x ∈ heap2) : x < 256 + arena.length := h.lt hw (hpops1.mem_of_mem (hpops2.mem_of_mem hx))
      obtain ⟨hheap, hperm⟩ := heapPush_spec (before_isOrder w (arena ++ [mergeNode w arena a b])) (256 + arena.length)
        (hh2.congr fun x hx y hy => before_append w arena _ (hlt x hx) (hlt y hy))
      simp only [hp1, hp2]
      exact ih (h.merge hpops1 hpops2 hperm) hheap

theorem Merged.setLoop (fuel : Nat) (h : Merged w q arena) (hf : q.length ≤ fuel + 1) :
    Merged w (setMergeLoop w fuel q arena).1 (setMergeLoop w fuel q arena).2 ∧
      (setMergeLoop w fuel q arena).1.length ≤ 1 := by
  induction fuel generalizing q arena with
  | zero => exact ⟨h, hf⟩
  | succ fuel ih =>
    simp only [setMergeLoop]
    split
    · exact ⟨h, by assumption⟩
    · next hlong =>
      obtain ⟨a, q1, hp1, hpops1⟩ :=
        exists_pops_of_setPop (before_isOrder w arena) (q := q) (by rintro rfl; exact hlong (Nat.zero_le 1))
      obtain ⟨b, q2, hp2, hpops2⟩ :=
        exists_pops_of_setPop (before_isOrder w arena) (q := q1) (by rintro rfl; exact hlong hpops1.length.le)
      have h1 := hpops1.length
      have h2 := hpops2.length
      simp only [hp1, hp2]
      exact ih (h.merge hpops1 hpops2 (.refl _)) (by simp only [List.length_cons]; omega)

/-- The tree of a queue of at most one node: that node is the root, 0x1FF without one (R168, R171). -/
def finishedTree (q : List Nat) (arena : List TreeNode) : Tree := { root := q.headD 0x1FF, arena := arena, heap := [] }

theorem merged_filledHeap (w : List Nat) : Merged w (filledHeap w) [] ∧ IsHeap (before w []) (filledHeap w) := by
  obtain ⟨hheap, hperm⟩ := heapFill_spec (before_isOrder w []) (alphabet w) (h := []) (fun _ _ hl => nomatch hl)
  exact ⟨.start (by simpa [filledHeap] using hperm), hheap⟩

/-- BUILD's tree is that of merging to the end. -/
theorem exists_merged_buildTree (hw : w.length = 256) :
    ∃ q arena, Merged w q arena ∧ q.length ≤ 1 ∧ buildTree w = finishedTree q arena := by
  obtain ⟨hstart, hheap⟩ := merged_filledHeap w
  have hle := length_mergeLoop_heap_le_one w (filledHeap w).length (heap := filledHeap w) [] (Nat.le_succ _)
  refine ⟨_, _, hstart.loop hw _ hheap, hle, ?_⟩
  simp only [buildTree]
  match (mergeLoop w (filledHeap w).length (filledHeap w) []).1, hle with
  | [], _ => rfl
  | [r], _ => rfl

/-- So is the plain queue's. -/
theorem exists_merged_setBuildTree (w : List Nat) :
    ∃ q arena, Merged w q arena ∧ q.length ≤ 1 ∧ setBuildTree w = finishedTree q arena := by
  obtain ⟨hm, hle⟩ := Merged.setLoop (alphabet w).length (.start (.refl (alphabet w))) (Nat.le_succ _)
  refine ⟨_, _, hm, hle, ?_⟩
  simp only [setBuildTree]
  match (setMergeLoop w (alphabet w).length (alphabet w) []).1, hle with
  | [], _ => rfl
  | [r], _ => simp [setPop, leastOf, finishedTree]

/-- Settles O19: both trees are that of merging to the end, which is unique. -/
theorem heapBuildsTheTreeOfTheLeastElementQueue : Obligations.HeapBuildsTheTreeOfTheLeastElementQueue := by
  intro v
  obtain ⟨q, arena, hm, hle, hb⟩ := exists_merged_buildTree (length_weightsOf v)
  obtain ⟨q', arena', hm', hle', hb'⟩ := exists_merged_setBuildTree (weightsOf v)
  obtain ⟨rfl, rfl⟩ := hm.unique_end hm' hle hle'
  rw [hb, hb']

end Sys2Proof.Machine
end

section
/-! PROOFS. The arena that merging leaves: every node a child once, each merge of the two least nodes, weights that rise, and
numbers that fit their registers (41_tree_builder.md R163, R170, R171, R176, R179, R180). -/

namespace Sys2Proof.Machine

variable {w q q' : List Nat} {arena arena' : List TreeNode} {k x : Nat} {nd : TreeNode}

/-! ### The alphabet counted and summed -/

theorem length_presentFrom (s : Nat) (ws : List Nat) :
    (presentFrom s ws).length = (ws.filter (fun x => decide (0 < x))).length := by
  induction ws generalizing s with
  | nil => rfl
  | cons x ws ih =>
    simp only [presentFrom, List.filter_cons, decide_eq_true_eq]
    split <;> simp [ih]

/-- The weights of the alphabet are the non-zero ones (R161). -/
theorem length_alphabet (v : Vector Word 256) : (alphabet (weightsOf v)).length = symbolCount v := by
  have hpos (x : Word) : decide (0 < x.toNat) = decide (x ≠ 0) := by
    simp [Nat.pos_iff_ne_zero, BitVec.toNat_eq]
  simp only [alphabet, length_presentFrom, weightsOf, symbolCount, List.filter_map, List.length_map, Function.comp_def,
    hpos]

theorem sum_map_filter_of_eq_zero {l : List Nat} {p : Nat → Bool} {f : Nat → Nat}
    (h : ∀ x ∈ l, p x = false → f x = 0) : ((l.filter p).map f).sum = (l.map f).sum := by
  induction l with
  | nil => rfl
  | cons x l ih =>
    obtain ⟨hx, hl⟩ := List.forall_mem_cons.mp h
    rw [List.filter_cons]
    split
    · simp [ih hl]
    · next hp => simp [ih hl, hx (by simpa using hp)]

/-- A sum over all symbols that weighs each by `w` is one over the alphabet. -/
theorem sum_alphabet (w : List Nat) (f : Nat → Nat) :
    ((alphabet w).map (fun s => w.getD s 0 * f s)).sum = ((List.range w.length).map (fun s => w.getD s 0 * f s)).sum := by
  rw [alphabet_eq_filter]
  refine sum_map_filter_of_eq_zero fun s _ hs => ?_
  rw [Nat.eq_zero_of_not_pos (of_decide_eq_false hs), Nat.zero_mul]

theorem map_getD_range (w : List Nat) : (List.range w.length).map (fun s => w.getD s 0) = w :=
  List.ext_getElem (by simp) fun i h h' => by rw [List.getElem_map, List.getElem_range, List.getD_eq_getElem _ _ h']

theorem sum_alphabet_weights (w : List Nat) : ((alphabet w).map (fun s => w.getD s 0)).sum = w.sum := by
  simpa only [Nat.mul_one, map_getD_range] using sum_alphabet w (fun _ => 1)

theorem sum_weightsOf_lt (v : Vector Word 256) : (weightsOf v).sum < 2 ^ 40 := by
  have h := List.sum_le_card_nsmul (weightsOf v) (2 ^ 32 - 1) fun x hx => by
    obtain ⟨word, -, rfl⟩ := List.mem_map.mp hx
    exact Nat.le_sub_one_of_lt word.isLt
  rw [length_weightsOf] at h
  exact h.trans_lt (by decide)

/-! ### Which nodes wait -/

theorem Merged.mem_iff (hw : w.length = 256) (h : Merged w q arena) :
    x ∈ q ↔ IsNode w arena.length x ∧ x ∉ childList arena := by
  have hdisj := List.disjoint_of_nodup_append (h.nodup hw)
  rw [isNode_iff hw, ← h.perm.mem_iff, List.mem_append]
  constructor
  · exact fun hx => ⟨.inl hx, fun hc => hdisj hx hc⟩
  · exact fun ⟨hx, hc⟩ => hx.resolve_right hc

/-- A node that exists is a child unless it waits. -/
theorem Merged.mem_childList_iff (hw : w.length = 256) (h : Merged w q arena) :
    x ∈ childList arena ↔ IsNode w arena.length x ∧ x ∉ q := by
  have hdisj := List.disjoint_of_nodup_append (h.nodup hw)
  rw [isNode_iff hw, ← h.perm.mem_iff, List.mem_append]
  constructor
  · exact fun hc => ⟨.inr hc, fun hx => hdisj hx hc⟩
  · exact fun ⟨hc, hx⟩ => hc.resolve_left hx

theorem mem_childList : x ∈ childList arena ↔ ∃ nd ∈ arena, nd.left = x ∨ nd.right = x := by
  simp [childList, eq_comm (a := x)]

theorem mem_take_iff {k : Nat} : nd ∈ arena.take k ↔ ∃ j, j < k ∧ arena[j]? = some nd := by
  simp only [List.mem_iff_getElem?, List.getElem?_take, Option.ite_none_right_eq_some]

/-- The mergeable nodes when K = k are the nodes in the queue after `k` merges (R170). -/
theorem mergeable_iff (hw : w.length = 256) (hk : k ≤ arena.length) (h : Merged w q (arena.take k)) :
    Mergeable w arena k x ↔ x ∈ q := by
  rw [h.mem_iff hw, List.length_take_of_le hk, mem_childList]
  refine and_congr_right fun _ => ?_
  constructor
  · rintro hall ⟨nd, hnd, hx⟩
    obtain ⟨j, hj, hnd⟩ := mem_take_iff.mp hnd
    exact hx.elim (hall j nd hj hnd).1 (hall j nd hj hnd).2
  · intro hnone j nd hj hnd
    exact not_or.mp fun hx => hnone ⟨nd, mem_take_iff.mpr ⟨j, hj, hnd⟩, hx⟩

/-! ### How one node was made -/

/-- A pop stays one while the arena grows, for the nodes of the queue keep their order. -/
theorem Pops.append {r : Nat} (h : Pops (before w arena) q r q') (hq : ∀ x ∈ q, x < 256 + arena.length)
    (more : List TreeNode) : Pops (before w (arena ++ more)) q r q' :=
  ⟨h.perm, fun x hx => (before_append w arena more (hq x hx) (hq r h.mem)).trans (h.least x hx)⟩

/-- `nd` is the merge of the two least nodes of the queue, in the arena's order (R170). -/
def MadeFrom (w : List Nat) (arena : List TreeNode) (q : List Nat) (nd : TreeNode) : Prop :=
  ∃ q1 q2, Pops (before w arena) q nd.left q1 ∧ Pops (before w arena) q1 nd.right q2 ∧
    nd.weight = nodeWeight w arena nd.left + nodeWeight w arena nd.right

theorem MadeFrom.append (h : MadeFrom w arena q nd) (hq : ∀ x ∈ q, x < 256 + arena.length) (more : List TreeNode) :
    MadeFrom w (arena ++ more) q nd := by
  obtain ⟨q1, q2, hleft, hright, hweight⟩ := h
  refine ⟨q1, q2, hleft.append hq more, hright.append (fun x hx => hq x (hleft.mem_of_mem hx)) more, ?_⟩
  rw [nodeWeight_append w arena more (hq _ hleft.mem),
    nodeWeight_append w arena more (hq _ (hleft.mem_of_mem hright.mem)), hweight]

/-- Each node was made from the queue of its time, in the order of the finished arena too. -/
theorem Merged.node (hw : w.length = 256) (h : Merged w q arena) (hk : arena[k]? = some nd) :
    ∃ p, Merged w p (arena.take k) ∧ MadeFrom w arena p nd := by
  induction h with
  | start => simp at hk
  | @merge q q1 q2 q' arena a b h hpop1 hpop2 hq ih =>
    by_cases hlt : k < arena.length
    · rw [List.getElem?_append_left hlt] at hk
      obtain ⟨p, hp, hmade⟩ := ih hk
      rw [List.take_append_of_le_length hlt.le]
      refine ⟨p, hp, hmade.append (fun x hx => (hp.lt hw hx).trans_le ?_) _⟩
      exact Nat.add_le_add_left (List.length_take_le' ..) _
    · obtain rfl : k = arena.length := by
        have := (List.getElem?_eq_some_iff.mp hk).1
        simp only [List.length_append, List.length_singleton] at this
        omega
      obtain rfl : mergeNode w arena a b = nd := by simpa using hk
      rw [List.take_left]
      exact ⟨q, h, MadeFrom.append ⟨q1, q2, hpop1, hpop2, rfl⟩ (fun x hx => h.lt hw hx) _⟩

/-- Each child was made before its parent (R170, R180 item 2). -/
theorem Merged.child_lt (hw : w.length = 256) (h : Merged w q arena) (hk : arena[k]? = some nd) :
    nd.left < 256 + k ∧ nd.right < 256 + k := by
  obtain ⟨p, hp, p1, p2, hleft, hright, -⟩ := h.node hw hk
  have hlen : (arena.take k).length = k := List.length_take_of_le (List.getElem?_eq_some_iff.mp hk).1.le
  have hlt (x : Nat) (hx : x ∈ p) : x < 256 + k := hlen ▸ hp.lt hw hx
  exact ⟨hlt _ hleft.mem, hlt _ (hleft.mem_of_mem hright.mem)⟩

/-! ### The finished arena -/

/-- Merging two or more symbols to the end leaves the node made last (R171). -/
theorem Merged.end_of_two_le (h : Merged w q arena) (hle : q.length ≤ 1) (hn : 2 ≤ (alphabet w).length) :
    q = [256 + ((alphabet w).length - 2)] ∧ arena.length = (alphabet w).length - 1 := by
  have hlen := h.length
  have hmem := h.newest_mem (by rintro rfl; simp at hlen; omega)
  obtain ⟨r, rfl⟩ : ∃ r, q = [r] := List.length_eq_one_iff.mp (by have := List.length_pos_of_mem hmem; omega)
  rw [List.length_singleton] at hlen
  obtain rfl := List.mem_singleton.mp hmem
  exact ⟨by congr 2; omega, by omega⟩

/-- Settles O17: the nodes waiting at the end, the root alone, and the children are together all nodes made, each once. -/
theorem builtTreeIsFull : Obligations.BuiltTreeIsFull := by
  intro v hn
  have hw := length_weightsOf v
  rw [← length_alphabet] at hn ⊢
  obtain ⟨q, arena, h, hle, hb⟩ := exists_merged_buildTree hw
  obtain ⟨rfl, hlen⟩ := h.end_of_two_le hle hn
  rw [hb]
  refine ⟨hlen, rfl, fun k nd hk => h.child_lt hw hk, fun x => ?_⟩
  have hmem : x ∈ childList arena ↔ IsNode (weightsOf v) ((alphabet (weightsOf v)).length - 2) x := by
    rw [h.mem_childList_iff hw, List.mem_singleton, hlen]
    simp only [IsNode]
    omega
  exact (List.Nodup.count (List.nodup_append'.mp (h.nodup hw)).2.1).trans (if_congr hmem rfl rfl)

/-- Settles O18: the mergeable nodes are the queue of that time, from which the two children were popped. -/
theorem eachMergeTakesTheTwoLeastNodes : Obligations.EachMergeTakesTheTwoLeastNodes := by
  intro v k nd w arena hk
  have hw : w.length = 256 := length_weightsOf v
  obtain ⟨q, arena', h, -, hb⟩ := exists_merged_buildTree hw
  obtain rfl : arena = arena' := congrArg Tree.arena hb
  obtain ⟨p, hp, p1, p2, hleft, hright, hweight⟩ := h.node hw hk
  have o := before_isOrder w arena
  have hmem (x : Nat) : Mergeable w arena k x ↔ x ∈ p := mergeable_iff hw (List.getElem?_eq_some_iff.mp hk).1.le hp
  have hnodup : (nd.left :: p1).Nodup := hleft.perm.nodup_iff.mpr (List.nodup_append'.mp (hp.nodup hw)).1
  simp only [hmem]
  refine ⟨hleft.mem, hleft.mem_of_mem hright.mem, ?_, fun x hx => hleft.before_others o hx,
    fun x hx hl => hright.before_others o (hleft.mem_of_ne hx hl), hweight⟩
  exact fun he => (List.nodup_cons.mp hnodup).1 (he ▸ hright.mem)

/-! ### Weights rise -/

theorem weight_le_of_not_before {y : Nat} (h : before w arena x y = false) : nodeWeight w arena y ≤ nodeWeight w arena x := by
  simp only [before, Bool.or_eq_false_iff, decide_eq_false_iff_not] at h
  omega

/-- After a merge any two nodes that wait weigh at least what the two merged nodes do. -/
theorem Merged.merge_weight_le (hw : w.length = 256) (h : Merged w q arena) {a b y : Nat} {q1 q2 : List Nat}
    (hpop1 : Pops (before w arena) q a q1) (hpop2 : Pops (before w arena) q1 b q2)
    (hx : x ∈ (256 + arena.length) :: q2) (hy : y ∈ (256 + arena.length) :: q2) (hxy : x ≠ y) :
    (mergeNode w arena a b).weight ≤
      nodeWeight w (arena ++ [mergeNode w arena a b]) x + nodeWeight w (arena ++ [mergeNode w arena a b]) y := by
  have hnew := nodeWeight_newest w arena (mergeNode w arena a b)
  rcases List.mem_cons.mp hx with rfl | hx
  · exact hnew ▸ Nat.le_add_right _ _
  rcases List.mem_cons.mp hy with rfl | hy
  · exact hnew ▸ Nat.le_add_left _ _
  have hx1 := hpop2.mem_of_mem hx
  have hy1 := hpop2.mem_of_mem hy
  rw [nodeWeight_append w arena _ (h.lt hw (hpop1.mem_of_mem hx1)),
    nodeWeight_append w arena _ (h.lt hw (hpop1.mem_of_mem hy1))]
  exact Nat.add_le_add (weight_le_of_not_before (hpop1.least x (hpop1.mem_of_mem hx1)))
    (weight_le_of_not_before (hpop2.least y hy1))

/-- Weights rise in the order of creation, since no node made outweighs two nodes that wait together. -/
theorem Merged.weights_rise (hw : w.length = 256) (h : Merged w q arena) :
    arena.Pairwise (fun m n => m.weight ≤ n.weight) ∧
      ∀ nd ∈ arena, ∀ x ∈ q, ∀ y ∈ q, x ≠ y → nd.weight ≤ nodeWeight w arena x + nodeWeight w arena y := by
  induction h with
  | start => simp
  | @merge q q1 q2 q' arena a b h hpop1 hpop2 hq ih =>
    obtain ⟨hpair, hwaiting⟩ := ih
    have hnodup : (a :: q1).Nodup := hpop1.perm.nodup_iff.mpr (List.nodup_append'.mp (h.nodup hw)).1
    have hab : a ≠ b := fun he => (List.nodup_cons.mp hnodup).1 (he ▸ hpop2.mem)
    have hold (m : TreeNode) (hm : m ∈ arena) : m.weight ≤ (mergeNode w arena a b).weight :=
      hwaiting m hm a hpop1.mem b (hpop1.mem_of_mem hpop2.mem) hab
    refine ⟨List.pairwise_append.mpr ⟨hpair, List.pairwise_singleton _ _, by simpa using hold⟩, ?_⟩
    intro m hm x hx y hy hxy
    have hle : m.weight ≤ (mergeNode w arena a b).weight := by
      rcases List.mem_append.mp hm with hm | hm
      · exact hold m hm
      · rw [List.mem_singleton.mp hm]
    exact hle.trans (h.merge_weight_le hw hpop1 hpop2 (hq.mem_iff.mp hx) (hq.mem_iff.mp hy) hxy)

/-- Settles O21: the left child is popped first, and the weights of the arena rise. -/
theorem mergeWeightsAscend : Obligations.MergeWeightsAscend := by
  intro v w arena
  have hw : w.length = 256 := length_weightsOf v
  obtain ⟨q, arena', h, -, hb⟩ := exists_merged_buildTree hw
  obtain rfl : arena = arena' := congrArg Tree.arena hb
  refine ⟨fun k nd hk => ?_, fun j k a b hjk ha hb => ?_⟩
  · obtain ⟨p, -, p1, p2, hleft, hright, -⟩ := h.node hw hk
    exact weight_le_of_not_before (hleft.least _ (hleft.mem_of_mem hright.mem))
  · obtain ⟨hj, rfl⟩ := List.getElem?_eq_some_iff.mp ha
    obtain ⟨hk, rfl⟩ := List.getElem?_eq_some_iff.mp hb
    rcases hjk.eq_or_lt with rfl | hlt
    · exact Nat.le_refl _
    · exact List.pairwise_iff_getElem.mp (h.weights_rise hw).1 j k hj hk hlt

/-! ### Nothing is cut -/

/-- Merging keeps the weight of all nodes that wait together (R163). -/
theorem Merged.sum_weights (hw : w.length = 256) (h : Merged w q arena) : (q.map (nodeWeight w arena)).sum = w.sum := by
  induction h with
  | start hq =>
    have hleaf : (alphabet w).map (nodeWeight w []) = (alphabet w).map (fun s => w.getD s 0) :=
      List.map_congr_left fun s hs => by simp [nodeWeight, lt_of_mem_alphabet hw hs]
    rw [(hq.map _).sum_eq, hleaf, sum_alphabet_weights]
  | @merge q q1 q2 q' arena a b h hpop1 hpop2 hq ih =>
    have hkeep : q2.map (nodeWeight w (arena ++ [mergeNode w arena a b])) = q2.map (nodeWeight w arena) :=
      List.map_congr_left fun x hx =>
        nodeWeight_append w arena _ (h.lt hw (hpop1.mem_of_mem (hpop2.mem_of_mem hx)))
    rw [← ih, (hq.map _).sum_eq, ← (hpop1.perm.map _).sum_eq, List.map_cons, List.sum_cons, List.map_cons, List.sum_cons,
      ← (hpop2.perm.map _).sum_eq, List.map_cons, List.sum_cons, nodeWeight_newest, hkeep, mergeNode, Nat.add_assoc]

theorem Merged.weight_le (hw : w.length = 256) (h : Merged w q arena) (hm : nd ∈ arena) : nd.weight ≤ w.sum := by
  induction h with
  | start => cases hm
  | @merge q q1 q2 q' arena a b h hpop1 hpop2 hq ih =>
    rcases List.mem_append.mp hm with hm | hm
    · exact ih hm
    · rw [List.mem_singleton.mp hm, ← h.sum_weights hw, ← (hpop1.perm.map _).sum_eq, List.map_cons, List.sum_cons,
        ← (hpop2.perm.map _).sum_eq, List.map_cons, List.sum_cons, ← Nat.add_assoc]
      exact Nat.le_add_right _ _

theorem getElem_tabulate {α : Type} {n : Nat} (f : Nat → α) (i : Fin n) : (tabulate n f)[i] = f i := by simp [tabulate]

/-- A number that fits its register is not cut, nor is the 0 of an absent one. -/
theorem toNat_ofNat_getD_map {α : Type} {n : Nat} {o : Option α} {f : α → Nat} (h : ∀ a, o = some a → f a < 2 ^ n) :
    (BitVec.ofNat n ((o.map f).getD 0)).toNat = (o.map f).getD 0 := by
  cases o with
  | none => exact Nat.zero_mod _
  | some a => exact Nat.mod_eq_of_lt (h a rfl)

theorem finishedTree_root_lt (hw : w.length = 256) (h : Merged w q arena) (hle : arena.length ≤ 255) :
    (finishedTree q arena).root < 2 ^ 9 := by
  cases q with
  | nil => exact show 0x1FF < 512 by decide
  | cons r _ =>
    have := h.lt hw List.mem_cons_self
    exact show r < 512 by omega

/-- Settles O20: indices are below 512 and weights at most the sum of all weights, so each fits its register. -/
theorem storedTreeIsTheBuiltTree : Obligations.StoredTreeIsTheBuiltTree := by
  intro v k t nd
  have hw := length_weightsOf v
  have hsum := sum_weightsOf_lt v
  have hlen : (buildTree (weightsOf v)).arena.length ≤ 255 := by
    have h1 := length_buildTree_arena_le (weightsOf v)
    have h2 := length_alphabet_le v
    omega
  obtain ⟨q, arena, h, -, hb⟩ := exists_merged_buildTree hw
  obtain rfl : (buildTree (weightsOf v)).arena = arena := congrArg Tree.arena hb
  have hk := k.isLt
  have hchild (m : TreeNode) (hm : nd = some m) := h.child_lt hw hm
  simp only [t, tableOf, getElem_tabulate]
  refine ⟨toNat_ofNat_getD_map fun m hm => ?_, toNat_ofNat_getD_map fun m hm => ?_, toNat_ofNat_getD_map fun m hm => ?_,
    Nat.mod_eq_of_lt (hb ▸ finishedTree_root_lt hw h hlen)⟩
  · have := hchild m hm
    omega
  · have := hchild m hm
    omega
  · exact (h.weight_le hw (List.mem_of_getElem? hm)).trans_lt hsum

end Sys2Proof.Machine
end

section
/-! PROOFS. The tree that the arena spells out and the code it stands for: the walk of the codes lists the tree's paths, of
which none begins another, which have Kraft sum 1 and weigh what the internal nodes do
(41_tree_builder.md R172 to R177, R180). -/

namespace Sys2Proof.Machine

variable {w q q' : List Nat} {arena : List TreeNode} {x : Nat}

/-! ### Bit strings and the entries of the code -/

/-- The entry of a symbol whose codeword is this bit string (R120, R172). -/
def entryOf (e : Nat × List Bool) : CodeEntry := { symbol := e.1, len := e.2.length, val := bitsValue e.2 }

theorem bitsValue_lt (bits : List Bool) : bitsValue bits < 2 ^ bits.length := by
  induction bits using List.reverseRecOn with
  | nil => decide
  | append_singleton bits b ih =>
    rw [bitsValue_concat, List.length_append, List.length_singleton, Nat.pow_succ, Nat.bit_val]
    have := b.toNat_lt
    omega

/-- A codeword is the bit string its length and value came from (R120). -/
theorem codewordBits_bitsValue (bits : List Bool) : codewordBits bits.length (bitsValue bits) = bits := by
  refine List.ext_getElem (length_codewordBits _ _) fun i hi hi' => ?_
  rw [length_codewordBits] at hi
  simp only [codewordBits, List.getElem_map, List.getElem_range]
  rw [testBit_bitsValue (by omega)]
  congr 1
  omega

/-! ### Trees -/

/-- A tree of symbols. -/
inductive CodeTree where
  | leaf (s : Nat)
  | node (l r : CodeTree)

namespace CodeTree

/-- The symbols, left to right. -/
def leaves : CodeTree → List Nat
  | leaf s => [s]
  | node l r => l.leaves ++ r.leaves

def height : CodeTree → Nat
  | leaf _ => 0
  | node l r => max l.height r.height + 1

/-- The number of right steps to the last leaf (R175). -/
def rightDepth : CodeTree → Nat
  | leaf _ => 0
  | node _ r => r.rightDepth + 1

/-- Each symbol with the way to it, 0 to the left and 1 to the right (R172). -/
def paths : CodeTree → List (Nat × List Bool)
  | leaf s => [(s, [])]
  | node l r => l.paths.map (fun e => (e.1, false :: e.2)) ++ r.paths.map (fun e => (e.1, true :: e.2))

/-- The weights of the leaves, summed (R162). -/
def weight (w : List Nat) (T : CodeTree) : Nat := (T.leaves.map (fun s => w.getD s 0)).sum

/-- The weights of the internal nodes, summed. -/
def innerWeight (w : List Nat) : CodeTree → Nat
  | leaf _ => 0
  | node l r => l.weight w + r.weight w + (l.innerWeight w + r.innerWeight w)

theorem weight_node (w : List Nat) (l r : CodeTree) : (node l r).weight w = l.weight w + r.weight w := by
  simp [weight, leaves]

theorem map_fst_paths (T : CodeTree) : T.paths.map Prod.fst = T.leaves := by
  induction T with
  | leaf s => rfl
  | node l r ihl ihr => simp [paths, leaves, Function.comp_def, ← ihl, ← ihr]

theorem height_lt_length_leaves (T : CodeTree) : T.height < T.leaves.length := by
  induction T with
  | leaf s => exact Nat.zero_lt_one
  | node l r ihl ihr =>
    simp only [height, leaves, List.length_append]
    omega

theorem rightDepth_le_height (T : CodeTree) : T.rightDepth ≤ T.height := by
  induction T with
  | leaf s => exact Nat.le_refl 0
  | node l r _ ihr => exact Nat.succ_le_succ (ihr.trans (Nat.le_max_right _ _))

theorem length_le_height (T : CodeTree) : ∀ e ∈ T.paths, e.2.length ≤ T.height := by
  induction T with
  | leaf s => simp [paths]
  | node l r ihl ihr =>
    simp only [paths, height, List.mem_append, List.mem_map]
    rintro _ (⟨e, he, rfl⟩ | ⟨e, he, rfl⟩)
    · exact Nat.succ_le_succ ((ihl e he).trans (Nat.le_max_left _ _))
    · exact Nat.succ_le_succ ((ihr e he).trans (Nat.le_max_right _ _))

/-- A way that goes through one leaf does not go on to another (R180 item 4). -/
theorem eq_of_prefix (T : CodeTree) : ∀ e ∈ T.paths, ∀ f ∈ T.paths, e.2 <+: f.2 → e = f := by
  induction T with
  | leaf s => simp [paths]
  | node l r ihl ihr =>
    simp only [paths, List.mem_append, List.mem_map]
    rintro _ (⟨e, he, rfl⟩ | ⟨e, he, rfl⟩) _ (⟨f, hf, rfl⟩ | ⟨f, hf, rfl⟩) hpre <;>
      simp only [List.cons_prefix_cons, true_and, Bool.false_eq_true, Bool.true_eq_false, false_and] at hpre
    · rw [ihl e he f hf hpre]
    · rw [ihr e he f hf hpre]

/-- The last leaf is at the end of right steps alone (R175). -/
theorem exists_ones_mem_paths (T : CodeTree) : ∃ s, (s, ones T.rightDepth) ∈ T.paths := by
  induction T with
  | leaf s => exact ⟨s, by simp [paths, rightDepth, ones]⟩
  | node l r _ ihr =>
    obtain ⟨s, hs⟩ := ihr
    exact ⟨s, List.mem_append_right _ (List.mem_map.mpr ⟨_, hs, rfl⟩)⟩

/-- A full tree has Kraft sum 1 (R180 item 5). -/
theorem kraft (T : CodeTree) {n : Nat} (hn : T.height ≤ n) :
    (T.paths.map (fun e => 2 ^ (n - e.2.length))).sum = 2 ^ n := by
  induction T generalizing n with
  | leaf s => simp [paths]
  | node l r ihl ihr =>
    simp only [height] at hn
    obtain ⟨m, rfl⟩ : ∃ m, n = m + 1 := ⟨n - 1, by omega⟩
    simp only [paths, List.map_append, List.map_map, List.sum_append, Function.comp_def, List.length_cons,
      Nat.add_sub_add_right]
    rw [ihl (by omega), ihr (by omega), Nat.pow_succ]
    omega

/-- Each leaf weighs in every internal node above it (R180 item 6). -/
theorem sum_weight_mul_length (w : List Nat) (T : CodeTree) :
    (T.paths.map (fun e => w.getD e.1 0 * e.2.length)).sum = T.innerWeight w := by
  have hweight (T : CodeTree) : (T.paths.map (fun e => w.getD e.1 0)).sum = T.weight w := by
    rw [weight, ← map_fst_paths, List.map_map]
    rfl
  induction T with
  | leaf s => simp [paths, innerWeight]
  | node l r ihl ihr =>
    simp only [paths, List.map_append, List.map_map, List.sum_append, Function.comp_def, List.length_cons, Nat.mul_succ,
      List.sum_map_add, ihl, ihr, hweight, innerWeight]
    omega

end CodeTree

/-! ### The tree of an arena's node -/

/-- Node `x` of the arena is the root of this tree. -/
inductive Unfolds (arena : List TreeNode) : Nat → CodeTree → Prop
  | leaf {x : Nat} : x < 256 → Unfolds arena x (.leaf x)
  | node {x : Nat} {nd : TreeNode} {l r : CodeTree} : 256 ≤ x → arena[x - 256]? = some nd → Unfolds arena nd.left l →
      Unfolds arena nd.right r → Unfolds arena x (.node l r)

namespace Unfolds

variable {T : CodeTree}

/-- Later nodes leave a node's tree as it is. -/
theorem append (h : Unfolds arena x T) (more : List TreeNode) : Unfolds (arena ++ more) x T := by
  induction h with
  | leaf hx => exact .leaf hx
  | node hx hnd _ _ ihl ihr =>
    exact .node hx (by rw [List.getElem?_append_left (List.getElem?_eq_some_iff.mp hnd).1, hnd]) ihl ihr

/-- The walk of the codes from a node, after the bits that lead to it, lists the paths of its tree (R172). -/
theorem codes_eq (h : Unfolds arena x T) {fuel : Nat} (hf : T.height < fuel) (bits : List Bool) :
    codes arena fuel x (bitsValue bits) bits.length = T.paths.map (fun e => entryOf (e.1, bits ++ e.2)) := by
  induction h generalizing fuel bits with
  | leaf hx =>
    obtain ⟨fuel, rfl⟩ : ∃ n, fuel = n + 1 := ⟨fuel - 1, by omega⟩
    simp [codes, hx, CodeTree.paths, entryOf]
  | node hx hnd _ _ ihl ihr =>
    simp only [CodeTree.height] at hf
    obtain ⟨fuel, rfl⟩ : ∃ n, fuel = n + 1 := ⟨fuel - 1, by omega⟩
    have hl := ihl (fuel := fuel) (by omega) (bits ++ [false])
    have hr := ihr (fuel := fuel) (by omega) (bits ++ [true])
    simp only [bitsValue_concat, Nat.bit_val, List.length_append, List.length_singleton, Bool.toNat_false,
      Bool.toNat_true, Nat.add_zero] at hl hr
    simp [codes, Nat.not_lt.mpr hx, hnd, hl, hr, CodeTree.paths, Function.comp_def]

theorem rightSteps_eq (h : Unfolds arena x T) {fuel : Nat} (hf : T.height < fuel) : rightSteps arena fuel x = T.rightDepth := by
  induction h generalizing fuel with
  | leaf hx =>
    obtain ⟨fuel, rfl⟩ : ∃ n, fuel = n + 1 := ⟨fuel - 1, by omega⟩
    simp [rightSteps, hx, CodeTree.rightDepth]
  | node hx hnd _ _ _ ihr =>
    simp only [CodeTree.height] at hf
    obtain ⟨fuel, rfl⟩ : ∃ n, fuel = n + 1 := ⟨fuel - 1, by omega⟩
    simp [rightSteps, Nat.not_lt.mpr hx, hnd, ihr (fuel := fuel) (by omega), CodeTree.rightDepth]

end Unfolds

/-! ### Merging makes a forest -/

/-- The trees of the nodes that wait: together they have the alphabet as leaves and the arena as internal nodes. -/
structure Forest (w q : List Nat) (arena : List TreeNode) (tree : Nat → CodeTree) : Prop where
  unfolds : ∀ x ∈ q, Unfolds arena x (tree x)
  weight  : ∀ x ∈ q, (tree x).weight w = nodeWeight w arena x
  leaves  : (q.flatMap (fun x => (tree x).leaves)).Perm (alphabet w)
  inner   : (q.map (fun x => (tree x).innerWeight w)).sum = (arena.map TreeNode.weight).sum

/-- Before the first merge each symbol of the alphabet is a tree (R166). -/
theorem forest_start (hw : w.length = 256) (hq : q.Perm (alphabet w)) : Forest w q [] .leaf := by
  have hlt (x : Nat) (hx : x ∈ q) : x < 256 := lt_of_mem_alphabet hw (hq.mem_iff.mp hx)
  refine ⟨fun x hx => .leaf (hlt x hx), fun x hx => ?_, ?_, ?_⟩
  · simp [CodeTree.weight, CodeTree.leaves, nodeWeight, hlt x hx]
  · simpa [CodeTree.leaves] using hq
  · simp [CodeTree.innerWeight]

/-- The trees after a merge of `a` and `b` into the node `new`. -/
def joinTrees (tree : Nat → CodeTree) (new a b : Nat) : Nat → CodeTree :=
  Function.update tree new (.node (tree a) (tree b))

theorem joinTrees_new (tree : Nat → CodeTree) (new a b : Nat) : joinTrees tree new a b new = .node (tree a) (tree b) :=
  Function.update_self ..

theorem joinTrees_of_ne (tree : Nat → CodeTree) {new : Nat} (a b : Nat) (hne : x ≠ new) :
    joinTrees tree new a b x = tree x :=
  Function.update_of_ne hne ..

/-- A merge joins two trees of the forest under its new node (R170). -/
theorem Forest.merge (hw : w.length = 256) (h : Merged w q arena) {a b : Nat} {q1 q2 : List Nat} {tree : Nat → CodeTree}
    (hf : Forest w q arena tree) (hpop1 : Pops (before w arena) q a q1) (hpop2 : Pops (before w arena) q1 b q2)
    (hq : q'.Perm ((256 + arena.length) :: q2)) :
    Forest w q' (arena ++ [mergeNode w arena a b]) (joinTrees tree (256 + arena.length) a b) := by
  have ha := hpop1.mem
  have hb := hpop1.mem_of_mem hpop2.mem
  have hq2 (x : Nat) (hx : x ∈ q2) : x ∈ q := hpop1.mem_of_mem (hpop2.mem_of_mem hx)
  have hold (x : Nat) (hx : x ∈ q2) : joinTrees tree (256 + arena.length) a b x = tree x :=
    joinTrees_of_ne tree a b (h.lt hw (hq2 x hx)).ne
  have hperm : q.Perm (a :: b :: q2) := hpop1.perm.symm.trans (hpop2.perm.symm.cons a)
  refine ⟨fun x hx => ?_, fun x hx => ?_, ?_, ?_⟩
  · rcases List.mem_cons.mp (hq.mem_iff.mp hx) with rfl | hx2
    · rw [joinTrees_new]
      exact .node (Nat.le_add_right _ _) (nd := mergeNode w arena a b) (by simp) ((hf.unfolds a ha).append _)
        ((hf.unfolds b hb).append _)
    · rw [hold x hx2]
      exact (hf.unfolds x (hq2 x hx2)).append _
  · rcases List.mem_cons.mp (hq.mem_iff.mp hx) with rfl | hx2
    · rw [joinTrees_new, nodeWeight_newest, CodeTree.weight_node, hf.weight a ha, hf.weight b hb, mergeNode]
    · rw [hold x hx2, hf.weight x (hq2 x hx2), nodeWeight_append w arena _ (h.lt hw (hq2 x hx2))]
  · refine ((hq.flatMap_right _).trans ?_).trans ((hperm.flatMap_right _).symm.trans hf.leaves)
    rw [List.flatMap_cons, joinTrees_new, List.flatMap_congr fun x hx => congrArg CodeTree.leaves (hold x hx)]
    simp [CodeTree.leaves]
  · rw [(hq.map _).sum_eq, List.map_cons, List.sum_cons, joinTrees_new,
      List.map_congr_left fun x hx => congrArg (CodeTree.innerWeight w) (hold x hx), List.map_append, List.sum_append,
      ← hf.inner, (hperm.map _).sum_eq]
    simp only [CodeTree.innerWeight, hf.weight a ha, hf.weight b hb, mergeNode, List.map_cons, List.map_nil, List.sum_cons,
      List.sum_nil]
    omega

theorem Merged.exists_forest (hw : w.length = 256) (h : Merged w q arena) : ∃ tree, Forest w q arena tree := by
  induction h with
  | start hq => exact ⟨_, forest_start hw hq⟩
  | merge h hpop1 hpop2 hq ih =>
    obtain ⟨tree, hf⟩ := ih
    exact ⟨_, hf.merge hw h hpop1 hpop2 hq⟩

/-- The tree of the finished arena's root. -/
structure BuiltTree (w : List Nat) (T : CodeTree) : Prop where
  unfolds : Unfolds (buildTree w).arena (buildTree w).root T
  leaves  : T.leaves.Perm (alphabet w)
  inner   : T.innerWeight w = ((buildTree w).arena.map TreeNode.weight).sum
  length  : (buildTree w).arena.length + 1 = (alphabet w).length

theorem exists_builtTree (hw : w.length = 256) (hn : 2 ≤ (alphabet w).length) : ∃ T, BuiltTree w T := by
  obtain ⟨q, arena, h, hle, hb⟩ := exists_merged_buildTree hw
  obtain ⟨rfl, hlen⟩ := h.end_of_two_le hle hn
  obtain ⟨tree, hunfolds, -, hleaves, hinner⟩ := h.exists_forest hw
  refine ⟨tree (256 + ((alphabet w).length - 2)), ?_, by simpa using hleaves, ?_, ?_⟩ <;> rw [hb]
  · exact hunfolds _ List.mem_cons_self
  · simpa [finishedTree] using hinner
  · exact show arena.length + 1 = _ by omega

end Sys2Proof.Machine
end

section
/-! PROOFS. The code of a built table: for any number of symbols the table stores one code of the alphabet, in which no
codeword begins another and from which its lengths, values, path length and marker collision follow
(41_tree_builder.md R168 to R177, R180). -/

namespace Sys2Proof.Machine

variable {w : List Nat} {book : List (Nat × List Bool)} {T : CodeTree}

/-! ### Looking a symbol up -/

/-- With one entry per symbol the lookup of a listed symbol finds its entry. -/
theorem find?_entryOf (hnd : (book.map Prod.fst).Nodup) {e : Nat × List Bool} (he : e ∈ book) :
    (book.map entryOf).find? (fun c => c.symbol == e.1) = some (entryOf e) := by
  induction book with
  | nil => cases he
  | cons f rest ih =>
    rw [List.map_cons, List.nodup_cons] at hnd
    rw [List.map_cons, List.find?_cons]
    rcases List.mem_cons.mp he with rfl | he
    · simp [entryOf]
    · have hne : f.1 ≠ e.1 := fun heq => hnd.1 (heq ▸ List.mem_map_of_mem he)
      have hbeq : ((entryOf f).symbol == e.1) = false := beq_eq_false_iff_ne.mpr hne
      rw [hbeq]
      exact ih hnd.2 he

theorem find?_entryOf_eq_none {s : Nat} (hs : s ∉ book.map Prod.fst) :
    (book.map entryOf).find? (fun c => c.symbol == s) = none := by
  rw [List.find?_eq_none]
  rintro _ hc
  obtain ⟨e, he, rfl⟩ := List.mem_map.mp hc
  exact fun heq => hs (beq_iff_eq.mp heq ▸ List.mem_map_of_mem he)

/-! ### The code book -/

/-- The code of a weight table: each symbol of the alphabet with its codeword (R168, R169, R172). -/
structure CodeBook (w : List Nat) (book : List (Nat × List Bool)) : Prop where
  entries    : codeEntries (alphabet w).length (buildTree w) = book.map entryOf
  symbols    : (book.map Prod.fst).Perm (alphabet w)
  prefixFree : ∀ e ∈ book, ∀ f ∈ book, e.2 <+: f.2 → e = f
  pos        : ∀ e ∈ book, 0 < e.2.length
  length_le  : ∀ e ∈ book, e.2.length ≤ max 1 ((alphabet w).length - 1)

theorem BuiltTree.height_le (h : BuiltTree w T) : T.height ≤ (buildTree w).arena.length := by
  have := T.height_lt_length_leaves
  rw [h.leaves.length_eq, ← h.length] at this
  exact Nat.le_of_lt_succ this

/-- For two or more symbols the code is that of the tree's paths (R172). -/
theorem BuiltTree.codeBook (h : BuiltTree w T) (hn : 2 ≤ (alphabet w).length) : CodeBook w T.paths where
  entries := by
    rw [codeEntries, if_neg (by omega), if_neg (by omega)]
    simpa using! h.unfolds.codes_eq (Nat.lt_succ_of_le h.height_le) []
  symbols := T.map_fst_paths ▸ h.leaves
  prefixFree := T.eq_of_prefix
  pos := by
    have hlen := h.leaves.length_eq
    cases T with
    | leaf s =>
      simp only [CodeTree.leaves, List.length_singleton] at hlen
      omega
    | node l r =>
      simp only [CodeTree.paths, List.mem_append, List.mem_map]
      rintro _ (⟨e, -, rfl⟩ | ⟨e, -, rfl⟩) <;> exact Nat.succ_pos _
  length_le e he := by
    have := (T.length_le_height e he).trans h.height_le
    have := h.length
    omega

/-- Without a merge the root is the one symbol (R169). -/
theorem buildTree_of_length_le_one (hw : w.length = 256) (hn : (alphabet w).length ≤ 1) :
    buildTree w = finishedTree (alphabet w) [] := by
  obtain ⟨q, arena, h, hle, hb⟩ := exists_merged_buildTree hw
  obtain ⟨rfl, rfl⟩ := h.unique_end (.start (.refl (alphabet w))) hle hn
  exact hb

theorem codeBook_of_eq_singleton (hw : w.length = 256) {s : Nat} (hs : alphabet w = [s]) : CodeBook w [(s, [false])] where
  entries := by
    rw [buildTree_of_length_le_one hw (by simp [hs]), hs]
    rfl
  symbols := by simp [hs]
  prefixFree := by simp
  pos := by simp
  length_le := by simp

theorem codeBook_of_eq_nil (hs : alphabet w = []) : CodeBook w [] where
  entries := by simp [hs, codeEntries]
  symbols := by simp [hs]
  prefixFree := by simp
  pos := by simp
  length_le := by simp

theorem exists_codeBook (hw : w.length = 256) : ∃ book, CodeBook w book := by
  match hs : alphabet w with
  | [] => exact ⟨_, codeBook_of_eq_nil hs⟩
  | [s] => exact ⟨_, codeBook_of_eq_singleton hw hs⟩
  | s :: s' :: rest =>
    have hn : 2 ≤ (alphabet w).length := by simp [hs]
    obtain ⟨T, hT⟩ := exists_builtTree hw hn
    exact ⟨_, hT.codeBook hn⟩

/-! ### The table's columns -/

/-- The codewords of a weight table's tree (R168, R169, R172). -/
def tableEntries (w : List Nat) : List CodeEntry := codeEntries (alphabet w).length (buildTree w)

theorem atSymbol_codelen (w : List Nat) (c : Byte) :
    atSymbol (tableOf w).codelen c = BitVec.ofNat 9 (codeLen (tableEntries w) c.toNat) :=
  atSymbol_tabulate _ c

theorem atSymbol_codeword (w : List Nat) (c : Byte) :
    atSymbol (tableOf w).codeword c = BitVec.ofNat 256 (codeVal (tableEntries w) c.toNat) :=
  atSymbol_tabulate _ c

namespace CodeBook

variable {e : Nat × List Bool} (h : CodeBook w book)
include h

theorem nodup : (book.map Prod.fst).Nodup := h.symbols.nodup_iff.mpr (nodup_alphabet w)

theorem codeLen_eq (he : e ∈ book) : codeLen (tableEntries w) e.1 = e.2.length := by
  rw [codeLen, tableEntries, h.entries, find?_entryOf h.nodup he]
  rfl

theorem codeVal_eq (he : e ∈ book) : codeVal (tableEntries w) e.1 = bitsValue e.2 := by
  rw [codeVal, tableEntries, h.entries, find?_entryOf h.nodup he]
  rfl

theorem exists_mem {s : Nat} (hs : s ∈ alphabet w) : ∃ e ∈ book, e.1 = s :=
  List.mem_map.mp (h.symbols.mem_iff.mpr hs)

theorem find?_eq_none {s : Nat} (hs : s ∉ alphabet w) : (tableEntries w).find? (fun c => c.symbol == s) = none := by
  rw [tableEntries, h.entries]
  exact find?_entryOf_eq_none fun hmem => hs (h.symbols.mem_iff.mp hmem)

theorem codeLen_eq_zero {s : Nat} (hs : s ∉ alphabet w) : codeLen (tableEntries w) s = 0 := by
  rw [codeLen, h.find?_eq_none hs]
  rfl

theorem codeVal_eq_zero {s : Nat} (hs : s ∉ alphabet w) : codeVal (tableEntries w) s = 0 := by
  rw [codeVal, h.find?_eq_none hs]
  rfl

theorem codeLen_le (s : Nat) : codeLen (tableEntries w) s ≤ max 1 ((alphabet w).length - 1) := by
  by_cases hs : s ∈ alphabet w
  · obtain ⟨e, he, rfl⟩ := h.exists_mem hs
    rw [h.codeLen_eq he]
    exact h.length_le e he
  · rw [h.codeLen_eq_zero hs]
    exact Nat.zero_le _

theorem codeLen_pos_iff {s : Nat} : 0 < codeLen (tableEntries w) s ↔ s ∈ alphabet w := by
  constructor
  · intro hpos
    by_contra hs
    exact hpos.ne' (h.codeLen_eq_zero hs)
  · intro hs
    obtain ⟨e, he, rfl⟩ := h.exists_mem hs
    rw [h.codeLen_eq he]
    exact h.pos e he

end CodeBook

/-! ### The stored code -/

theorem length_alphabet_le_of_length (hw : w.length = 256) : (alphabet w).length ≤ 256 :=
  (length_presentFrom_le 0 w).trans_eq hw

section
variable (hw : w.length = 256) (h : CodeBook w book)
include hw h

theorem CodeBook.codeLen_le_255 (s : Nat) : codeLen (tableEntries w) s ≤ 255 := by
  have := h.codeLen_le s
  have := length_alphabet_le_of_length hw
  omega

theorem CodeBook.toNat_codelen (c : Byte) : (atSymbol (tableOf w).codelen c).toNat = codeLen (tableEntries w) c.toNat := by
  rw [atSymbol_codelen]
  exact Nat.mod_eq_of_lt ((h.codeLen_le_255 hw _).trans_lt (by decide))

theorem CodeBook.has_iff {c : Byte} : (tableOf w).Has c ↔ c.toNat ∈ alphabet w := by
  rw [CodeTable.Has, ← h.codeLen_pos_iff, ← h.toNat_codelen hw, ne_eq, ← BitVec.toNat_inj, Nat.pos_iff_ne_zero]
  rfl

/-- A value has at most 255 bits, so it is not cut (R173). -/
theorem CodeBook.toNat_codeword {c : Byte} {bits : List Bool} (he : (c.toNat, bits) ∈ book) :
    (atSymbol (tableOf w).codeword c).toNat = bitsValue bits := by
  have hle : bits.length ≤ 255 := h.codeLen_eq he ▸ h.codeLen_le_255 hw c.toNat
  rw [atSymbol_codeword, h.codeVal_eq he]
  exact Nat.mod_eq_of_lt ((bitsValue_lt bits).trans (Nat.pow_lt_pow_right Nat.one_lt_two (Nat.lt_succ_of_le hle)))

/-- The stored codeword of a symbol is the one of the book (R173). -/
theorem CodeBook.codewordOf_eq {c : Byte} {bits : List Bool} (he : (c.toNat, bits) ∈ book) :
    (tableOf w).codewordOf c = bits := by
  rw [CodeTable.codewordOf, h.toNat_codeword hw he, h.toNat_codelen hw, h.codeLen_eq he, codewordBits_bitsValue]

theorem CodeBook.mem_of_has {c : Byte} (hc : (tableOf w).Has c) : (c.toNat, (tableOf w).codewordOf c) ∈ book := by
  obtain ⟨⟨s, bits⟩, he, rfl⟩ := h.exists_mem ((h.has_iff hw).mp hc)
  rwa [h.codewordOf_eq hw he]

end

/-- Settles O22: the stored codewords are entries of one book, in which none begins another. -/
theorem codewordsArePrefixFree : Obligations.CodewordsArePrefixFree := by
  rintro _ a b ⟨v, rfl⟩ hab ha hb hpre
  have hw := length_weightsOf v
  obtain ⟨book, h⟩ := exists_codeBook hw
  have heq := h.prefixFree _ (h.mem_of_has hw ha) _ (h.mem_of_has hw hb) hpre
  exact hab (BitVec.eq_of_toNat_eq (Prod.ext_iff.mp heq).1)

end Sys2Proof.Machine
end

section
/-! PROOFS. The numbers of a built table: NSYM, TOTAL, WPL, MAXLEN, ONESLEN, MCOLL and the Kraft sum, from its code book
(41_tree_builder.md R161, R173 to R177, R180). -/

namespace Sys2Proof.Machine

variable {w : List Nat} {book : List (Nat × List Bool)} {T : CodeTree}

/-! ### NSYM and TOTAL -/

theorem toNat_nsym (hw : w.length = 256) : (tableOf w).nsym.toNat = (alphabet w).length :=
  Nat.mod_eq_of_lt ((length_alphabet_le_of_length hw).trans_lt (by decide))

theorem toNat_total (v : Vector Word 256) : (tableOf (weightsOf v)).total.toNat = (weightsOf v).sum :=
  Nat.mod_eq_of_lt (sum_weightsOf_lt v)

theorem getD_weightsOf (v : Vector Word 256) (c : Byte) : (weightsOf v).getD c.toNat 0 = (atSymbol v c).toNat := by
  have hc : c.toNat < (weightsOf v).length := by simpa using c.isLt
  rw [List.getD_eq_getElem _ _ hc]
  simp [weightsOf, atSymbol]

theorem exists_toNat_eq (hw : w.length = 256) {x : Nat} (hx : x ∈ alphabet w) : ∃ c : Byte, c.toNat = x :=
  ⟨BitVec.ofNat 8 x, Nat.mod_eq_of_lt (lt_of_mem_alphabet hw hx)⟩

theorem toNat_mem_alphabet {v : Vector Word 256} {c : Byte} : c.toNat ∈ alphabet (weightsOf v) ↔ atSymbol v c ≠ 0 := by
  rw [mem_alphabet, getD_weightsOf, Nat.pos_iff_ne_zero, ne_eq, ne_eq, ← BitVec.toNat_inj]
  rfl

/-- Settles O14: the code book lists the alphabet, and neither number is cut. -/
theorem buildCountsTheAlphabet : Obligations.BuildCountsTheAlphabet := by
  intro v
  have hw := length_weightsOf v
  obtain ⟨book, h⟩ := exists_codeBook hw
  refine ⟨(toNat_nsym hw).trans (length_alphabet v), fun c => (h.has_iff hw).trans toNat_mem_alphabet, toNat_total v⟩

/-! ### The Kraft sum -/

theorem toList_tabulate {α : Type} (n : Nat) (f : Nat → α) : (tabulate n f).toList = (List.range n).map f := rfl

/-- The Kraft sum of a table is that of its code book. -/
theorem CodeBook.kraft255_eq (hw : w.length = 256) (h : CodeBook w book) :
    (tableOf w).kraft255 = (book.map (fun e => 2 ^ (255 - e.2.length))).sum := by
  have hcodelen : (tableOf w).codelen.toList =
      (List.range 256).map (fun s => BitVec.ofNat 9 (codeLen (tableEntries w) s)) := toList_tabulate _ _
  have htoNat (s : Nat) : (BitVec.ofNat 9 (codeLen (tableEntries w) s)).toNat = codeLen (tableEntries w) s :=
    Nat.mod_eq_of_lt ((h.codeLen_le_255 hw s).trans_lt (by decide))
  have hpresent : (List.range 256).filter (fun s => decide (BitVec.ofNat 9 (codeLen (tableEntries w) s) ≠ 0#9)) =
      alphabet w := by
    rw [alphabet_eq_filter, hw]
    refine List.filter_congr fun s _ => decide_eq_decide.mpr ?_
    rw [← mem_alphabet, ← h.codeLen_pos_iff, ne_eq, ← BitVec.toNat_inj, htoNat, Nat.pos_iff_ne_zero]
    rfl
  rw [CodeTable.kraft255, hcodelen, List.filter_map, Function.comp_def, hpresent, List.map_map, Function.comp_def,
    ← (h.symbols.map _).sum_eq, List.map_map]
  refine congrArg List.sum (List.map_congr_left fun e he => ?_)
  simp only [Function.comp_apply, htoNat, h.codeLen_eq he]

/-- Settles O23: the sum is that of the tree's paths, or of the one codeword "0". -/
theorem kraftSumOfABuiltTable : Obligations.KraftSumOfABuiltTable := by
  rintro _ ⟨v, rfl⟩
  have hw := length_weightsOf v
  rw [toNat_nsym hw]
  refine ⟨fun hn => ?_, fun hn => ?_⟩
  · obtain ⟨T, hT⟩ := exists_builtTree hw hn
    have hlen := length_alphabet_le v
    have hheight : T.height ≤ 255 := by
      have := hT.height_le
      have := hT.length
      omega
    rw [(hT.codeBook hn).kraft255_eq hw, T.kraft hheight]
  · obtain ⟨s, hs⟩ := List.length_eq_one_iff.mp hn
    rw [(codeBook_of_eq_singleton hw hs).kraft255_eq hw]
    simp

/-! ### Lengths, values and MAXLEN -/

/-- A running maximum is at least every number it passed, and it is one of them or the number it began with. -/
theorem foldl_max_spec (l : List Nat) (m : Nat) :
    m ≤ l.foldl max m ∧ (∀ x ∈ l, x ≤ l.foldl max m) ∧ (l.foldl max m = m ∨ l.foldl max m ∈ l) := by
  induction l generalizing m with
  | nil => simp
  | cons y l ih =>
    obtain ⟨hm, hle, hmem⟩ := ih (max m y)
    simp only [List.foldl_cons, List.mem_cons, forall_eq_or_imp]
    refine ⟨(Nat.le_max_left m y).trans hm, ⟨(Nat.le_max_right m y).trans hm, hle⟩, ?_⟩
    rcases hmem with hmem | hmem
    · rcases Nat.le_total m y with hmy | hym
      · exact .inr (.inl (hmem.trans (Nat.max_eq_right hmy)))
      · exact .inl (hmem.trans (Nat.max_eq_left hym))
    · exact .inr (.inr hmem)

theorem codeLen_le_maxLength (cs : List CodeEntry) (c : Byte) : codeLen cs c.toNat ≤ maxLength cs :=
  (foldl_max_spec _ 0).2.1 _ (List.mem_map_of_mem (List.mem_range.mpr c.isLt))

theorem exists_codeLen_eq_maxLength (cs : List CodeEntry) :
    maxLength cs = 0 ∨ ∃ c : Byte, codeLen cs c.toNat = maxLength cs := by
  refine (foldl_max_spec _ 0).2.2.imp_right fun hmem => ?_
  obtain ⟨s, hs, heq⟩ := List.mem_map.mp hmem
  exact ⟨BitVec.ofNat 8 s, by rwa [BitVec.toNat_ofNat, Nat.mod_eq_of_lt (List.mem_range.mp hs)]⟩

section
variable (hw : w.length = 256) (h : CodeBook w book)
include hw h

theorem CodeBook.toNat_maxlen : (tableOf w).maxlen.toNat = maxLength (tableEntries w) := by
  refine Nat.mod_eq_of_lt (Nat.lt_of_le_of_lt ?_ (show 255 < 2 ^ 9 by decide))
  rcases exists_codeLen_eq_maxLength (tableEntries w) with hzero | ⟨c, hc⟩
  · exact hzero ▸ Nat.zero_le 255
  · exact hc ▸ h.codeLen_le_255 hw c.toNat

theorem CodeBook.codeword_eq_zero {c : Byte} (hc : ¬ (tableOf w).Has c) : atSymbol (tableOf w).codeword c = 0#256 := by
  rw [atSymbol_codeword, h.codeVal_eq_zero (mt (h.has_iff hw).mpr hc)]

theorem CodeBook.codelen_le {c : Byte} : (atSymbol (tableOf w).codelen c).toNat ≤ max 1 ((alphabet w).length - 1) :=
  h.toNat_codelen hw c ▸ h.codeLen_le c.toNat

theorem CodeBook.codeword_lt {c : Byte} (hc : (tableOf w).Has c) :
    (atSymbol (tableOf w).codeword c).toNat < 2 ^ (atSymbol (tableOf w).codelen c).toNat := by
  rw [h.toNat_codeword hw (h.mem_of_has hw hc), ← length_codewordOf]
  exact bitsValue_lt _

theorem CodeBook.exists_codelen_eq_maxlen (hn : alphabet w ≠ []) :
    ∃ c : Byte, (tableOf w).Has c ∧ atSymbol (tableOf w).codelen c = (tableOf w).maxlen := by
  obtain ⟨s, hs⟩ := List.exists_mem_of_ne_nil _ hn
  have hpos : 0 < maxLength (tableEntries w) := by
    obtain ⟨c, rfl⟩ := exists_toNat_eq hw hs
    exact (h.codeLen_pos_iff.mpr hs).trans_le (codeLen_le_maxLength _ c)
  obtain ⟨c, hc⟩ := (exists_codeLen_eq_maxLength (tableEntries w)).resolve_left hpos.ne'
  refine ⟨c, (h.has_iff hw).mpr (h.codeLen_pos_iff.mp (hc ▸ hpos)), BitVec.eq_of_toNat_eq ?_⟩
  rw [h.toNat_codelen hw, h.toNat_maxlen hw, hc]

theorem CodeBook.maxlen_eq_zero (hn : alphabet w = []) : (tableOf w).maxlen = 0#9 := by
  refine BitVec.eq_of_toNat_eq ((h.toNat_maxlen hw).trans ?_)
  rcases exists_codeLen_eq_maxLength (tableEntries w) with hzero | ⟨c, hc⟩
  · exact hzero
  · rw [← hc, h.codeLen_eq_zero (by simp [hn])]
    rfl

end

/-- Settles O24: each clause is read off the code book. -/
theorem codeLengthsOfABuiltTable : Obligations.CodeLengthsOfABuiltTable := by
  rintro _ ⟨v, rfl⟩
  have hw := length_weightsOf v
  obtain ⟨book, h⟩ := exists_codeBook hw
  rw [toNat_nsym hw]
  refine ⟨fun c hc => h.codeword_eq_zero hw hc, fun hn c hc => ⟨?_, h.codeword_lt hw hc⟩, fun c => ?_,
    fun hn => h.exists_codelen_eq_maxlen hw fun hnil => hn (by simp [hnil]),
    fun hn => h.maxlen_eq_zero hw (List.eq_nil_of_length_eq_zero hn)⟩
  · have := h.codelen_le hw (c := c)
    omega
  · rw [h.toNat_codelen hw, h.toNat_maxlen hw]
    exact codeLen_le_maxLength _ c

/-! ### The weighted path length -/

/-- WPL sums over the code book (R176). -/
theorem CodeBook.pathLength_eq (hw : w.length = 256) (h : CodeBook w book) :
    pathLength w (tableEntries w) = (book.map (fun e => w.getD e.1 0 * e.2.length)).sum := by
  have hsum := sum_alphabet w (codeLen (tableEntries w))
  rw [hw] at hsum
  rw [pathLength, ← hsum, ← (h.symbols.map _).sum_eq, List.map_map]
  exact congrArg List.sum (List.map_congr_left fun e he => by rw [Function.comp_apply, h.codeLen_eq he])

theorem CodeBook.pathLength_le (hw : w.length = 256) (h : CodeBook w book) :
    pathLength w (tableEntries w) ≤ w.sum * 255 := by
  have hsum : ((List.range 256).map (fun s => w.getD s 0 * 255)).sum = w.sum * 255 := by
    rw [List.sum_map_mul_right, ← hw, map_getD_range]
  rw [← hsum]
  exact List.sum_le_sum fun s _ => Nat.mul_le_mul_left _ (h.codeLen_le_255 hw s)

theorem toNat_wpl (v : Vector Word 256) :
    (tableOf (weightsOf v)).wpl.toNat = pathLength (weightsOf v) (tableEntries (weightsOf v)) := by
  obtain ⟨book, h⟩ := exists_codeBook (length_weightsOf v)
  have hle := h.pathLength_le (length_weightsOf v)
  have hlt := sum_weightsOf_lt v
  exact Nat.mod_eq_of_lt (hle.trans_lt (by omega))

/-- For two or more symbols WPL is the sum of the internal nodes' weights (R180 item 6). -/
theorem pathLength_eq_sum_weight (hw : w.length = 256) (hn : 2 ≤ (alphabet w).length) :
    pathLength w (tableEntries w) = ((buildTree w).arena.map TreeNode.weight).sum := by
  obtain ⟨T, hT⟩ := exists_builtTree hw hn
  rw [(hT.codeBook hn).pathLength_eq hw, T.sum_weight_mul_length, hT.inner]

/-- Settles O25: WPL is not cut, and the code book gives its value for each number of symbols. -/
theorem pathLengthIsTheSumOfNodeWeights : Obligations.PathLengthIsTheSumOfNodeWeights := by
  intro v t
  have hw := length_weightsOf v
  obtain ⟨book, h⟩ := exists_codeBook hw
  rw [← length_alphabet v, toNat_wpl, toNat_total]
  refine ⟨?_, pathLength_eq_sum_weight hw, fun hn => ?_, fun hn => ?_⟩
  · refine congrArg List.sum (List.map_congr_left fun s hs => ?_)
    rw [h.toNat_codelen hw, BitVec.toNat_ofNat, Nat.mod_eq_of_lt (List.mem_range.mp hs)]
  · obtain ⟨s, hs⟩ := List.length_eq_one_iff.mp hn
    rw [(codeBook_of_eq_singleton hw hs).pathLength_eq hw, ← sum_alphabet_weights (weightsOf v), hs]
    simp
  · rw [(codeBook_of_eq_nil (List.eq_nil_of_length_eq_zero hn)).pathLength_eq hw]
    rfl

/-! ### The all-ones codeword and the marker collision -/

theorem BuiltTree.onesLength_eq (h : BuiltTree w T) (hn : 2 ≤ (alphabet w).length) :
    onesLength (alphabet w).length (buildTree w) = T.rightDepth := by
  rw [onesLength, if_neg (by omega)]
  exact h.unfolds.rightSteps_eq (Nat.lt_succ_of_le h.height_le)

theorem onesLength_of_le_one (hn : (alphabet w).length ≤ 1) : onesLength (alphabet w).length (buildTree w) = 0 :=
  if_pos (by omega)

theorem toNat_oneslen (hw : w.length = 256) : (tableOf w).oneslen.toNat = onesLength (alphabet w).length (buildTree w) := by
  refine Nat.mod_eq_of_lt ?_
  by_cases hn : 2 ≤ (alphabet w).length
  · obtain ⟨T, hT⟩ := exists_builtTree hw hn
    rw [hT.onesLength_eq hn]
    have := T.rightDepth_le_height
    have := hT.height_le
    have := hT.length
    have := length_alphabet_le_of_length hw
    omega
  · rw [onesLength_of_le_one (by omega)]
    decide

theorem mcoll_iff (hw : w.length = 256) : (tableOf w).mcoll = true ↔
    2 ≤ (alphabet w).length ∧ 8 ≤ (tableOf w).oneslen.toNat ∧ (tableOf w).oneslen.toNat ≤ 15 := by
  rw [toNat_oneslen hw]
  exact decide_eq_true_iff

theorem ones_prefix_or (m n : Nat) : ones m <+: ones n ∨ ones n <+: ones m := by
  rcases Nat.le_total m n with hle | hle
  · exact .inl ⟨ones (n - m), by rw [ones, ones, ones, ← List.replicate_add, Nat.add_sub_cancel' hle]⟩
  · exact .inr ⟨ones (m - n), by rw [ones, ones, ones, ← List.replicate_add, Nat.add_sub_cancel' hle]⟩

/-- For two or more symbols the codeword at the end of right steps is all ones, and no other is, since one of the two would
begin the other (R175). -/
theorem exists_unique_ones (hw : w.length = 256) (hn : 2 ≤ (alphabet w).length) :
    ∃ c : Byte, (tableOf w).Has c ∧ (tableOf w).codewordOf c = ones (tableOf w).oneslen.toNat ∧
      ∀ d : Byte, (tableOf w).Has d → (∃ n, (tableOf w).codewordOf d = ones n) → d = c := by
  obtain ⟨T, hT⟩ := exists_builtTree hw hn
  have h := hT.codeBook hn
  obtain ⟨s, hs⟩ := T.exists_ones_mem_paths
  have hmem : s ∈ alphabet w := h.symbols.mem_iff.mp (List.mem_map_of_mem hs)
  obtain ⟨c, rfl⟩ := exists_toNat_eq hw hmem
  refine ⟨c, (h.has_iff hw).mpr hmem, ?_, fun d hd ⟨n, hones⟩ => BitVec.eq_of_toNat_eq ?_⟩
  · rw [toNat_oneslen hw, hT.onesLength_eq hn, h.codewordOf_eq hw hs]
  · have hd' := h.mem_of_has hw hd
    rw [hones] at hd'
    rcases ones_prefix_or n T.rightDepth with hpre | hpre
    · exact congrArg Prod.fst (h.prefixFree _ hd' _ hs hpre)
    · exact (congrArg Prod.fst (h.prefixFree _ hs _ hd' hpre)).symm

/-- A codeword of two or more bits needs two symbols (R169). -/
theorem two_le_of_codelen (hw : w.length = 256) {c : Byte} (hc : 2 ≤ (atSymbol (tableOf w).codelen c).toNat) :
    2 ≤ (alphabet w).length := by
  obtain ⟨book, h⟩ := exists_codeBook hw
  have := h.codelen_le hw (c := c)
  omega

/-- Settles O27: the one all-ones codeword has length ONESLEN, so a sentinel is a codeword just when its length is that. -/
theorem markerCollisionIsExact : Obligations.MarkerCollisionIsExact := by
  rintro _ ⟨v, rfl⟩
  have hw := length_weightsOf v
  rw [toNat_nsym hw]
  refine ⟨exists_unique_ones hw, fun hn => ?_, mcoll_iff hw, ?_⟩
  · exact BitVec.eq_of_toNat_eq ((toNat_oneslen hw).trans (onesLength_of_le_one hn))
  · rw [mcoll_iff hw]
    constructor
    · rintro ⟨hn, h8, h15⟩
      obtain ⟨c, hc, hones, -⟩ := exists_unique_ones hw hn
      exact ⟨c, _, hc, h8, h15, hones⟩
    · rintro ⟨d, n, hd, h8, h15, hones⟩
      have hlen : (atSymbol (tableOf (weightsOf v)).codelen d).toNat = n := by
        rw [← length_codewordOf, hones, length_ones]
      have hn := two_le_of_codelen hw (c := d) (by omega)
      obtain ⟨c, -, hc, hunique⟩ := exists_unique_ones hw hn
      obtain rfl := hunique d hd ⟨n, hones⟩
      have heq : n = (tableOf (weightsOf v)).oneslen.toNat := by
        simpa using congrArg List.length (hones.symm.trans hc)
      exact ⟨hn, heq ▸ h8, heq ▸ h15⟩

end Sys2Proof.Machine
end

section
/-! PROOFS. What the command BUILD does to the state: it stores or rejects its table within its frame, and for no symbol and
for one the table is the one the rules write out (41_tree_builder.md R160, R168, R169, R178, R179). -/

namespace Sys2Proof.Machine

variable {s : State} {w : List Nat}

/-! ### The two ways BUILD ends -/

/-- The state BUILD leaves on success (R179). -/
def State.built (s : State) : State := ({ s with heap := buildHeap s.weights }).storeTable (tableOf s.weights)

/-- The state a rejected BUILD leaves (R178). -/
def State.buildRejected (s : State) : State := ({ s with heap := buildHeap s.weights }).rejectTable (tableOf s.weights)

theorem exec_build_of_accepted (h : (tableOf s.weights).mcoll = false ∨ s.rejectCollision = false) :
    exec .build s = .next s.built :=
  congrArg Host.Outcome.next (if_neg fun hc => by
    rw [Bool.and_eq_true] at hc
    rcases h with h | h <;> simp [h] at hc)

theorem exec_build_of_rejected (hm : (tableOf s.weights).mcoll = true) (hr : s.rejectCollision = true) :
    exec .build s = .next s.buildRejected :=
  congrArg Host.Outcome.next (if_pos (Bool.and_eq_true_iff.mpr ⟨hm, hr⟩))

theorem built_completed (s : State) : Completed s s.built .none 0 := ⟨rfl, rfl, rfl, rfl, rfl⟩

theorem built_frame (s : State) : BuildFrame s s.built := ⟨by constructor <;> rfl, rfl, rfl, rfl, rfl, rfl⟩

theorem buildRejected_completed (s : State) :
    Completed s s.buildRejected .markerCollision ((tableOf s.weights).oneslen.setWidth 32) :=
  ⟨rfl, rfl, rfl, rfl, rfl⟩

theorem buildRejected_frame (s : State) : BuildFrame s s.buildRejected := ⟨by constructor <;> rfl, rfl, rfl, rfl, rfl, rfl⟩

/-- Settles O12: an accepted BUILD, whose last pop empties the heap. -/
theorem buildStoresTheTable : Obligations.BuildStoresTheTable := fun s h =>
  ⟨s.built, exec_build_of_accepted h, rfl, rfl, buildHeap_eq_nil s.weights, built_completed s, built_frame s⟩

/-- Settles O13: REJECT_COLLISION decides, and a rejected table's registers are gated. -/
theorem buildRejectsACollision : Obligations.BuildRejectsACollision := fun s hm =>
  ⟨fun hr => ⟨s.buildRejected, exec_build_of_rejected hm hr, buildRejected_completed s, rfl, hm,
      fun _ hg => exactRead_of_gated rfl hg, buildRejected_frame s⟩,
    fun hr => ⟨s.built, exec_build_of_accepted (.inr hr), built_completed s, rfl, rfl, hm⟩⟩

/-! ### No symbol and one symbol -/

theorem mcoll_of_length_le_one (hw : w.length = 256) (hn : (alphabet w).length ≤ 1) : (tableOf w).mcoll = false := by
  rw [← Bool.not_eq_true, mcoll_iff hw]
  omega

theorem root_of_length_le_one (hw : w.length = 256) (hn : (alphabet w).length ≤ 1) :
    (tableOf w).root = BitVec.ofNat 9 ((alphabet w).headD 0x1FF) :=
  congrArg (fun t : Tree => BitVec.ofNat 9 t.root) (buildTree_of_length_le_one hw hn)

/-- Without a merge no node is stored (R168, R169). -/
theorem children_of_length_le_one (hw : w.length = 256) (hn : (alphabet w).length ≤ 1) (k : Fin 255) :
    (tableOf w).left[k] = 0#9 ∧ (tableOf w).right[k] = 0#9 := by
  simp only [tableOf, getElem_tabulate, buildTree_of_length_le_one hw hn, finishedTree]
  exact ⟨rfl, rfl⟩

theorem CodeBook.codelen_eq_zero {book : List (Nat × List Bool)} (h : CodeBook w book) {c : Byte}
    (hc : c.toNat ∉ alphabet w) : atSymbol (tableOf w).codelen c = 0#9 := by
  rw [atSymbol_codelen, h.codeLen_eq_zero hc]

theorem alphabet_eq_nil {v : Vector Word 256} (hv : ∀ c : Byte, atSymbol v c = 0) : alphabet (weightsOf v) = [] := by
  refine List.eq_nil_iff_forall_not_mem.mpr fun x hx => ?_
  obtain ⟨c, rfl⟩ := exists_toNat_eq (length_weightsOf v) hx
  exact toNat_mem_alphabet.mp hx (hv c)

theorem alphabet_eq_singleton {v : Vector Word 256} {c : Byte} (hc : atSymbol v c ≠ 0)
    (hothers : ∀ d : Byte, d ≠ c → atSymbol v d = 0) : alphabet (weightsOf v) = [c.toNat] := by
  refine List.perm_singleton.mp ((List.perm_ext_iff_of_nodup (nodup_alphabet _) (List.nodup_singleton _)).mpr fun x => ?_)
  rw [List.mem_singleton]
  constructor
  · intro hx
    obtain ⟨d, rfl⟩ := exists_toNat_eq (length_weightsOf v) hx
    by_contra hne
    exact toNat_mem_alphabet.mp hx (hothers d fun hd => hne (hd ▸ rfl))
  · rintro rfl
    exact toNat_mem_alphabet.mpr hc

/-- Settles O15: the alphabet is empty, so nothing is merged and no symbol has a codeword. -/
theorem buildOfTheEmptyAlphabet : Obligations.BuildOfTheEmptyAlphabet := by
  intro s hs
  have hw : s.weights.length = 256 := length_weightsOf s.weight
  have hnil : alphabet s.weights = [] := alphabet_eq_nil hs
  have hle : (alphabet s.weights).length ≤ 1 := by simp [hnil]
  have hmcoll := mcoll_of_length_le_one hw hle
  have hempty : (tableOf s.weights).empty = true := by simp [CodeTable.empty, tableOf, hnil]
  have hroot : (tableOf s.weights).root = 0x1FF#9 := by rw [root_of_length_le_one hw hle, hnil]; rfl
  exact ⟨s.built, exec_build_of_accepted (.inl hmcoll), built_completed s, rfl, hempty, hroot, hmcoll,
    fun c => (codeBook_of_eq_nil hnil).codelen_eq_zero (by simp [hnil]), children_of_length_le_one hw hle⟩

/-- Settles O16: the alphabet is the one symbol, so it is the root and the code book is its codeword "0". -/
theorem buildOfOneSymbol : Obligations.BuildOfOneSymbol := by
  intro s c hc hothers
  have hw : s.weights.length = 256 := length_weightsOf s.weight
  have hone : alphabet s.weights = [c.toNat] := alphabet_eq_singleton hc hothers
  have hle : (alphabet s.weights).length ≤ 1 := by simp [hone]
  have hmcoll := mcoll_of_length_le_one hw hle
  have h := codeBook_of_eq_singleton hw hone
  have he : (c.toNat, [false]) ∈ [(c.toNat, [false])] := List.mem_cons_self
  have hnsym : (tableOf s.weights).nsym = 1#9 := by simp [tableOf, hone]
  have hroot : (tableOf s.weights).root = BitVec.setWidth 9 c := by
    rw [root_of_length_le_one hw hle, hone]
    exact BitVec.ofNat_toNat ..
  have hlen : atSymbol (tableOf s.weights).codelen c = 1#9 := by rw [atSymbol_codelen, h.codeLen_eq he]; rfl
  have hval : atSymbol (tableOf s.weights).codeword c = 0#256 := by rw [atSymbol_codeword, h.codeVal_eq he]; rfl
  refine ⟨s.built, exec_build_of_accepted (.inl hmcoll), built_completed s, rfl, hnsym, hroot, hmcoll,
    h.codewordOf_eq hw he, hlen, hval, fun d hd => h.codelen_eq_zero ?_, children_of_length_le_one hw hle⟩
  rw [hone, List.mem_singleton]
  exact fun heq => hd (BitVec.eq_of_toNat_eq heq)

end Sys2Proof.Machine
end

section
/-! PROOFS. BUILD's code is optimal. The lengths of a code in which no word begins another meet Kraft's inequality; from
lengths that do, each merge gives lengths for the merged queue that do too and cost less by the new node's
weight; so any code costs at least the internal nodes' weights, which is WPL (41_tree_builder.md R180 item 8). -/

namespace Sys2Proof.Machine

variable {w q q1 q2 : List Nat} {arena : List TreeNode} {wt len : Nat → Nat} {a b : Nat}

/-! ### Lengths for the nodes of a queue -/

/-- The Kraft sum of a length for each node. -/
noncomputable def kraftSum (len : Nat → Nat) (q : List Nat) : ℝ := (q.map (fun x => (1 / 2 : ℝ) ^ len x)).sum

/-- The weighted sum of the lengths. -/
def lengthCost (wt len : Nat → Nat) (q : List Nat) : Nat := (q.map (fun x => wt x * len x)).sum

theorem kraftSum_cons (len : Nat → Nat) (x : Nat) (q : List Nat) :
    kraftSum len (x :: q) = (1 / 2 : ℝ) ^ len x + kraftSum len q := List.sum_cons

theorem lengthCost_cons (wt len : Nat → Nat) (x : Nat) (q : List Nat) :
    lengthCost wt len (x :: q) = wt x * len x + lengthCost wt len q := List.sum_cons

theorem kraftSum_perm (h : q.Perm q1) (len : Nat → Nat) : kraftSum len q = kraftSum len q1 := (h.map _).sum_eq

theorem lengthCost_perm (h : q.Perm q1) (wt len : Nat → Nat) : lengthCost wt len q = lengthCost wt len q1 :=
  (h.map _).sum_eq

theorem kraftSum_congr {len' : Nat → Nat} (h : ∀ x ∈ q, len' x = len x) : kraftSum len' q = kraftSum len q :=
  congrArg List.sum (List.map_congr_left fun x hx => by rw [h x hx])

theorem lengthCost_congr {wt' len' : Nat → Nat} (hwt : ∀ x ∈ q, wt' x = wt x) (h : ∀ x ∈ q, len' x = len x) :
    lengthCost wt' len' q = lengthCost wt len q :=
  congrArg List.sum (List.map_congr_left fun x hx => by rw [hwt x hx, h x hx])

/-! ### The lightest node may have the greatest length -/

theorem swap_mem {x y : Nat} (ha : a ∈ q) (hx : x ∈ q) (hy : y ∈ q) : Equiv.swap a x y ∈ q := by
  rw [Equiv.swap_apply_def]
  split
  · exact hx
  · split
    · exact ha
    · exact hy

/-- Two nodes of a queue, and the others. -/
theorem exists_perm_cons_cons {x : Nat} (hnd : q.Nodup) (ha : a ∈ q) (hx : x ∈ q) (hne : x ≠ a) :
    ∃ rest, q.Perm (a :: x :: rest) ∧ ∀ y ∈ rest, y ≠ a ∧ y ≠ x := by
  have hperm : q.Perm (a :: x :: (q.erase a).erase x) :=
    (List.perm_cons_erase ha).trans ((List.perm_cons_erase ((List.mem_erase_of_ne hne).mpr hx)).cons a)
  have hnd' := hperm.nodup_iff.mp hnd
  simp only [List.nodup_cons, List.mem_cons, not_or] at hnd'
  obtain ⟨⟨-, ha'⟩, hx', -⟩ := hnd'
  exact ⟨_, hperm, fun y hy => ⟨fun h => ha' (h ▸ hy), fun h => hx' (h ▸ hy)⟩⟩

/-- Swapping the lengths of two nodes keeps the Kraft sum, and costs no more if the longer goes to the lighter. -/
theorem swap_lengths {x : Nat} (hnd : q.Nodup) (ha : a ∈ q) (hx : x ∈ q) (hwt : wt a ≤ wt x) (hlen : len a ≤ len x) :
    kraftSum (len ∘ Equiv.swap a x) q = kraftSum len q ∧
      lengthCost wt (len ∘ Equiv.swap a x) q ≤ lengthCost wt len q := by
  by_cases hne : x = a
  · subst hne
    simp
  · obtain ⟨rest, hperm, hrest⟩ := exists_perm_cons_cons hnd ha hx hne
    have hkeep (y : Nat) (hy : y ∈ rest) : (len ∘ Equiv.swap a x) y = len y :=
      congrArg len (Equiv.swap_apply_of_ne_of_ne (hrest y hy).1 (hrest y hy).2)
    have hmul := mul_add_mul_le_mul_add_mul hwt hlen
    rw [kraftSum_perm hperm, kraftSum_perm hperm, lengthCost_perm hperm, lengthCost_perm hperm]
    simp only [kraftSum_cons, lengthCost_cons, kraftSum_congr hkeep, lengthCost_congr (fun _ _ => rfl) hkeep,
      Function.comp_apply, Equiv.swap_apply_left, Equiv.swap_apply_right]
    exact ⟨add_left_comm _ _ _, by omega⟩

/-- The lightest node may have the greatest length. -/
theorem exists_lengths_longest (hnd : q.Nodup) (ha : a ∈ q) (hlight : ∀ x ∈ q, wt a ≤ wt x) (len : Nat → Nat) :
    ∃ len', kraftSum len' q = kraftSum len q ∧ lengthCost wt len' q ≤ lengthCost wt len q ∧
      (∀ x ∈ q, len' x ≤ len' a) ∧ ∀ n, (∀ x ∈ q, len x ≤ n) → ∀ x ∈ q, len' x ≤ n := by
  obtain ⟨x, hx, hmax⟩ := q.toFinset.exists_max_image len ⟨a, List.mem_toFinset.mpr ha⟩
  simp only [List.mem_toFinset] at hx hmax
  obtain ⟨hkraft, hcost⟩ := swap_lengths (wt := wt) hnd ha hx (hlight x hx) (hmax a ha)
  refine ⟨_, hkraft, hcost, fun y hy => ?_, fun n hn y hy => hn _ (swap_mem ha hx hy)⟩
  simpa using hmax _ (swap_mem ha hx hy)

/-! ### Lengths for the merged queue -/

/-- A Kraft sum is a number of units of the greatest length. -/
theorem two_pow_mul_kraftSum {m : Nat} (h : ∀ x ∈ q, len x ≤ m) :
    (2 : ℝ) ^ m * kraftSum len q = ((q.map (fun x => 2 ^ (m - len x))).sum : Nat) := by
  induction q with
  | nil => simp [kraftSum]
  | cons x q ih =>
    obtain ⟨hx, hq⟩ := List.forall_mem_cons.mp h
    have hunit : (2 : ℝ) ^ m * (1 / 2) ^ len x = 2 ^ (m - len x) := by
      rw [pow_sub₀ _ two_ne_zero hx, one_div, inv_pow]
    rw [kraftSum_cons, mul_add, ih hq, hunit]
    push_cast [List.map_cons, List.sum_cons]
    rfl

/-- Where two nodes have the greatest lengths, their parent may have one bit less than the shorter. -/
theorem kraftSum_parent {l m : Nat} (hq : ∀ x ∈ q, len x ≤ m)
    (hkraft : (1 / 2 : ℝ) ^ l + ((1 / 2 : ℝ) ^ m + kraftSum len q) ≤ 1) :
    ∃ k, m = k + 1 ∧ (1 / 2 : ℝ) ^ k + kraftSum len q ≤ 1 := by
  have hunits := two_pow_mul_kraftSum hq
  generalize (q.map (fun x => 2 ^ (m - len x))).sum = units at hunits
  have hpow : (0 : ℝ) < 2 ^ m := by positivity
  have hone : (2 : ℝ) ^ m * (1 / 2) ^ m = 1 := by rw [← mul_pow]; norm_num
  have hlt : (units + 1 : ℝ) < 2 ^ m := by
    have hpos : (0 : ℝ) < 2 ^ m * (1 / 2) ^ l := by positivity
    have := mul_le_mul_of_nonneg_left hkraft hpow.le
    rw [mul_add, mul_add, hone, hunits, mul_one] at this
    linarith
  have hle : units + 2 ≤ 2 ^ m := by exact_mod_cast hlt
  obtain ⟨k, rfl⟩ : ∃ k, m = k + 1 := Nat.exists_eq_succ_of_ne_zero (by rintro rfl; simp at hle)
  refine ⟨k, rfl, le_of_mul_le_mul_left ?_ hpow⟩
  rw [mul_add, hunits, mul_one, pow_succ', mul_assoc, ← mul_pow]
  have : (units : ℝ) + 2 ≤ 2 ^ (k + 1) := by exact_mod_cast hle
  rw [pow_succ'] at this
  norm_num
  linarith

/-- One merge: lengths for the queue give one length for the new node and lengths for the rest that meet Kraft's inequality
and save the new node's weight. -/
theorem exists_lengths_merged (hnd : q.Nodup) (hq : q.Perm (a :: q1)) (hq1 : q1.Perm (b :: q2))
    (ha : ∀ x ∈ q, wt a ≤ wt x) (hb : ∀ x ∈ q1, wt b ≤ wt x) (hkraft : kraftSum len q ≤ 1) :
    ∃ k len', (1 / 2 : ℝ) ^ k + kraftSum len' q2 ≤ 1 ∧
      (wt a + wt b) * k + lengthCost wt len' q2 + (wt a + wt b) ≤ lengthCost wt len q := by
  have haq : a ∈ q := hq.mem_iff.mpr List.mem_cons_self
  have hbq : b ∈ q1 := hq1.mem_iff.mpr List.mem_cons_self
  have hnd1 : q1.Nodup := (List.nodup_cons.mp (hq.nodup_iff.mp hnd)).2
  obtain ⟨len1, hk1, hc1, hmax1, -⟩ := exists_lengths_longest hnd haq ha len
  obtain ⟨len2, hk2, hc2, hmax2, hle2⟩ := exists_lengths_longest hnd1 hbq hb len1
  rw [← hk1, kraftSum_perm hq, kraftSum_cons, ← hk2, kraftSum_perm hq1, kraftSum_cons] at hkraft
  rw [lengthCost_perm hq, lengthCost_cons] at hc1
  rw [lengthCost_perm hq1, lengthCost_cons] at hc2
  obtain ⟨k, hk, hparent⟩ :=
    kraftSum_parent (fun x hx => hmax2 x (hq1.mem_iff.mpr (List.mem_cons_of_mem _ hx))) hkraft
  have hshort : len2 b ≤ len1 a := hle2 _ (fun x hx => hmax1 x (hq.mem_iff.mpr (List.mem_cons_of_mem _ hx))) b hbq
  have hmul := Nat.mul_le_mul_left (wt a) (hk ▸ hshort)
  rw [hk] at hc2
  refine ⟨k, len2, hparent, ?_⟩
  rw [Nat.mul_succ] at hmul hc2
  rw [Nat.add_mul]
  omega

/-- Lengths for the alphabet give lengths for the queue of any time, cheaper by the weights of the nodes made so far. -/
theorem Merged.exists_lengths (hw : w.length = 256) (h : Merged w q arena) (hkraft : kraftSum len (alphabet w) ≤ 1) :
    ∃ len', kraftSum len' q ≤ 1 ∧
      lengthCost (nodeWeight w arena) len' q + (arena.map TreeNode.weight).sum ≤
        lengthCost (fun s => w.getD s 0) len (alphabet w) := by
  induction h with
  | start hq =>
    refine ⟨len, kraftSum_perm hq len ▸ hkraft, ?_⟩
    rw [lengthCost_perm hq, lengthCost_congr (fun s hs => ?_) fun _ _ => rfl]
    · exact Nat.le_refl _
    · simp [nodeWeight, lt_of_mem_alphabet hw hs]
  | @merge q q1 q2 q' arena a b h hpop1 hpop2 hq ih =>
    obtain ⟨len0, hk0, hc0⟩ := ih
    obtain ⟨k, len1, hk1, hc1⟩ := exists_lengths_merged (List.nodup_append'.mp (h.nodup hw)).1 hpop1.perm.symm
      hpop2.perm.symm (fun x hx => weight_le_of_not_before (hpop1.least x hx))
      (fun x hx => weight_le_of_not_before (hpop2.least x hx)) hk0
    have hlt (x : Nat) (hx : x ∈ q2) : x < 256 + arena.length := h.lt hw (hpop1.mem_of_mem (hpop2.mem_of_mem hx))
    have hlen (x : Nat) (hx : x ∈ q2) : Function.update len1 (256 + arena.length) k x = len1 x :=
      Function.update_of_ne (hlt x hx).ne ..
    refine ⟨Function.update len1 (256 + arena.length) k, ?_, ?_⟩
    · rwa [kraftSum_perm hq, kraftSum_cons, Function.update_self, kraftSum_congr hlen]
    · rw [lengthCost_perm hq, lengthCost_cons, Function.update_self, nodeWeight_newest,
        lengthCost_congr (wt := nodeWeight w arena) (fun x hx => nodeWeight_append w arena _ (hlt x hx)) hlen,
        List.map_append, List.sum_append]
      simp only [mergeNode, List.map_cons, List.map_nil, List.sum_cons, List.sum_nil]
      omega

/-! ### Codes in which no word begins another -/

/-- Words of which none begins another, the empty one not among them, are uniquely decodable. -/
theorem uniquelyDecodable_of_prefixFree {words : Set (List Bool)} (hnil : [] ∉ words)
    (hpre : ∀ x ∈ words, ∀ y ∈ words, x <+: y → x = y) : InformationTheory.UniquelyDecodable words := by
  intro xs
  induction xs with
  | nil =>
    intro ys _ hys heq
    cases ys with
    | nil => rfl
    | cons y ys => exact absurd (List.append_eq_nil_iff.mp heq.symm).1 fun h => hnil (h ▸ hys y List.mem_cons_self)
  | cons x xs ih =>
    intro ys hxs hys heq
    obtain ⟨hx, hxs⟩ := List.forall_mem_cons.mp hxs
    cases ys with
    | nil => exact absurd (List.append_eq_nil_iff.mp heq).1 fun h => hnil (h ▸ hx)
    | cons y ys =>
      obtain ⟨hy, hrest⟩ := List.forall_mem_cons.mp hys
      rw [List.flatten_cons, List.flatten_cons] at heq
      obtain rfl : x = y := by
        rcases List.prefix_or_prefix_of_prefix (List.prefix_append x _) (heq ▸ List.prefix_append y _) with h | h
        · exact hpre x hx y hy h
        · exact (hpre y hy x hx h).symm
      rw [ih ys hxs hrest (List.append_cancel_left heq)]

/-- The lengths of a code on two or more symbols in which no word begins another meet Kraft's inequality. -/
theorem kraftSum_le_one {symbols : List Nat} {code : Nat → List Bool} (hnd : symbols.Nodup) (hn : 2 ≤ symbols.length)
    (hpre : ∀ x ∈ symbols, ∀ y ∈ symbols, code x <+: code y → x = y) :
    kraftSum (fun x => (code x).length) symbols ≤ 1 := by
  have hwords : (symbols.map code).Nodup :=
    hnd.map_on fun x hx y hy heq => hpre x hx y hy (heq ▸ List.prefix_rfl)
  have hnil : [] ∉ symbols.map code := by
    intro hmem
    obtain ⟨x, hx, hempty⟩ := List.mem_map.mp hmem
    have hall : symbols ⊆ [x] := fun y hy => List.mem_singleton.mpr (hpre x hx y hy (hempty ▸ List.nil_prefix)).symm
    have := (hnd.subperm hall).length_le
    rw [List.length_singleton] at this
    omega
  have hunique : InformationTheory.UniquelyDecodable ((symbols.map code).toFinset : Set (List Bool)) := by
    refine uniquelyDecodable_of_prefixFree (by simpa using hnil) fun c hc d hd h => ?_
    obtain ⟨x, hx, rfl⟩ := List.mem_map.mp (List.mem_toFinset.mp hc)
    obtain ⟨y, hy, rfl⟩ := List.mem_map.mp (List.mem_toFinset.mp hd)
    rw [hpre x hx y hy h]
  have hkraft := InformationTheory.kraft_mcmillan_inequality hunique
  rw [List.sum_toFinset _ hwords, List.map_map, Fintype.card_bool] at hkraft
  exact_mod_cast hkraft

/-- Settles O26: the lengths of the code meet Kraft's inequality, so they cost at least the internal nodes' weights, which is
WPL. -/
theorem huffmanCodeIsOptimal : Obligations.HuffmanCodeIsOptimal := by
  intro v code hn hcode
  have hw := length_weightsOf v
  rw [← length_alphabet] at hn
  have hpre : ∀ x ∈ alphabet (weightsOf v), ∀ y ∈ alphabet (weightsOf v),
      code (BitVec.ofNat 8 x) <+: code (BitVec.ofNat 8 y) → x = y := by
    intro x hx y hy h
    obtain ⟨a, rfl⟩ := exists_toNat_eq hw hx
    obtain ⟨b, rfl⟩ := exists_toNat_eq hw hy
    rw [BitVec.ofNat_toNat, BitVec.ofNat_toNat, BitVec.setWidth_eq, BitVec.setWidth_eq] at h
    by_contra hne
    exact hcode a b (fun hab => hne (hab ▸ rfl)) (toNat_mem_alphabet.mp hx) (toNat_mem_alphabet.mp hy) h
  obtain ⟨q, arena, hm, -, hb⟩ := exists_merged_buildTree hw
  obtain ⟨len, -, hcost⟩ := hm.exists_lengths hw (kraftSum_le_one (nodup_alphabet _) hn hpre)
  rw [toNat_wpl, pathLength_eq_sum_weight hw hn, hb, ← hw, ← sum_alphabet]
  exact (Nat.le_add_left _ _).trans hcost

end Sys2Proof.Machine
end

section
/-! PROOFS. What ENCODE does to the state, outcome by outcome: the four errors, the empty stream and the stored stream, each
within ENCODE's frame; and the bytes of a stored stream, which end in the sentinel's ones (42_encoder.md R200 to R209). -/

namespace Sys2Proof.Machine

variable {s : State} {t : CodeTable} {symbols : List Byte}

/-! ### The first symbol without a codeword -/

theorem firstMissing_eq_none_iff : firstMissing t symbols = none ↔ ∀ c ∈ symbols, t.Has c := by
  simp [firstMissing, CodeTable.Has]

theorem firstMissing_eq_some {i : Nat} {c : Byte} (hi : symbols[i]? = some c) (hc : ¬ t.Has c)
    (hbefore : ∀ j d, j < i → symbols[j]? = some d → t.Has d) : firstMissing t symbols = some i := by
  obtain ⟨hlt, rfl⟩ := List.getElem?_eq_some_iff.mp hi
  rw [firstMissing, List.findIdx?_eq_some_iff_getElem]
  exact ⟨hlt, by simpa [CodeTable.Has] using hc,
    fun j hj => by simpa [CodeTable.Has] using hbefore j _ hj (List.getElem?_eq_getElem (hj.trans hlt))⟩

/-! ### Which outcome -/

theorem exec_encode_of_invalid (hv : s.table.valid = false) : exec .encode s = .next (s.failEncode .noTable 0) := by
  simp [exec, execEncode, hv]

theorem exec_encode_of_lengthBad (hv : s.table.valid = true) (hl : s.cfg.inDepth < s.len.toNat) :
    exec .encode s = .next (s.failEncode .badLength s.len) := by
  have hbad : s.lengthBad = true := decide_eq_true hl
  simp [exec, execEncode, hv, hbad]

section
variable (hv : s.table.valid = true) (hl : s.len.toNat ≤ s.cfg.inDepth)
include hv hl

theorem exec_encode_of_empty (h : s.table.nsym = 0#9 ∧ s.len = 0#32) : exec .encode s = .next s.storeEmptyStream := by
  rw [execEncode_of_valid hv hl, if_pos h]

theorem exec_encode_of_missing {i : Nat} (hm : firstMissing s.table s.inputBytes = some i) :
    exec .encode s = .next (s.failEncode .symbolNotInTable (BitVec.ofNat 32 i)) := by
  have hne : ¬ (s.table.nsym = 0#9 ∧ s.len = 0#32) := fun h => by
    have hi := firstMissing_lt hm
    rw [length_inputBytes, h.2] at hi
    exact absurd hi (Nat.not_lt_zero i)
  rw [execEncode_of_valid hv hl, if_neg hne]
  simp only [encodeSymbols, hm]

variable (hhas : ∀ c ∈ s.inputBytes, s.table.Has c) (hne : ¬ (s.table.nsym = 0#9 ∧ s.len = 0#32))
include hhas hne

theorem exec_encode_of_overflow (hsize : s.cfg.outDepth < streamSize (payload s.table s.inputBytes)) :
    exec .encode s =
      .next (s.failEncode .outputOverflow (BitVec.ofNat 32 (streamSize (payload s.table s.inputBytes)))) := by
  rw [execEncode_of_valid hv hl, if_neg hne]
  simp only [encodeSymbols, firstMissing_eq_none_iff.mpr hhas, if_pos hsize]

theorem exec_encode_of_fits (hsize : streamSize (payload s.table s.inputBytes) ≤ s.cfg.outDepth) :
    exec .encode s = .next (s.storeStream (payload s.table s.inputBytes)) := by
  rw [execEncode_of_valid hv hl, if_neg hne]
  simp only [encodeSymbols, firstMissing_eq_none_iff.mpr hhas, if_neg (Nat.not_lt.mpr hsize)]

end

/-! ### What each outcome leaves -/

theorem failEncode_failed (code : ErrCode) (info : Word) (s : State) :
    EncodeFailed s (s.failEncode code info) code info :=
  ⟨⟨rfl, rfl, rfl, rfl, rfl⟩, ⟨by constructor <;> rfl, rfl, rfl, rfl⟩, rfl, rfl, rfl⟩

theorem storeEmptyStream_frame (s : State) : EncodeFrame s s.storeEmptyStream :=
  ⟨by constructor <;> rfl, rfl, rfl, rfl⟩

theorem storeStream_frame (p : List Bool) (s : State) : EncodeFrame s (s.storeStream p) :=
  ⟨by constructor <;> rfl, rfl, rfl, rfl⟩

theorem storeStream_completed (p : List Bool) (s : State) : Completed s (s.storeStream p) .none 0 :=
  ⟨rfl, rfl, rfl, rfl, rfl⟩

/-! ### The bytes of a stored stream -/

theorem streamSize_eq (p : List Bool) : streamSize p = (p.length + paddingOf p.length + 8) / 8 := by
  rw [streamSize, length_streamOf, Nat.add_assoc]

theorem storeStream_readFirst (p : List Bool) (s : State) :
    (s.storeStream p).outBuf.readFirst (streamSize p) = packBytes (streamOf p) := by
  rw [← length_packBytes_streamOf]
  exact Memory.readFirst_writeFrom_zero _ _

/-- The bytes stored, read as bits, are the codewords and the sentinel (R204, R207). -/
theorem streamBits_storeStream (p : List Bool) (s : State) :
    streamBits ((s.storeStream p).outBuf.readFirst (streamSize p)) = streamOf p := by
  rw [storeStream_readFirst]
  refine streamBits_packBytes (streamSize p) ?_
  rw [length_streamOf, eight_mul_streamSize, Nat.add_assoc]

theorem storeStream_read_above (p : List Bool) (s : State) {i : Nat} (hi : streamSize p ≤ i) :
    (s.storeStream p).outBuf.read i = s.outBuf.read i :=
  Memory.read_writeFrom_zero_above _ _ ((length_packBytes_streamOf p).trans_le hi)

theorem storeStream_toNat_pad (p : List Bool) (s : State) : (s.storeStream p).pad.toNat = paddingOf p.length :=
  Nat.mod_eq_of_lt (paddingOf_lt _)

/-- The padding fills up the payload's last byte, so the eight ones after it are a byte of their own (R204, R209). -/
theorem packBytes_streamOf (p : List Bool) :
    packBytes (streamOf p) = packBytes (p ++ ones (paddingOf p.length)) ++ [0xFF#8] := by
  obtain ⟨n, hn⟩ := dvd_add_paddingOf p.length
  have hpadded : (p ++ ones (paddingOf p.length)).length = 8 * n := by rw [List.length_append, length_ones, hn]
  have hones : ones (paddingOf p.length + 8) = ones (paddingOf p.length) ++ byteBits 0xFF#8 :=
    List.replicate_add _ 8 true
  calc packBytes (streamOf p)
      = packBytes (streamBits (packBytes (p ++ ones (paddingOf p.length)) ++ [0xFF#8])) := by
        rw [streamBits, List.flatMap_append, ← streamBits, streamBits_packBytes n hpadded, List.flatMap_singleton,
          streamOf, hones, List.append_assoc]
    _ = packBytes (p ++ ones (paddingOf p.length)) ++ [0xFF#8] := packBytes_streamBits _

theorem streamSize_pos (p : List Bool) : 0 < streamSize p := by
  have := eight_mul_streamSize p
  omega

/-- The last byte of a stored stream is 0xFF (R209). -/
theorem storeStream_read_last (p : List Bool) (s : State) :
    (s.storeStream p).outBuf.read (streamSize p - 1) = 0xFF#8 := by
  have hlt : streamSize p - 1 < (packBytes (streamOf p)).length := by
    rw [length_packBytes_streamOf]
    exact Nat.sub_one_lt (streamSize_pos p).ne'
  refine (Memory.read_writeFrom_zero_below s.outBuf _ hlt).trans ?_
  simp [← length_packBytes_streamOf, packBytes_streamOf]

/-- OUT_DEPTH fits 32 bits (R5), so OUT_LEN is not cut. -/
theorem storeStream_toNat_outLen {p : List Bool} (hwf : s.cfg.wf = true) (hsize : streamSize p ≤ s.cfg.outDepth) :
    (s.storeStream p).outLen.toNat = streamSize p := by
  obtain ⟨-, -, -, hout⟩ := of_decide_eq_true hwf
  have hdepth : s.cfg.outDepth ≤ 2 ^ 24 := Nat.pow_le_pow_right (by decide) hout
  exact toNat_ofNat_word (hsize.trans_lt (hdepth.trans_lt (by decide)))

/-! ### The empty alphabet -/

theorem not_has_of_nsym_eq_zero (h : t.Built) (hn : t.nsym = 0#9) (c : Byte) : ¬ t.Has c := by
  obtain ⟨v, rfl⟩ := h
  have hw := length_weightsOf v
  have hnil : alphabet (weightsOf v) = [] := List.length_eq_zero_iff.mp (by rw [← toNat_nsym hw, hn]; rfl)
  rw [(codeBook_of_eq_nil hnil).has_iff hw, hnil]
  exact List.not_mem_nil

/-- Settles O29: without a symbol to encode the empty stream is stored, else the first one has no codeword. -/
theorem encodeOfTheEmptyAlphabet : Obligations.EncodeOfTheEmptyAlphabet := by
  intro s
  refine ⟨fun hv hn hl => ?_, fun hb hn hne hl => ?_⟩
  · rw [exec_encode_of_empty hv (by simp [hl]) ⟨hn, hl⟩]
    simp [State.storeEmptyStream, State.completeWith]
  · have hv : s.table.valid = true := by
      obtain ⟨v, hv⟩ := hb
      rw [hv]
      rfl
    have hpos : 0 < s.inputBytes.length := by
      rw [length_inputBytes]
      exact Nat.pos_of_ne_zero fun h => hne (BitVec.eq_of_toNat_eq h)
    have hm : firstMissing s.table s.inputBytes = some 0 :=
      firstMissing_eq_some (List.getElem?_eq_getElem hpos) (not_has_of_nsym_eq_zero hb hn _)
        fun j _ hj => absurd hj (Nat.not_lt_zero j)
    exact ⟨_, exec_encode_of_missing hv hl hm, failEncode_failed _ _ s⟩

/-! ### The statements about any table -/

/-- Settles O30: each check that fails decides the outcome, which is a failed ENCODE. -/
theorem encodeErrorsInOrder : Obligations.EncodeErrorsInOrder := by
  intro s payloadBits n
  have hn : streamSize (payload s.table s.inputBytes) = n := streamSize_eq _
  refine ⟨fun hv => ?_, fun hv hl => ?_, fun i c hv hl hi hc hbefore => ?_, fun hv hl hhas hne hsize => ?_⟩
  · exact ⟨_, exec_encode_of_invalid hv, failEncode_failed _ _ s⟩
  · exact ⟨_, exec_encode_of_lengthBad hv hl, failEncode_failed _ _ s⟩
  · exact ⟨_, exec_encode_of_missing hv hl (firstMissing_eq_some hi hc hbefore), failEncode_failed _ _ s⟩
  · rw [← hn] at hsize ⊢
    exact ⟨_, exec_encode_of_overflow hv hl hhas hne hsize, failEncode_failed _ _ s⟩

/-- Settles O28: every check passes, and the stored bytes pack the payload and the sentinel. -/
theorem encodeWritesTheStream : Obligations.EncodeWritesTheStream := by
  intro s payloadBits p n hv hl hhas hne hsize
  have hn : streamSize payloadBits = n := streamSize_eq _
  rw [← hn] at hsize ⊢
  exact ⟨s.storeStream payloadBits, exec_encode_of_fits hv hl hhas hne hsize, storeStream_completed _ s,
    storeStream_frame _ s, rfl, rfl, rfl, streamBits_storeStream _ s, fun _ hi => storeStream_read_above _ s hi⟩

/-- Settles O31: with a non-empty table the stream stored is a payload and its sentinel. -/
theorem encodedStreamEndsInOnes : Obligations.EncodedStreamEndsInOnes := by
  intro s t hwf hnsym hx hnone
  rcases execEncode_cases hx with ⟨code, info, hc, rfl⟩ | ⟨-, hn, -, -⟩ | ⟨-, -, -, hsize, rfl⟩
  · exact absurd hnone hc
  · exact absurd hn hnsym
  · rw [storeStream_toNat_outLen hwf hsize, storeStream_toNat_pad, streamBits_storeStream]
    refine ⟨streamSize_pos _, storeStream_read_last _ s, List.drop_left' ?_⟩
    have := eight_mul_streamSize (payload s.table s.inputBytes)
    omega

/-- Settles O32: each of the three ways ENCODE ends keeps the frame, and a failure PAD too. -/
theorem encodeLeavesItsInputs : Obligations.EncodeLeavesItsInputs := by
  intro s t hx
  rcases execEncode_cases hx with ⟨code, info, -, rfl⟩ | ⟨-, -, -, rfl⟩ | ⟨-, -, -, -, rfl⟩
  · have hfailed := failEncode_failed code info s
    exact ⟨hfailed.toEncodeFrame, fun _ => hfailed.pad⟩
  · exact ⟨storeEmptyStream_frame s, fun herr => absurd rfl herr⟩
  · exact ⟨storeStream_frame _ s, fun herr => absurd rfl herr⟩

end Sys2Proof.Machine
end

section
/-! PROOFS. What DECODE answers at each of its first checks, and what each of its outcomes leaves
(43_decoder.md R230 to R235, R242, R243). -/

namespace Sys2Proof.Machine

variable {s : State}

/-! ### What each outcome leaves -/

theorem failDecode_failed (code : ErrCode) (info : Word) (s : State) :
    DecodeFailed s (s.failDecode code info) code info :=
  ⟨⟨rfl, rfl, rfl, rfl, rfl⟩, ⟨⟨by constructor <;> rfl, rfl, rfl, rfl⟩, rfl, rfl⟩, rfl⟩

theorem storeSymbols_completed (symbols : List Byte) (s : State) : Completed s (s.storeSymbols symbols) .none 0 :=
  ⟨rfl, rfl, rfl, rfl, rfl⟩

theorem storeSymbols_frame (symbols : List Byte) (s : State) : DecodeFrame s (s.storeSymbols symbols) :=
  ⟨⟨by constructor <;> rfl, rfl, rfl, rfl⟩, rfl, rfl⟩

theorem storeSymbols_readFirst (symbols : List Byte) (s : State) :
    (s.storeSymbols symbols).outBuf.readFirst symbols.length = symbols :=
  Memory.readFirst_writeFrom_zero _ _

theorem storeSymbols_read_above (symbols : List Byte) (s : State) {i : Nat} (hi : symbols.length ≤ i) :
    (s.storeSymbols symbols).outBuf.read i = s.outBuf.read i :=
  Memory.read_writeFrom_zero_above _ _ hi

/-! ### Which check fails -/

theorem exec_decode_of_invalid (hv : s.table.valid = false) : exec .decode s = .next (s.failDecode .noTable 0) := by
  simp [exec, execDecode, hv]

theorem exec_decode_of_lengthBad (hv : s.table.valid = true) (hl : s.cfg.inDepth < s.len.toNat) :
    exec .decode s = .next (s.failDecode .badLength s.len) := by
  have hbad : s.lengthBad = true := decide_eq_true hl
  simp [exec, execDecode, hv, hbad]

theorem exec_decode_of_empty (hv : s.table.valid = true) (hlen : s.len = 0#32) :
    exec .decode s = .next (s.storeSymbols []) := by
  have hl : s.len.toNat ≤ s.cfg.inDepth := by simp [hlen]
  simp [exec, execDecode, hv, lengthBad_eq_false hl, hlen]

section
variable (hv : s.table.valid = true) (hl : s.len.toNat ≤ s.cfg.inDepth) (hlen : s.len ≠ 0#32)
include hv hl hlen

theorem exec_decode_of_emptyTable (hn : s.table.nsym = 0#9) :
    exec .decode s = .next (s.failDecode .unknownCodeword 0) := by
  simp [exec, execDecode, hv, lengthBad_eq_false hl, hlen, hn]

theorem exec_decode_of_short (hn : s.table.nsym ≠ 0#9) (hshort : 8 * s.len.toNat < s.pad.toNat + 8) :
    exec .decode s = .next (s.failDecode .truncatedStream (BitVec.ofNat 32 (8 * s.len.toNat))) := by
  rw [execDecode_of_valid hv hl hlen hn]
  simp [decodeStream, State.sentinelLen, length_inputBytes, hshort]

end

/-- The last PAD + 8 bits of a stream are its terminator (R234, R235). -/
theorem exec_decode_of_split {bits terminator : List Bool} (hv : s.table.valid = true) (hl : s.len.toNat ≤ s.cfg.inDepth)
    (hn : s.table.nsym ≠ 0#9) (hterm : terminator.length = s.pad.toNat + 8)
    (hstream : streamBits s.inputBytes = bits ++ terminator) :
    exec .decode s = .next (decodeSplit bits terminator s) := by
  have hbits : 8 * s.len.toNat = bits.length + terminator.length := by
    rw [← length_inputBytes, ← length_streamBits, hstream, List.length_append]
  have hlen : s.len ≠ 0#32 := by
    intro h
    rw [h] at hbits
    exact absurd hbits (by simp; omega)
  rw [execDecode_of_valid hv hl hlen hn, hstream]
  simp [decodeStream, State.sentinelLen, ← hterm]

/-! ### The statements about any table -/

/-- Settles O35: each check that fails decides the outcome, and the empty stream stores no symbol. -/
theorem decodeChecksBeforeThePayload : Obligations.DecodeChecksBeforeThePayload := by
  intro s
  refine ⟨fun hv => ?_, fun hv hl => ?_, fun hv hlen => ?_, fun hv hl hlen hn => ?_, fun hv hl hlen hn hshort => ?_⟩
  · exact ⟨_, exec_decode_of_invalid hv, failDecode_failed _ _ s⟩
  · exact ⟨_, exec_decode_of_lengthBad hv hl, failDecode_failed _ _ s⟩
  · rw [exec_decode_of_empty hv hlen]
    exact congrArg Host.Outcome.next (completeWith_none _)
  · exact ⟨_, exec_decode_of_emptyTable hv hl hlen hn, failDecode_failed _ _ s⟩
  · exact ⟨_, exec_decode_of_short hv hl hlen hn hshort, failDecode_failed _ _ s⟩

/-- Settles O41: both ways DECODE ends keep the frame. -/
theorem decodeLeavesItsInputs : Obligations.DecodeLeavesItsInputs := by
  intro s t hx
  rcases execDecode_cases hx with ⟨code, info, -, rfl⟩ | ⟨-, -, symbols, -, rfl⟩
  · exact (failDecode_failed code info s).toDecodeFrame
  · exact storeSymbols_frame symbols s

end Sys2Proof.Machine
end

section
/-! PROOFS. The payload walk in a built table: at ROOT it reads one codeword, of an internal tree or of the one leaf, and
emits its symbol; a part of a codeword leaves it away from ROOT (43_decoder.md R236 to R238). -/

namespace Sys2Proof.Machine

variable {t : CodeTable} {outDepth j m : Nat} {c : Byte} {arena : List TreeNode} {x : Nat} {T T' : CodeTree}

/-! ### Ways in a tree -/

theorem CodeTree.eq_leaf_of_nil_mem_paths {s : Nat} (h : (s, []) ∈ T.paths) : T = .leaf s := by
  cases T with
  | leaf s' => simpa [paths, eq_comm] using h
  | node l r => simp [paths] at h

theorem CodeTree.exists_node_of_cons_mem_paths {s : Nat} {b : Bool} {bits : List Bool} (h : (s, b :: bits) ∈ T.paths) :
    ∃ l r, T = .node l r ∧ (s, bits) ∈ (if b then r else l).paths := by
  cases T with
  | leaf s' => simp [paths] at h
  | node l r => exact ⟨l, r, rfl, by cases b <;> simpa [paths] using h⟩

/-- A node is the root of one tree only. -/
theorem Unfolds.unique (h : Unfolds arena x T) (h' : Unfolds arena x T') : T = T' := by
  induction h generalizing T' with
  | leaf hx =>
    cases h' with
    | leaf _ => rfl
    | node hx' _ _ _ => exact absurd hx (Nat.not_lt.mpr hx')
  | node hx hnd _ _ ihl ihr =>
    cases h' with
    | leaf hx' => exact absurd hx' (Nat.not_lt.mpr hx)
    | node _ hnd' hl hr =>
      obtain rfl := Option.some.inj (hnd.symm.trans hnd')
      rw [ihl hl, ihr hr]

/-! ### The stored tree -/

theorem CodeTable.Built.valid_eq (h : t.Built) : t.valid = true := by
  obtain ⟨v, rfl⟩ := h
  rfl

section
variable {v : Vector Word 256} {node : NodeIx} {b : Bool}

/-- The stored child of an internal node is the arena's (R179, R236). -/
theorem toNat_childOf {nd : TreeNode} (hnd : (buildTree (weightsOf v)).arena[node.toNat - 256]? = some nd) (b : Bool) :
    ((tableOf (weightsOf v)).childOf node b).toNat = if b then nd.right else nd.left := by
  have hk : node.toNat - 256 < 255 := by
    have := (List.getElem?_eq_some_iff.mp hnd).1
    have := length_buildTree_arena_le (weightsOf v)
    have := length_alphabet_le v
    omega
  obtain ⟨hleft, hright, -, -⟩ := storedTreeIsTheBuiltTree v ⟨node.toNat - 256, hk⟩
  simp only [hnd, Option.map_some, Option.getD_some] at hleft hright
  cases b
  · simpa [CodeTable.childOf, CodeTable.leftOf, hk] using hleft
  · simpa [CodeTable.childOf, CodeTable.rightOf, hk] using hright

theorem toNat_root (v : Vector Word 256) : (tableOf (weightsOf v)).root.toNat = (buildTree (weightsOf v)).root :=
  (storedTreeIsTheBuiltTree v 0).2.2.2

theorem leaf_of_toNat_eq (h : node.toNat = c.toNat) : isLeaf node = true ∧ leafSymbol node = c :=
  ⟨decide_eq_true (h ▸ c.isLt), BitVec.eq_of_toNat_eq (by
    rw [leafSymbol, BitVec.toNat_setWidth, h]
    exact Nat.mod_eq_of_lt c.isLt)⟩

/-- A node at the end of its way is the leaf of its symbol (R121). -/
theorem Unfolds.leaf_of_nil_mem (h : Unfolds arena node.toNat T) (hc : (c.toNat, []) ∈ T.paths) :
    isLeaf node = true ∧ leafSymbol node = c := by
  obtain rfl := CodeTree.eq_leaf_of_nil_mem_paths hc
  generalize hcn : c.toNat = n at h
  cases h with
  | leaf _ => exact leaf_of_toNat_eq hcn.symm

theorem Unfolds.isLeaf_eq_false (h : Unfolds arena node.toNat T) {s : Nat} {bits : List Bool} (hp : (s, bits) ∈ T.paths)
    (hbits : bits ≠ []) : isLeaf node = false := by
  obtain ⟨b, rest, rfl⟩ := List.exists_cons_of_ne_nil hbits
  obtain ⟨l, r, rfl, -⟩ := CodeTree.exists_node_of_cons_mem_paths hp
  cases h with
  | node hx _ _ _ => exact decide_eq_false (Nat.not_lt.mpr hx)

/-- The child a bit selects is the root of the subtree the bit leads to. -/
theorem Unfolds.child (h : Unfolds (buildTree (weightsOf v)).arena node.toNat T) {s : Nat} {bits : List Bool}
    (hp : (s, b :: bits) ∈ T.paths) :
    ∃ T', Unfolds (buildTree (weightsOf v)).arena ((tableOf (weightsOf v)).childOf node b).toNat T' ∧
      (s, bits) ∈ T'.paths ∧ T'.height < T.height := by
  obtain ⟨l, r, rfl, hmem⟩ := CodeTree.exists_node_of_cons_mem_paths hp
  cases h with
  | node _ hnd hl hr =>
    refine ⟨if b then r else l, ?_, hmem, ?_⟩
    · rw [toNat_childOf hnd]
      cases b
      · exact hl
      · exact hr
    · cases b
      · exact Nat.lt_succ_of_le (Nat.le_max_left _ _)
      · exact Nat.lt_succ_of_le (Nat.le_max_right _ _)

/-- The walk along the first bits of a way emits nothing and stands at a node further down it (R236). -/
theorem Unfolds.walkTree_part {part more : List Bool} (h : Unfolds (buildTree (weightsOf v)).arena node.toNat T) {s : Nat}
    (hp : (s, part ++ more) ∈ T.paths) (hmore : more ≠ []) :
    ∃ (node' : NodeIx) (T' : CodeTree), Unfolds (buildTree (weightsOf v)).arena node'.toNat T' ∧ (s, more) ∈ T'.paths ∧
      T'.height + part.length ≤ T.height ∧ ∀ rest outDepth j m,
        walkTree (tableOf (weightsOf v)) outDepth (part ++ rest) j m node =
          walkTree (tableOf (weightsOf v)) outDepth rest (j + part.length) m node' := by
  induction part generalizing node T with
  | nil => exact ⟨node, T, h, hp, Nat.le_refl _, fun _ _ _ _ => rfl⟩
  | cons b part ih =>
    obtain ⟨T1, h1, hp1, hlt⟩ := h.child hp
    obtain ⟨node', T', h', hp', hheight, hwalk⟩ := ih h1 hp1
    have hinner := h1.isLeaf_eq_false hp1 (by simp [hmore])
    refine ⟨node', T', h', hp', by rw [List.length_cons]; omega, fun rest outDepth j m => ?_⟩
    simp [walkTree, hinner, hwalk, Nat.add_assoc, Nat.add_comm 1]

end

/-! ### One codeword, or a part of one -/

/-- The payload walk that stands at ROOT at bit `j` with `m` symbols emitted (R230, R236, R237). -/
def walkFromRoot (t : CodeTable) (outDepth : Nat) (bits : List Bool) (j m : Nat) : WalkResult :=
  if isLeaf t.root then walkLeaf t outDepth bits j m else walkTree t outDepth bits j m t.root

theorem walkPayload_eq_walkFromRoot (t : CodeTable) (outDepth : Nat) (bits : List Bool) :
    walkPayload t outDepth bits = walkFromRoot t outDepth bits 0 0 := rfl

@[simp] theorem walkFromRoot_nil : walkFromRoot t outDepth [] j m = .done [] t.root := by
  simp [walkFromRoot, walkLeaf, walkTree]

/-- What the walk from ROOT does at a symbol's last bit: it raises OUTPUT_OVERFLOW there, or emits the symbol and goes on from
ROOT (R236, R238). -/
def WalksCodeword (t : CodeTable) (c : Byte) : Prop :=
  ∀ (rest : List Bool) (outDepth j m : Nat), walkFromRoot t outDepth (t.codewordOf c ++ rest) j m =
    if m = outDepth then .failed .outputOverflow (j + (t.codewordOf c).length - 1)
    else (walkFromRoot t outDepth rest (j + (t.codewordOf c).length) (m + 1)).emit c

/-- In a one-leaf table the symbol is the root and its codeword is "0" (R169). -/
theorem codewordOf_and_leaf_of_one (h : t.Built) (hn : t.nsym.toNat = 1) (hc : t.Has c) :
    t.codewordOf c = [false] ∧ isLeaf t.root = true ∧ leafSymbol t.root = c := by
  obtain ⟨v, rfl⟩ := h
  have hw := length_weightsOf v
  rw [toNat_nsym hw] at hn
  obtain ⟨s, hs⟩ := List.length_eq_one_iff.mp hn
  have hbook := codeBook_of_eq_singleton hw hs
  obtain rfl : c.toNat = s := by simpa [hs] using (hbook.has_iff hw).mp hc
  have hroot : (tableOf (weightsOf v)).root.toNat = c.toNat := by
    rw [toNat_root, buildTree_of_length_le_one hw hn.le, hs]
    rfl
  exact ⟨hbook.codewordOf_eq hw List.mem_cons_self, leaf_of_toNat_eq hroot⟩

theorem exists_has (h : t.Built) (hn : t.nsym ≠ 0#9) : ∃ c, t.Has c := by
  obtain ⟨v, rfl⟩ := h
  have hw := length_weightsOf v
  obtain ⟨book, hbook⟩ := exists_codeBook hw
  have hne : alphabet (weightsOf v) ≠ [] := fun hnil => hn (BitVec.eq_of_toNat_eq (by rw [toNat_nsym hw, hnil]; rfl))
  obtain ⟨x, hx⟩ := List.exists_mem_of_ne_nil _ hne
  obtain ⟨c, rfl⟩ := exists_toNat_eq hw hx
  exact ⟨c, (hbook.has_iff hw).mpr hx⟩

theorem codewordOf_ne_nil (hc : t.Has c) : t.codewordOf c ≠ [] := by
  intro hnil
  have hlen : (atSymbol t.codelen c).toNat = 0 := by rw [← length_codewordOf, hnil, List.length_nil]
  exact hc (BitVec.eq_of_toNat_eq hlen)

/-- With two or more symbols a codeword is the way from ROOT, an internal node, to its symbol (R172, R236). -/
theorem exists_tree_of_has {v : Vector Word 256} (hn : 2 ≤ (tableOf (weightsOf v)).nsym.toNat)
    (hc : (tableOf (weightsOf v)).Has c) :
    ∃ T, Unfolds (buildTree (weightsOf v)).arena (tableOf (weightsOf v)).root.toNat T ∧
      (c.toNat, (tableOf (weightsOf v)).codewordOf c) ∈ T.paths := by
  have hw := length_weightsOf v
  rw [toNat_nsym hw] at hn
  obtain ⟨T, hT⟩ := exists_builtTree hw hn
  exact ⟨T, toNat_root v ▸ hT.unfolds, (hT.codeBook hn).mem_of_has hw hc⟩

theorem isLeaf_eq_false_of_two_le (h : t.Built) (hn : 2 ≤ t.nsym.toNat) : isLeaf t.root = false := by
  obtain ⟨c, hc⟩ := exists_has h fun h0 => by simp [h0] at hn
  obtain ⟨v, rfl⟩ := h
  obtain ⟨T, hT, hmem⟩ := exists_tree_of_has hn hc
  exact hT.isLeaf_eq_false hmem (codewordOf_ne_nil hc)

theorem nsym_ne_zero_of_has (h : t.Built) (hc : t.Has c) : t.nsym ≠ 0#9 :=
  fun hn => not_has_of_nsym_eq_zero h hn c hc

/-- A symbol with a codeword is the only one, or one of several (R169, R170). -/
theorem nsym_cases (h : t.Built) (hc : t.Has c) : t.nsym.toNat = 1 ∨ 2 ≤ t.nsym.toNat := by
  have hn : t.nsym.toNat ≠ 0 := fun h0 => nsym_ne_zero_of_has h hc (BitVec.eq_of_toNat_eq h0)
  omega

theorem walksCodeword_of_one (h : t.Built) (hn : t.nsym.toNat = 1) (hc : t.Has c) : WalksCodeword t c := by
  obtain ⟨hbits, hleaf, hsym⟩ := codewordOf_and_leaf_of_one h hn hc
  intro rest outDepth j m
  simp [walkFromRoot, hbits, hleaf, walkLeaf, hsym]

/-- The walk follows the codeword's bits but the last to a node whose child is the symbol's leaf. -/
theorem walksCodeword_of_tree (h : t.Built) (hn : 2 ≤ t.nsym.toNat) (hc : t.Has c) : WalksCodeword t c := by
  have hroot := isLeaf_eq_false_of_two_le h hn
  obtain ⟨v, rfl⟩ := h
  obtain ⟨T, hT, hmem⟩ := exists_tree_of_has hn hc
  obtain ⟨part, b, hsplit⟩ : ∃ part b, (tableOf (weightsOf v)).codewordOf c = part ++ [b] :=
    ⟨_, _, (List.dropLast_append_getLast (codewordOf_ne_nil hc)).symm⟩
  rw [hsplit] at hmem
  obtain ⟨node, T', h', hp', -, hwalk⟩ := hT.walkTree_part hmem (List.cons_ne_nil _ _)
  obtain ⟨T'', h'', hp'', -⟩ := h'.child hp'
  obtain ⟨hleaf, hsym⟩ := h''.leaf_of_nil_mem hp''
  intro rest outDepth j m
  simp [walkFromRoot, hroot, hsplit, hwalk, walkTree, hleaf, hsym, Nat.add_assoc]

theorem walksCodeword (h : t.Built) (hc : t.Has c) : WalksCodeword t c :=
  (nsym_cases h hc).elim (walksCodeword_of_one h · hc) (walksCodeword_of_tree h · hc)

/-- A proper part of a codeword leads to a node whose tree is lower than ROOT's (R239). -/
theorem walkFromRoot_part (h : t.Built) (hc : t.Has c) {part : List Bool} (hpre : part <+: t.codewordOf c)
    (hproper : part ≠ t.codewordOf c) (hpart : part ≠ []) :
    ∃ node, node ≠ t.root ∧ walkFromRoot t outDepth part j m = .done [] node := by
  obtain ⟨more, hsplit⟩ := hpre
  have hmore : more ≠ [] := fun hnil => hproper (by rw [← hsplit, hnil, List.append_nil])
  have hpos := List.length_pos_of_ne_nil hpart
  rcases nsym_cases h hc with hn | hn
  · have hlen := congrArg List.length (hsplit.trans (codewordOf_and_leaf_of_one h hn hc).1)
    have := List.length_pos_of_ne_nil hmore
    simp only [List.length_append, List.length_singleton] at hlen
    omega
  · have hroot := isLeaf_eq_false_of_two_le h hn
    obtain ⟨v, rfl⟩ := h
    obtain ⟨T, hT, hmem⟩ := exists_tree_of_has hn hc
    rw [← hsplit] at hmem
    obtain ⟨node, T', h', -, hheight, hwalk⟩ := hT.walkTree_part hmem hmore
    refine ⟨node, ?_, by simpa [walkFromRoot, hroot, walkTree] using hwalk [] outDepth j m⟩
    rintro rfl
    rw [hT.unique h'] at hheight
    omega

/-! ### Several codewords -/

/-- Puts symbols emitted earlier before the walk's own. -/
def WalkResult.emitAll (symbols : List Byte) (r : WalkResult) : WalkResult := symbols.foldr WalkResult.emit r

@[simp] theorem emitAll_done (symbols own : List Byte) (node : NodeIx) :
    (WalkResult.done own node).emitAll symbols = .done (symbols ++ own) node := by
  induction symbols with
  | nil => rfl
  | cons c symbols ih => exact congrArg (WalkResult.emit c) ih

@[simp] theorem emitAll_failed (symbols : List Byte) (code : ErrCode) (info : Nat) :
    (WalkResult.failed code info).emitAll symbols = .failed code info := by
  induction symbols with
  | nil => rfl
  | cons c symbols ih => exact congrArg (WalkResult.emit c) ih

theorem walkFromRoot_codewords {symbols : List Byte} (h : t.Built) (hhas : ∀ c ∈ symbols, t.Has c)
    (hfits : m + symbols.length ≤ outDepth) (rest : List Bool) :
    walkFromRoot t outDepth (symbols.flatMap t.codewordOf ++ rest) j m =
      (walkFromRoot t outDepth rest (j + (symbols.flatMap t.codewordOf).length) (m + symbols.length)).emitAll symbols := by
  induction symbols generalizing j m with
  | nil => rfl
  | cons c symbols ih =>
    rw [List.length_cons] at hfits
    obtain ⟨hc, hrest⟩ := List.forall_mem_cons.mp hhas
    have hm : m ≠ outDepth := by omega
    rw [List.flatMap_cons, List.append_assoc, walksCodeword h hc, if_neg hm, ih hrest (by omega), List.length_append,
      List.length_cons, Nat.add_assoc, Nat.add_assoc, Nat.add_comm 1]
    rfl

/-- The payload walk reads the symbols that fit and stands at ROOT after them (R236, R238). -/
theorem walkPayload_codewords {symbols : List Byte} (h : t.Built) (hhas : ∀ c ∈ symbols, t.Has c)
    (hfits : symbols.length ≤ outDepth) (rest : List Bool) :
    walkPayload t outDepth (symbols.flatMap t.codewordOf ++ rest) =
      (walkFromRoot t outDepth rest (symbols.flatMap t.codewordOf).length symbols.length).emitAll symbols := by
  rw [walkPayload_eq_walkFromRoot, walkFromRoot_codewords h hhas (by omega), Nat.zero_add, Nat.zero_add]

theorem walkPayload_of_codewords {symbols : List Byte} (h : t.Built) (hhas : ∀ c ∈ symbols, t.Has c)
    (hfits : symbols.length ≤ outDepth) :
    walkPayload t outDepth (symbols.flatMap t.codewordOf) = .done symbols t.root := by
  simpa using walkPayload_codewords h hhas hfits []

/-- No walk in an internal tree raises UNKNOWN_CODEWORD (R241). -/
theorem walkTree_ne_unknownCodeword (bits : List Bool) (node : NodeIx) (info : Nat) :
    walkTree t outDepth bits j m node ≠ .failed .unknownCodeword info := by
  induction bits generalizing j m node with
  | nil => simp [walkTree]
  | cons b bits ih =>
    simp only [walkTree]
    split_ifs
    · simp
    · cases hr : walkTree t outDepth bits (j + 1) (m + 1) t.root with
      | done symbols node => simp
      | failed code info' =>
        rw [emit_failed, ← hr]
        exact ih _
    · exact ih _

end Sys2Proof.Machine
end

section
/-! PROOFS. DECODE of a stream of codewords with a built table: the symbols come back, and each way the stream can go wrong has
its error and index (43_decoder.md R236 to R244). -/

namespace Sys2Proof.Machine

variable {s : State} {bits terminator : List Bool}

/-! ### The terminator -/

/-- The first 0 bit comes after as many ones as its index. -/
theorem firstZero_eq_some_iff {i : Nat} : firstZero bits = some i ↔ ∃ rest, bits = ones i ++ false :: rest := by
  induction bits generalizing i with
  | nil => simp [firstZero]
  | cons b bits ih =>
    cases b <;> cases i <;> simp [firstZero, ih, ones, List.replicate_succ]

theorem firstZero_ones (n : Nat) : firstZero (ones n) = none := by
  induction n with
  | zero => rfl
  | succ n ih => exact congrArg (Option.map (· + 1)) ih

/-- A bit string of at least `n` bits splits before its last `n`. -/
theorem exists_terminator {n : Nat} (h : n ≤ bits.length) :
    ∃ more terminator, bits = more ++ terminator ∧ terminator.length = n :=
  ⟨bits.take (bits.length - n), bits.drop (bits.length - n), (List.take_append_drop ..).symm, by
    rw [List.length_drop]
    omega⟩

/-! ### A split stream by its walk -/

theorem decodeSplit_of_failed {code : ErrCode} {info : Nat}
    (hwalk : walkPayload s.table s.cfg.outDepth bits = .failed code info) :
    decodeSplit bits terminator s = s.failDecode code (BitVec.ofNat 32 info) := by
  simp only [decodeSplit, hwalk]

theorem decodeSplit_of_unfinished {symbols : List Byte} {node : NodeIx}
    (hwalk : walkPayload s.table s.cfg.outDepth bits = .done symbols node) (hnode : node ≠ s.table.root) :
    decodeSplit bits terminator s = s.failDecode .truncatedStream (BitVec.ofNat 32 bits.length) := by
  simp only [decodeSplit, hwalk, if_pos hnode]

theorem decodeSplit_of_zero {symbols : List Byte} {i : Nat}
    (hwalk : walkPayload s.table s.cfg.outDepth bits = .done symbols s.table.root) (hz : firstZero terminator = some i) :
    decodeSplit bits terminator s = s.failDecode .unknownCodeword (BitVec.ofNat 32 (bits.length + i)) := by
  simp [decodeSplit, hwalk, hz]

theorem decodeSplit_of_ones {symbols : List Byte}
    (hwalk : walkPayload s.table s.cfg.outDepth bits = .done symbols s.table.root) (hz : firstZero terminator = none) :
    decodeSplit bits terminator s = s.storeSymbols symbols := by
  simp [decodeSplit, hwalk, hz]

/-! ### Streams of codewords -/

theorem exec_decode_of_codewords {symbols : List Byte} (hb : s.table.Built) (hn : s.table.nsym ≠ 0#9)
    (hl : s.len.toNat ≤ s.cfg.inDepth) (hhas : ∀ c ∈ symbols, s.table.Has c) (hfits : symbols.length ≤ s.cfg.outDepth)
    (hstream : streamBits s.inputBytes = symbols.flatMap s.table.codewordOf ++ ones (s.pad.toNat + 8)) :
    exec .decode s = .next (s.storeSymbols symbols) := by
  rw [exec_decode_of_split hb.valid_eq hl hn (length_ones _) hstream,
    decodeSplit_of_ones (walkPayload_of_codewords hb hhas hfits) (firstZero_ones _)]

/-- Settles O34: the walk reads the symbols back and the terminator has no 0 bit. -/
theorem decodeRecoversTheSymbols : Obligations.DecodeRecoversTheSymbols := by
  intro s symbols hb hn hl hhas hfits hstream
  exact ⟨_, exec_decode_of_codewords hb hn hl hhas hfits hstream, storeSymbols_completed symbols s,
    storeSymbols_frame symbols s, rfl, storeSymbols_readFirst symbols s, fun _ hi => storeSymbols_read_above symbols s hi⟩

/-- Settles O36: after the part of a codeword the walk does not stand at ROOT. -/
theorem decodeOfAnUnfinishedCodeword : Obligations.DecodeOfAnUnfinishedCodeword := by
  intro s symbols c part terminator hb hl hhas hfits hc hpre hproper hpart hterm hstream
  obtain ⟨node, hnode, hwalk⟩ := walkFromRoot_part (outDepth := s.cfg.outDepth)
    (j := (symbols.flatMap s.table.codewordOf).length) (m := symbols.length) hb hc hpre hproper hpart
  have hpayload : walkPayload s.table s.cfg.outDepth (symbols.flatMap s.table.codewordOf ++ part) = .done symbols node := by
    rw [walkPayload_codewords hb hhas hfits, hwalk, emitAll_done, List.append_nil]
  rw [exec_decode_of_split hb.valid_eq hl (nsym_ne_zero_of_has hb hc) hterm hstream,
    decodeSplit_of_unfinished hpayload hnode, List.length_append]
  exact ⟨_, rfl, failDecode_failed _ _ s⟩

/-- Settles O37: the walk stands at ROOT, so the terminator is looked at, and its first 0 bit comes after `k` ones. -/
theorem decodeChecksTheTerminator : Obligations.DecodeChecksTheTerminator := by
  intro s symbols k rest hb hn hl hhas hfits hlen hstream
  have hterm : (ones k ++ false :: rest).length = s.pad.toNat + 8 := by
    rw [← hlen, List.length_append, length_ones, List.length_cons]
    omega
  rw [exec_decode_of_split hb.valid_eq hl hn hterm hstream,
    decodeSplit_of_zero (walkPayload_of_codewords hb hhas hfits) (firstZero_eq_some_iff.mpr ⟨rest, rfl⟩)]
  exact ⟨_, rfl, failDecode_failed _ _ s⟩

/-- A walk that fails at these bits, whatever payload follows them, is DECODE's outcome (R237, R238). -/
theorem exec_decode_of_failed {rest : List Bool} {code : ErrCode} {info : Nat} (hb : s.table.Built)
    (hl : s.len.toNat ≤ s.cfg.inDepth) (hn : s.table.nsym ≠ 0#9) (hrest : s.pad.toNat + 8 ≤ rest.length)
    (hstream : streamBits s.inputBytes = bits ++ rest)
    (hwalk : ∀ more, walkPayload s.table s.cfg.outDepth (bits ++ more) = .failed code info) :
    ∃ t, exec .decode s = .next t ∧ DecodeFailed s t code (BitVec.ofNat 32 info) := by
  obtain ⟨more, terminator, rfl, hterm⟩ := exists_terminator hrest
  rw [← List.append_assoc] at hstream
  rw [exec_decode_of_split hb.valid_eq hl hn hterm hstream, decodeSplit_of_failed (hwalk more)]
  exact ⟨_, rfl, failDecode_failed _ _ s⟩

/-- Settles O38: the walk overflows at the codeword's last bit. -/
theorem decodeOverflowsAtTheSymbolThatDoesNotFit : Obligations.DecodeOverflowsAtTheSymbolThatDoesNotFit := by
  intro s symbols c rest hb hl hhas hc hfull hrest hstream
  refine exec_decode_of_failed hb hl (nsym_ne_zero_of_has hb hc) hrest hstream fun more => ?_
  rw [List.append_assoc, walkPayload_codewords hb hhas hfull.le, walksCodeword hb hc, if_pos hfull, emitAll_failed]

/-- Settles O39: the zeros are codewords of the one symbol, and a 1 is none. -/
theorem decodeOfAOneBitInAOneLeafTree : Obligations.DecodeOfAOneBitInAOneLeafTree := by
  intro s j rest hb hn hl hfits hrest hstream
  have hne : s.table.nsym ≠ 0#9 := by simp [hn]
  obtain ⟨c, hc⟩ := exists_has hb hne
  obtain ⟨hbits, hleaf, -⟩ := codewordOf_and_leaf_of_one hb (by rw [hn]; rfl) hc
  have hzeros : (List.replicate j c).flatMap s.table.codewordOf = List.replicate j false := by
    simp [List.flatMap_replicate, hbits]
  have hhas : ∀ d ∈ List.replicate j c, s.table.Has d := fun d hd => List.eq_of_mem_replicate hd ▸ hc
  rw [List.append_cons] at hstream
  refine exec_decode_of_failed hb hl hne hrest hstream fun more => ?_
  rw [List.append_assoc, ← hzeros, walkPayload_codewords hb hhas (by simpa using hfits), hzeros]
  simp [walkFromRoot, hleaf, walkLeaf]

/-- For two or more symbols the walk does not raise UNKNOWN_CODEWORD, so it is the terminator's (R241). -/
theorem terminator_of_unknownCodeword {t : State} (hb : s.table.Built) (hn : 2 ≤ s.table.nsym.toNat)
    (hx : exec .decode s = .next t) (herr : t.errCode = .unknownCodeword) :
    ∃ payload k rest, streamBits s.inputBytes = payload ++ (ones k ++ false :: rest) ∧
      k + 1 + rest.length = s.pad.toNat + 8 ∧ t.errInfo = BitVec.ofNat 32 (payload.length + k) := by
  have hv := hb.valid_eq
  have hne : s.table.nsym ≠ 0#9 := fun h0 => by simp [h0] at hn
  have hwalk (bits : List Bool) (info : Nat) :
      walkPayload s.table s.cfg.outDepth bits ≠ .failed .unknownCodeword info := by
    simpa [walkPayload, isLeaf_eq_false_of_two_le hb hn] using walkTree_ne_unknownCodeword bits _ info
  have hcode {t' : State} (h : exec .decode s = .next t') : t'.errCode = .unknownCodeword := by
    rw [← Host.Outcome.next.inj (hx.symm.trans h), herr]
  have hl : s.len.toNat ≤ s.cfg.inDepth := by
    by_contra hl
    cases hcode (exec_decode_of_lengthBad hv (Nat.lt_of_not_le hl))
  have hlen : s.len ≠ 0#32 := fun hlen => by cases hcode (exec_decode_of_empty hv hlen)
  have hlong : s.pad.toNat + 8 ≤ (streamBits s.inputBytes).length := by
    rw [length_streamBits, length_inputBytes]
    by_contra hshort
    cases hcode (exec_decode_of_short hv hl hlen hne (Nat.lt_of_not_le hshort))
  obtain ⟨payload, terminator, hstream, hterm⟩ := exists_terminator hlong
  have hsplit := exec_decode_of_split hv hl hne hterm hstream
  rcases decodeSplit_outcomes payload terminator s with
    ⟨code, info, hfailed, he⟩ | ⟨-, -, -, -, he⟩ | ⟨symbols, k, -, hz, he⟩ | ⟨symbols, -, -, he⟩ <;> rw [he] at hsplit
  · obtain rfl : code = .unknownCodeword := hcode hsplit
    exact absurd hfailed (hwalk _ _)
  · cases hcode hsplit
  · obtain ⟨rest, rfl⟩ := firstZero_eq_some_iff.mp hz
    refine ⟨payload, k, rest, hstream, ?_, by rw [Host.Outcome.next.inj (hx.symm.trans hsplit), failDecode_errInfo]⟩
    rw [← hterm, List.length_append, length_ones, List.length_cons]
    omega
  · cases hcode hsplit

/-- Settles O40: the index found in the terminator is that of its first 0 bit. -/
theorem unknownCodewordOnlyInTheTerminator : Obligations.UnknownCodewordOnlyInTheTerminator := by
  intro s t hb hn hx herr
  obtain ⟨payload, k, rest, hstream, hterm, hinfo⟩ := terminator_of_unknownCodeword hb hn hx herr
  have hlen : 8 * s.len.toNat = payload.length + (k + 1 + rest.length) := by
    rw [← length_inputBytes, ← length_streamBits, hstream]
    simp
    omega
  refine ⟨payload.length + k, by omega, ?_, fun i hi hik => ?_, hinfo⟩
  · simp [hstream]
  · obtain ⟨j, rfl⟩ : ∃ j, i = payload.length + j := ⟨i - payload.length, by omega⟩
    have hjk : j < k := by omega
    have hone : (ones k ++ false :: rest)[j]? = some true := by
      rw [List.getElem?_append_left (by rwa [length_ones]), ones, List.getElem?_replicate_of_lt hjk]
    rw [hstream, List.getElem?_append_right (Nat.le_add_right ..), Nat.add_sub_cancel_left, hone]

/-! ### The round trip -/

theorem Memory.readFirst_eq_iff {m m' : Memory} {n : Nat} :
    m.readFirst n = m'.readFirst n ↔ ∀ i, i < n → m.read i = m'.read i := by
  simp [Memory.readFirst]

/-- The stream in the first state's OUT_BUF is the input of the second, with the table and PAD kept (R244). -/
structure CopiedBack (t u : State) : Prop where
  cfg   : u.cfg = t.cfg
  table : u.table = t.table
  pad   : u.pad = t.pad
  len   : u.len = t.outLen
  bytes : ∀ i, i < t.outLen.toNat → u.inBuf.read i = t.outBuf.read i

theorem CopiedBack.inputBytes {t u : State} (h : CopiedBack t u) : u.inputBytes = t.outBuf.readFirst t.outLen.toNat := by
  rw [State.inputBytes, State.length, h.len]
  exact Memory.readFirst_eq_iff.mpr h.bytes

/-- The copy of a stored stream decodes to the symbols stored (R244). -/
theorem CopiedBack.exec_decode {u : State} {symbols : List Byte}
    (h : CopiedBack (s.storeStream (payload s.table symbols)) u) (hwf : s.cfg.wf = true) (hb : s.table.Built)
    (hn : s.table.nsym ≠ 0#9) (hhas : ∀ c ∈ symbols, s.table.Has c) (hfits : symbols.length ≤ s.cfg.outDepth)
    (hsize : streamSize (payload s.table symbols) ≤ s.cfg.outDepth) (hl : u.len.toNat ≤ u.cfg.inDepth) :
    exec .decode u = .next (u.storeSymbols symbols) := by
  have htable : u.table = s.table := h.table
  have hcfg : u.cfg = s.cfg := h.cfg
  have hstream : streamBits u.inputBytes = streamOf (payload s.table symbols) := by
    rw [h.inputBytes, storeStream_toNat_outLen hwf hsize, streamBits_storeStream]
  rw [← htable] at hb hn hhas
  rw [← hcfg] at hfits
  refine exec_decode_of_codewords hb hn hl hhas hfits ?_
  rw [hstream, h.pad, storeStream_toNat_pad, htable]
  rfl

/-- The empty table has no symbol, so all input symbols have a codeword only if there is none (R202). -/
theorem len_eq_zero_of_emptyTable (hb : s.table.Built) (hn : s.table.nsym = 0#9)
    (hhas : ∀ c ∈ s.inputBytes, s.table.Has c) : s.len = 0#32 := by
  have hnil : s.inputBytes = [] :=
    List.eq_nil_iff_forall_not_mem.mpr fun c hc => not_has_of_nsym_eq_zero hb hn c (hhas c hc)
  exact BitVec.eq_of_toNat_eq (by rw [← length_inputBytes, hnil]; rfl)

/-- Settles O42: ENCODE stored the empty stream, which decodes to no symbol, or the stream of its symbols. -/
theorem encodedSequencesDecodeBack : Obligations.EncodedSequencesDecodeBack := by
  intro s t u hwf hb hx hnone hfits hcfg htable hpad hlen hl hbytes
  have hv := hb.valid_eq
  by_cases hempty : s.table.nsym = 0#9 ∧ s.len = 0#32
  · have hzero : s.len = 0#32 := hempty.2
    rw [exec_encode_of_empty hv (by simp [hzero]) hempty] at hx
    obtain rfl := Host.Outcome.next.inj hx
    exact ⟨_, exec_decode_of_empty ((congrArg CodeTable.valid htable).trans hv) hlen, rfl, hzero.symm, by simp [hzero]⟩
  rcases execEncode_cases hx with ⟨code, info, hc, rfl⟩ | ⟨-, hn, hzero, -⟩ | ⟨-, -, hm, hsize, rfl⟩
  · exact absurd hnone hc
  · exact absurd ⟨hn, hzero⟩ hempty
  · have hhas := firstMissing_eq_none_iff.mp hm
    have hn : s.table.nsym ≠ 0#9 := fun hn => hempty ⟨hn, len_eq_zero_of_emptyTable hb hn hhas⟩
    have hcopy : CopiedBack (s.storeStream (payload s.table s.inputBytes)) u := ⟨hcfg, htable, hpad, hlen, hbytes⟩
    have hread := storeSymbols_readFirst s.inputBytes u
    rw [length_inputBytes] at hread
    rw [← hlen, ← hcfg] at hl
    refine ⟨_, hcopy.exec_decode hwf hb hn hhas ((length_inputBytes s).trans_le hfits) hsize hl, rfl, ?_,
      Memory.readFirst_eq_iff.mp hread⟩
    exact (congrArg (BitVec.ofNat 32) (length_inputBytes s)).trans (by simp)

end Sys2Proof.Machine
end

section
/-! PROOFS. The DONE bit and the interrupt output: every engine step sets DONE within the command frame, and IRQ_STATUS and
CTRL writes change them as R284 says (10_state.md R26; 60_exceptions.md R283, R284). -/

namespace Sys2Proof.Machine

/-- An engine step ends in the completion writes, whether or not the engine is enabled (R142, R143, R271). -/
theorem engineStep_ends {s t : State} (h : engineStep s = .next t) :
    ∃ code info, Completed s t code info ∧ CommandFrame s t := by
  simp only [engineStep] at h
  split at h
  · exact exec_ends h
  · obtain rfl := Host.Outcome.next.inj h
    exact ⟨_, _, completeWith_ends _ _ rfl (by constructor <;> rfl)⟩

/-- A CTRL write with BUSY = 0 stores the two flags and nothing else (R23). -/
theorem hostWrite_ctrl {a : Word} {s : State} (h : regOf a = .ctrl) (hb : s.busy = false) (v : Word) :
    hostWrite a v s = { s with irqEn := v.getLsbD 0, rejectCollision := v.getLsbD 1 } := by
  rw [hostWrite_of_idle hb, h]
  rfl

/-- Settles O48: DONE is a completion write and IRQ_EN is in the command frame; an IRQ_STATUS write is the acknowledgement,
a CTRL write stores IRQ_EN, and `irq` is IRQ_EN and DONE. -/
theorem interruptFollowsDoneAndEnable : Obligations.InterruptFollowsDoneAndEnable := by
  refine ⟨fun s t h => ?_, fun s a v hreg => ?_, fun s a v hreg hb => ?_, fun s => ⟨rfl, rfl⟩⟩
  · obtain ⟨code, info, hc, hf⟩ := engineStep_ends h
    exact ⟨hc.irqDone, by rw [State.irq, hc.irqDone, hf.irqEn, Bool.and_true]⟩
  · rw [hostWrite_irqStatus hreg]
    refine ⟨fun h1 => ?_, fun h0 => ?_⟩
    · have hdone : (s.ackIrq v).irqDone = false := by rw [ackIrq_irqDone, h1, Bool.not_true, Bool.and_false]
      exact ⟨hdone, by rw [State.irq, hdone, Bool.and_false]⟩
    · rw [ackIrq_irqDone, h0, Bool.not_false, Bool.and_true]
  · rw [hostWrite_ctrl hreg hb]
    exact ⟨rfl, rfl⟩

end Sys2Proof.Machine
end

section
/-! PROOFS. Reset and the two hazards at the ports: what every register reads after reset, that reset meets the invariant, and
that writes while BUSY = 1 and transactions while `rst` = 1 are lost (70_reset_and_hazards.md R300 to R302, R306). -/

namespace Sys2Proof.Machine

variable {s : State} {r : Reg} {a v : Word} {rest : List BusEvent}

/-! ### Lost transactions -/

/-- Settles O46: of the writes with BUSY = 1 only those to CMD and IRQ_STATUS have an effect. -/
theorem writesWhileBusyAreLost : Obligations.WritesWhileBusyAreLost := by
  intro s a v hb hirq hcmd
  rw [hostWrite_of_busy a v hb]
  rcases writeBusy_cases (regOf a) v s with ⟨h, -⟩ | ⟨h, -⟩ | ⟨-, -, h⟩
  · exact absurd h hcmd
  · exact absurd h hirq
  · exact h

/-- A write in reset takes its event and nothing else (R300). -/
theorem step_write_of_rst (hr : s.rst = true) (hbus : s.bus = .write a v :: rest) :
    step s = .next { s with bus := rest } := by
  simp [step_of_bus_cons hbus, takeEvent, hr]

/-- A read in reset takes its event, returns a free word and moves no pointer (R300). -/
theorem step_read_of_rst (hr : s.rst = true) (hbus : s.bus = .read a :: rest) :
    step s = .next (hostReadInReset a { s with bus := rest }) := by
  simp [step_of_bus_cons hbus, takeEvent, hr]

/-- Settles O57: a write in reset takes its event alone, and a read adds its free draw and its line of the trace. -/
theorem transactionsInResetHaveNoEffect : Obligations.TransactionsInResetHaveNoEffect :=
  fun s _ _ _ hr => ⟨step_write_of_rst hr, fun hbus => ⟨s.freeWord, step_read_of_rst hr hbus⟩⟩

/-! ### The reset state -/

/-- Settles O58: the reference depths are legal, and every bounded number, the table and the heap are 0 or empty. -/
theorem resetMeetsTheInvariant : Obligations.ResetMeetsTheInvariant where
  depths := rfl
  inPtr := Nat.two_pow_pos _
  outPtr := Nat.two_pow_pos _
  inBuf := reset_inBuf_wf
  outBuf := reset_outBuf_wf
  draws := by decide
  outLen := Nat.zero_le _
  encBits := Nat.zero_le _
  errInfo := fun _ => rfl
  heap := rfl
  table := fun hv => nomatch hv
  reset := fun hrst => nomatch hrst

theorem resetValue_of_gated (hg : r.gated = true) : resetValue r = 0 := by
  cases r <;> cases hg <;> rfl

/-- A register that the gate of R59 leaves open is stored, or follows from what is stored, by its reset value (R301). -/
theorem rawRead_reset (hg : r.gated = false) (hi : r ≠ .inData) (ho : r ≠ .outData) :
    State.reset.rawRead r = resetValue r := by
  cases r with
  | inData => exact absurd rfl hi
  | outData => exact absurd rfl ho
  | codelen _ | codeword _ _ | node _ _ => cases hg
  | weight c => simp [State.rawRead, State.reset, atSymbol, resetValue]
  | _ => rfl

/-- Reset leaves no valid table, so a gated register reads 0 by the gate and any other its stored value (R59, R301). -/
theorem exactRead_reset (hi : r ≠ .inData) (ho : r ≠ .outData) : State.reset.exactRead r = resetValue r := by
  cases hg : r.gated with
  | true => rw [exactRead_of_gated rfl hg, resetValue_of_gated hg]
  | false => rw [exactRead_of_not_gated hg, rawRead_reset hg hi ho]

/-- An edge with `rst` = 1 and the state right after reset differ in no register but the data windows (R301). -/
theorem exactRead_enterReset (s : State) (hi : r ≠ .inData) (ho : r ≠ .outData) :
    s.enterReset.exactRead r = State.reset.exactRead r := by
  cases r with
  | inData => exact absurd rfl hi
  | outData => exact absurd rfl ho
  | _ => rfl

/-- BUSY = 0 after reset, so every read is exact. -/
theorem readValue_reset (hi : r ≠ .inData) (ho : r ≠ .outData) : State.reset.readValue r = resetValue r := by
  rw [readValue_of_not_free (readIsFree_of_idle rfl r), exactRead_reset hi ho]

theorem readValue_enterReset (s : State) (hi : r ≠ .inData) (ho : r ≠ .outData) :
    s.enterReset.readValue r = resetValue r := by
  rw [readValue_of_not_free (readIsFree_of_idle rfl r), exactRead_enterReset s hi ho, exactRead_reset hi ho]

/-- Settles O56: an edge with `rst` enters the reset state, whose fields are those of State.reset but for the parameters, the
buffers and the model's own. -/
theorem resetGivesEveryRegisterItsValue : Obligations.ResetGivesEveryRegisterItsValue := by
  refine ⟨fun _ => readValue_reset, rfl, rfl, rfl, fun s rest hbus => ?_⟩
  have hstep : step s = .next (State.enterReset { s with bus := rest }) := step_of_bus_cons hbus
  exact ⟨_, hstep, rfl, rfl, rfl, rfl, rfl, rfl, rfl, rfl, fun _ => readValue_enterReset _⟩

end Sys2Proof.Machine
end
